-- ==== Sys2Proof/Word.lean ====
section
/-! DEFINITION. The word types of the unit (spec 00_scope R6, R7, R14, R16). -/

namespace Sys2Proof

/-- A word of the command port or the result port: CMD_BITS = RES_BITS = 32 (R6). -/
abbrev Word := BitVec 32

/-- A WideUint, WIDE_BITS = 128, unsigned (R6, R7). -/
abbrev WideUint := BitVec 128

/-- A block-size counter, SIZE_BITS = 129, unsigned, for both families (R6, R14). -/
abbrev Counter := BitVec 129

/-- ALLONES = 2^128 - 1 (R16). -/
abbrev allOnes : WideUint := BitVec.allOnes 128

/-- The high half v[127:64] of a WideUint (R7). -/
abbrev highHalf (v : WideUint) : BitVec 64 := v.extractLsb' 64 64

/-- The low half v[63:0] of a WideUint (R7). -/
abbrev lowHalf (v : WideUint) : BitVec 64 := v.extractLsb' 0 64

end Sys2Proof
end

