-- ==== Sys2Proof/Machine/State.lean ====
section
/-! DEFINITION. The state of the unit as plain data, its reset value, and the reasons a step can stop
(spec 10_state R20 to R43, 70_reset_and_hazards R311). -/

namespace Sys2Proof.Machine

/-- A Subnet record, 144 bits: base (128), plen (8), fw (8) (00_scope R11, 10_state R23, R39). -/
structure Subnet where
  base : WideUint
  plen : BitVec 8
  fw   : BitVec 8
  deriving DecidableEq, Repr

/-- The empty record an N register holds at reset: fw = 0 is no family width (10_state R23, R24). -/
def Subnet.empty : Subnet := { base := 0, plen := 0, fw := 0 }

/-- The CMP flag: the result of a three-way compare. The two-bit pattern 0b10 never occurs (10_state R27). -/
inductive Cmp where
  /-- -1: the first operand is less. -/
  | less
  /-- 0: equal. -/
  | equal
  /-- +1: the first operand is greater. -/
  | greater
  deriving DecidableEq, Repr

/-- The valid entries LIST[0], ..., LIST[LLEN-1] in index order (10_state R35, R39; log 2). -/
abbrev ListMem := List Subnet

/-- Why the machine stops with a fault. The spec's own exceptions are next states, never one of these. -/
inductive Fault where
  /-- The bound of an engine's loop ran out. Answered by the meanings of MERGE and DECOMP; never raised, since both loops
  end within their bound (44_merge R215, 45_decompose R251; Laws/Merge.lean and Laws/Decompose.lean prove it). Safe. -/
  | engineDiverged
  deriving DecidableEq, Repr

/-- Why an instruction has no meaning. -/
inductive Refusal where
  /-- The instruction of that mnemonic is not modelled yet. No arm of `exec` answers it: all 32 commands have their
  meaning. Safe. -/
  | notModelled (mnemonic : String)
  deriving DecidableEq, Repr

/-- The state of the unit (10_state R20), with the two word streams of its ports (R43). -/
structure State where
  /-- The W file: general registers of 128 bits (R21). -/
  w : Vector WideUint 16
  /-- The Z file: block-size counters of 129 bits (R22). -/
  z : Vector Counter 16
  /-- The N file: Subnet records of 144 bits (R23). -/
  n : Vector Subnet 16
  /-- Flag T: truth value of the most recent predicate command (R27). -/
  t : Bool
  /-- Flag C: the bit carried or shifted out of bit 127 (R27). -/
  c : Bool
  /-- Flag CMP: the result of the most recent WCMP (R27). -/
  cmp : Cmp
  /-- STATUS.HALTED (R30). -/
  halted : Bool
  /-- STATUS.RERR (R30). -/
  rerr : Bool
  /-- CAUSE bits 7:0; bits 31:8 read as 0 (R31). -/
  cause : BitVec 8
  /-- EPC (R32). -/
  epc : Word
  /-- EINFO (R33). -/
  einfo : Word
  /-- LIST below LLEN (R39); its length is LLEN (R35; log 2). -/
  list : ListMem
  /-- PASSES (R36). -/
  passes : Word
  /-- CMDCNT, modulo 2^32 (R37). -/
  cmdcnt : Word
  /-- The decoder: the words taken so far of a literal command whose payload is not complete, [] at a command boundary
  (30_encoding R104, 70_reset_and_hazards R311, R325; log 5). -/
  pending : List Word
  /-- The command stream presented by the host and not yet taken, next word first (R43; log 4). -/
  cmd : List Word
  /-- The result stream emitted since reset, in emission order (R43). -/
  res : List Word
  deriving DecidableEq, Repr

/-- The machine right after reset (70_reset_and_hazards R311, 10_state section 8). No command word is presented yet:
the stream is the host's (log 4). -/
def State.reset : State where
  w := Vector.replicate 16 0
  z := Vector.replicate 16 0
  n := Vector.replicate 16 Subnet.empty
  t := false
  c := false
  cmp := .equal
  halted := false
  rerr := false
  cause := 0
  epc := 0
  einfo := 0
  list := []
  passes := 0
  cmdcnt := 0
  pending := []
  cmd := []
  res := []

end Sys2Proof.Machine
end

