-- ==== Sys2Proof/Machine/Arith.lean ====
section
/-! DEFINITION. The arithmetic of the wide-integer unit and the mask table, and the word formats
(spec 40_wideuint, 41_masktable R150, 30_encoding R99, R107, 00_scope R8). -/

namespace Sys2Proof.Machine

/-! ### Comparator (40_wideuint R123) -/

/-- `compare`, lexicographic on (high, low), each half as an unsigned 64-bit number (R123). -/
def compareWide (a b : WideUint) : Cmp :=
  if highHalf a < highHalf b then .less
  else if highHalf b < highHalf a then .greater
  else if lowHalf a < lowHalf b then .less
  else if lowHalf b < lowHalf a then .greater
  else .equal

/-! ### Shifter (R127) -/

/-- One-bit left shift with the carry from the low half into the high half (R127). -/
def shl1 (v : WideUint) : WideUint :=
  (v.extractLsb' 64 63 ++ v.extractLsb' 63 1) ++ (v.extractLsb' 0 63 ++ (0 : BitVec 1))

/-- The bit shifted out of the high half, v[127] (R127). -/
def shiftedOut (v : WideUint) : Bool := v.getLsbD 127

/-! ### Range navigation (R128 to R130) -/

/-- `rangeEnd(mask)` = value OR NOT mask (R128). -/
def rangeEnd (v m : WideUint) : WideUint := v ||| ~~~m

/-- The +1 of `nextRangeBegin`, by halves: the low half's carry enters the high half (R129). -/
def increment (e : WideUint) : WideUint :=
  let k : BitVec 64 := if lowHalf e = 0xFFFFFFFFFFFFFFFF then 1 else 0
  (highHalf e + k) ++ (lowHalf e + 1)

/-- `nextRangeBegin(mask)` = `jump(mask)`: (value OR NOT mask) + 1 (R129, R130). -/
def nextBegin (v m : WideUint) : WideUint := increment (rangeEnd v m)

/-- The carry of that +1 out of bit 127 (R129). -/
def nextCarry (v m : WideUint) : Bool := rangeEnd v m == allOnes

/-! ### Trailing ones (R131) -/

/-- The least i in 0..127 with v[i] = 0, or 128 when v is ALLONES (R131). -/
def countTrailingOnes (v : WideUint) : Nat := ((List.range 128).find? fun i => !v.getLsbD i).getD 128

/-! ### Prefix-mask ROM (41_masktable R150, 10_state R41) -/

/-- A family width: 32 or 128 (00_scope R9). -/
def validWidth (fw : Nat) : Bool := fw == 32 || fw == 128

/-- (p, w) is an index of the ROM: no other entry exists (R150, 20_memory R65). -/
def romIndex (p w : Nat) : Bool := validWidth w && p ≤ w

/-- MASK(p, w).address: ALLONES shifted left w - p places (R150). Every command looks at an index of the ROM only: its
checks come first (R154), and an N register or list entry holds a well-formed Subnet (10_state R25; log 7). -/
def maskAddress (p w : Nat) : WideUint := allOnes <<< (w - p)

/-- MASK(p, w).size = 2^(w-p), 129 bits (R150). -/
def maskSize (p w : Nat) : Counter := (1 : Counter) <<< (w - p)

/-- An address value is in family w when it is below 2^w (00_scope R8). -/
def inFamily (a : WideUint) (w : Nat) : Bool := a.toNat < 2 ^ w

/-! ### Words of the ports -/

/-- A 128-bit value as four words, most significant first: `emit128` (00_scope R17, 20_memory R61). -/
def wideWords (v : WideUint) : List Word :=
  [v.extractLsb' 96 32, v.extractLsb' 64 32, v.extractLsb' 32 32, v.extractLsb' 0 32]

/-- A Z record, five words: bit 128 zero-extended, then bits 127:0 (30_encoding R107). -/
def counterWords (z : Counter) : List Word := (z.extractLsb' 128 1).zeroExtend 32 :: wideWords (z.extractLsb' 0 128)

/-- The header word of an N record: 0x0000, fw, plen (R107). -/
def subnetHeader (x : Subnet) : Word := (0 : BitVec 16) ++ x.fw ++ x.plen

/-- An N record, five words (R107). -/
def subnetWords (x : Subnet) : List Word := subnetHeader x :: wideWords x.base

/-- Address to WideUint: the big-endian reading of an address's bytes, done by the host (00_scope R8). -/
def addressOfBytes (bytes : List (BitVec 8)) : WideUint :=
  bytes.foldl (fun acc b => acc <<< 8 ||| b.zeroExtend 128) 0

end Sys2Proof.Machine
end

