-- ==== Sys2Proof/Config.lean ====
section
/-! DEFINITION. The one parameter an implementation fixes: LIST_DEPTH (spec 00_scope R6, 92 D12, 10_state R38).
It is uninterpreted: every statement about the model holds for every depth the spec allows. -/

namespace Sys2Proof.Config

/-- How far below its greatest value LIST_DEPTH lies. No body: nothing can be proved of its value, so LIST_DEPTH is any
of the 65536 values the spec allows (R6; log 1). -/
opaque listDepthShortfall : Fin 65536

/-- LIST_DEPTH, the number of entries of the list memory: an integer with 1 <= LIST_DEPTH <= 65536 (R6). -/
def listDepth : Nat := (65535 - listDepthShortfall.val) + 1

end Sys2Proof.Config
end

