-- ==== Sys2Proof/Syntax.lean ====
section
/-! DEFINITION. The commands (spec 30_encoding R90 to R100): one constructor per row of spec/opcode_table.json,
operands in the assembler order of R100, and the pseudo-instructions of R106. -/

namespace Sys2Proof

/-- The number of a W register (WideUint file): a 4-bit field, all 16 values legal (30_encoding R97). -/
abbrev WReg := Fin 16
/-- The number of a Z register (block-size counter file). -/
abbrev ZReg := Fin 16
/-- The number of an N register (Subnet record file). -/
abbrev NReg := Fin 16

/-- A command. Immediates are the integers their unsigned fields stand for (R98); `WellFormed` bounds them. -/
inductive Instr where
  /-- WLI Wd, literal128 (R121). -/
  | wli (rd : WReg) (literal : WideUint)
  /-- WLI4 Wd, literal32 (R122). -/
  | wli4 (rd : WReg) (literal : Word)
  /-- WCMP Wa, Wb (R123). -/
  | wcmp (rs1 rs2 : WReg)
  /-- WNOT Wd, Ws (R124). -/
  | wnot (rd rs1 : WReg)
  /-- WAND Wd, Wa, Wb (R125). -/
  | wand (rd rs1 rs2 : WReg)
  /-- WSHL Wd, Ws (R127). -/
  | wshl (rd rs1 : WReg)
  /-- WNEXT Wd, Wv, Wm (R129). -/
  | wnext (rd rs1 rs2 : WReg)
  /-- WREND Wd, Wv, Wm (R128). -/
  | wrend (rd rs1 rs2 : WReg)
  /-- WJUMP Wd, Wv, Wm (R130). -/
  | wjump (rd rs1 rs2 : WReg)
  /-- WCTO Wd, Ws, #max (R131). -/
  | wcto (rd rs1 : WReg) (max : Nat)
  /-- WOUT Ws (R132). -/
  | wout (rs1 : WReg)
  /-- MASKA Wd, #plen, #fw (R151). -/
  | maska (rd : WReg) (plen fw : Nat)
  /-- MASKS Zd, #plen, #fw (R152). -/
  | masks (rd : ZReg) (plen fw : Nat)
  /-- ZSUB Zd, Za, Zb (R166). -/
  | zsub (rd rs1 rs2 : ZReg)
  /-- ZISZ Za (R167). -/
  | zisz (rs1 : ZReg)
  /-- ZSETB Zd, Zs, #plen, #fw (R168). -/
  | zsetb (rd rs1 : ZReg) (plen fw : Nat)
  /-- ZOUT Zs (R169). -/
  | zout (rs1 : ZReg)
  /-- NMAKE Nd, Ws, #plen, #fw (R181). -/
  | nmake (rd : NReg) (rs1 : WReg) (plen fw : Nat)
  /-- NBASE Wd, Ns (R182). -/
  | nbase (rd : WReg) (rs1 : NReg)
  /-- NMASK Wd, Ns (R183). -/
  | nmask (rd : WReg) (rs1 : NReg)
  /-- NINCL Nouter, Ninner (R188). -/
  | nincl (rs1 rs2 : NReg)
  /-- NLT Na, Nb (R191). -/
  | nlt (rs1 rs2 : NReg)
  /-- NWIDEN Nd, Ns (R189). -/
  | nwiden (rd rs1 : NReg)
  /-- NOUT Ns (R190). -/
  | nout (rs1 : NReg)
  /-- LCLR (R201). -/
  | lclr
  /-- LPUSH Ns (R202). -/
  | lpush (rs1 : NReg)
  /-- LGET Nd, #idx (R203). -/
  | lget (rd : NReg) (idx : Nat)
  /-- LOUT (R204). -/
  | lout
  /-- MERGE (R205). -/
  | merge
  /-- DECOMP Wb, We, #fw (R240). -/
  | decomp (rs1 rs2 : WReg) (fw : Nat)
  /-- CSROUT #csr (R260). -/
  | csrout (csr : Nat)
  /-- CLRERR (R261). -/
  | clrerr
  deriving DecidableEq, Repr

namespace Instr

/-- FOUT = CSROUT #4: emit the FLAGS word (30_encoding R106). -/
def fout : Instr := .csrout 4
/-- LLEN = CSROUT #5: emit the list length (R106). -/
def llenOut : Instr := .csrout 5
/-- WMOV Wd, Ws = WAND Wd, Ws, Ws: copy (R106). -/
def wmov (rd rs1 : WReg) : Instr := .wand rd rs1 rs1
/-- ZCLR Zd = ZSUB Zd, Zd, Zd: clear (R106). -/
def zclr (rd : ZReg) : Instr := .zsub rd rd rd
/-- NOP = WAND W0, W0, W0: changes nothing but CMDCNT (R106). -/
def nop : Instr := .wand 0 0 0

end Instr

end Sys2Proof
end

