-- ==== Sys2Proof/Machine/Ops.lean ====
section
/-! DEFINITION. The named operations on the state: register files, the list memory, the result port, retirement, and
taking an exception with its acknowledge (spec 00_scope R17, 10_state, 30_encoding R107, 60_exceptions). -/

namespace Sys2Proof.Machine

namespace State

/-! ### Register files (10_state R21 to R23; no register is hardwired) -/

/-- Read W[r]. -/
def getW (s : State) (r : WReg) : WideUint := s.w.get r
/-- Write W[r]. -/
def setW (s : State) (r : WReg) (v : WideUint) : State := { s with w := s.w.set r.val v }
/-- Read Z[r]. -/
def getZ (s : State) (r : ZReg) : Counter := s.z.get r
/-- Write Z[r]. -/
def setZ (s : State) (r : ZReg) (v : Counter) : State := { s with z := s.z.set r.val v }
/-- Read N[r]. -/
def getN (s : State) (r : NReg) : Subnet := s.n.get r
/-- Write N[r]. -/
def setN (s : State) (r : NReg) (v : Subnet) : State := { s with n := s.n.set r.val v }

/-! ### Flags: a command writes only the field its rule lists (10_state R28) -/

/-- T <- b. -/
def setT (s : State) (b : Bool) : State := { s with t := b }
/-- C <- b. -/
def setC (s : State) (b : Bool) : State := { s with c := b }
/-- CMP <- v. -/
def setCmp (s : State) (v : Cmp) : State := { s with cmp := v }

/-! ### The list memory (10_state R35, R39; 20_memory R62, R63) -/

/-- LLEN, the number of valid entries (R35). -/
def llen (s : State) : Nat := s.list.length
/-- LLEN as the 32-bit word CSR 5 reads (R35). -/
def llenWord (s : State) : Word := BitVec.ofNat 32 s.llen
/-- LIST[k] for k < LLEN, none at LLEN and above, where no command can read (R39). -/
def entry (s : State) (k : Nat) : Option Subnet := s.list[k]?
/-- Put a new content in LIST[0..LLEN-1], setting LLEN. -/
def setList (s : State) (l : ListMem) : State := { s with list := l }
/-- Append entries at LIST[LLEN], LIST[LLEN+1], ..., raising LLEN by their number (44_merge R202, 45_decompose R240). -/
def appendEntries (s : State) (l : ListMem) : State := s.setList (s.list ++ l)
/-- PASSES <- v (R36). -/
def setPasses (s : State) (v : Word) : State := { s with passes := v }

/-! ### Ports -/

/-- Append words to the result stream (00_scope R17, 10_state R43). -/
def emit (s : State) (ws : List Word) : State := { s with res := s.res ++ ws }

/-- The words after a command's own stay in the command stream, and the decoder is at a command boundary (R43). -/
def takeWords (s : State) (rest : List Word) : State := { s with pending := [], cmd := rest }

/-- Every word presented is taken as part of a literal command whose payload is not complete (30_encoding R104). -/
def holdWords (s : State) : State := { s with pending := s.pending ++ s.cmd, cmd := [] }

/-- CMDCNT <- CMDCNT + 1 modulo 2^32: the command retires (10_state R37). -/
def retire (s : State) : State := { s with cmdcnt := s.cmdcnt + 1 }

end State

/-! ### Exceptions (60_exceptions R270 to R286) -/

/-- The eight exceptions (R270). -/
inductive Cause where
  /-- E_ILLEGAL (R271). -/
  | illegal
  /-- E_WIDTH (R272). -/
  | width
  /-- E_PREFIX (R273). -/
  | plen
  /-- E_FAMILY (R274). -/
  | family
  /-- E_UNDERFLOW (R275). -/
  | underflow
  /-- E_CAPACITY (R276). -/
  | capacity
  /-- E_INDEX (R277). -/
  | index
  /-- E_ORDER (R278). -/
  | order
  deriving DecidableEq, Repr

/-- The value written to CAUSE[7:0] (R270). -/
def Cause.code : Cause → BitVec 8
  | .illegal => 1
  | .width => 2
  | .plen => 3
  | .family => 4
  | .underflow => 5
  | .capacity => 6
  | .index => 7
  | .order => 8

/-- The class: every exception but E_ORDER is fatal (R270, R278). -/
def Cause.isFatal : Cause → Bool
  | .order => false
  | _ => true

/-- An exception to be raised: its cause and its info value (00_scope R17). -/
structure Exn where
  cause : Cause
  info  : Word
  deriving DecidableEq, Repr

namespace State

/-- Record an exception: CAUSE, EPC and EINFO, EPC being CMDCNT at the start of the command (R281, R283). -/
def record (s : State) (e : Exn) : State := { s with cause := e.cause.code, epc := s.cmdcnt, einfo := e.info }

/-- Fatal entry (R281): the record is overwritten, HALTED is set, the command does not retire. -/
def takeFatal (s : State) (e : Exn) : State := { s.record e with halted := true }

/-- Reportable entry (R283, R284): recorded only when RERR is clear; the command is abandoned and retires. -/
def takeReportable (s : State) (e : Exn) : State :=
  (if s.rerr then s else { s.record e with rerr := true }).retire

/-- Taking an exception, the one operation every command uses. It starts from the state before the command, so the
command has no other effect (R280). -/
def takeException (s : State) (e : Exn) : State :=
  if e.cause.isFatal then s.takeFatal e else s.takeReportable e

/-- The acknowledge of a reportable exception, the only return the unit has (R285, 46_system R261). -/
def acknowledge (s : State) : State := { s with rerr := false, cause := 0, epc := 0, einfo := 0 }

end State

/-- The outcome of a command that finds the exception `e` of its checks, if any, before any effect, and otherwise leaves
the state `t` and retires (60_exceptions R279, R280; 10_state R37). -/
def finish (e : Option Exn) (t s : State) : Host.Outcome State Fault Refusal :=
  match e with
  | some x => .next (s.takeException x)
  | none => .next t.retire

/-- The outcome of a command that raises nothing. -/
def complete (t : State) : Host.Outcome State Fault Refusal := .next t.retire

end Sys2Proof.Machine
end

