-- ==== Sys2Proof/Machine/Operands.lean ====
section
/-! DEFINITION. The checks a command makes on its operands before any effect, each answering the exception it raises,
if any. A command's checks stand in the order of 60_exceptions R279, joined by <|>: the first that applies is raised. -/

namespace Sys2Proof.Machine

/-- E_WIDTH: the fw field is neither 32 nor 128; EINFO = fw (R272). -/
def checkWidth (fw : Nat) : Option Exn :=
  if validWidth fw then none else some { cause := .width, info := BitVec.ofNat 32 fw }

/-- E_PREFIX: plen > fw; EINFO = plen (R273). -/
def checkPlen (plen fw : Nat) : Option Exn :=
  if plen ≤ fw then none else some { cause := .plen, info := BitVec.ofNat 32 plen }

/-- The checks of a ROM index: E_WIDTH, then E_PREFIX (41_masktable R151, R154). -/
def checkIndex (plen fw : Nat) : Option Exn := checkWidth fw <|> checkPlen plen fw

/-- E_FAMILY: fw = 32 and the W operand is 2^32 or more; EINFO = the number of the W register (R274). -/
def checkFamily (r : WReg) (fw : Nat) (s : State) : Option Exn :=
  if fw = 32 && !inFamily (s.getW r) 32 then some { cause := .family, info := BitVec.ofNat 32 r.val } else none

/-- E_WIDTH of an N source operand: its fw field is neither 32 nor 128, that is, the register is empty; EINFO = that
field (43_subnet R180, 10_state R24). -/
def checkSubnet (r : NReg) (s : State) : Option Exn := checkWidth (s.getN r).fw.toNat

/-- E_UNDERFLOW: the subtrahend is greater than the minuend; EINFO = 0 (R275). -/
def checkUnderflow (a b : Counter) : Option Exn :=
  if a < b then some { cause := .underflow, info := 0 } else none

/-- E_INDEX: idx >= LLEN; EINFO = idx (R277). -/
def checkEntry (idx : Nat) (s : State) : Option Exn :=
  if idx < s.llen then none else some { cause := .index, info := BitVec.ofNat 32 idx }

/-- E_ORDER: begin > end as unsigned 128-bit integers; EINFO = 0 (R278). -/
def checkOrder (b e : WideUint) : Option Exn :=
  if e < b then some { cause := .order, info := 0 } else none

/-- E_CAPACITY: appending count entries would exceed LIST_DEPTH; EINFO = LLEN at the start of the command
(R276, 45_decompose R253). -/
def checkCapacity (count : Nat) (s : State) : Option Exn :=
  if s.llen + count ≤ Config.listDepth then none else some { cause := .capacity, info := s.llenWord }

/-- The checks of DECOMP before the walk, in order: fw, begin's family, end's family, order (45_decompose R241). -/
def checkRange (rs1 rs2 : WReg) (fw : Nat) (s : State) : Option Exn :=
  checkWidth fw <|> checkFamily rs1 fw s <|> checkFamily rs2 fw s <|> checkOrder (s.getW rs1) (s.getW rs2)

end Sys2Proof.Machine
end

