-- ==== Sys2Proof/Machine/BlockSize.lean ====
section
/-! DEFINITION. The commands of the block-size counter unit (spec 42_blocksize R165 to R169). -/

namespace Sys2Proof.Machine

/-- ZSUB Zd, Za, Zb: exact subtraction, E_UNDERFLOW where it would go negative (R166). -/
def execZsub (rd rs1 rs2 : ZReg) (s : State) : Host.Outcome State Fault Refusal :=
  finish (checkUnderflow (s.getZ rs1) (s.getZ rs2)) (s.setZ rd (s.getZ rs1 - s.getZ rs2)) s

/-- ZISZ Za: T <- all 129 bits are zero (R167). -/
def execZisz (rs1 : ZReg) (s : State) : Host.Outcome State Fault Refusal :=
  complete (s.setT (s.getZ rs1 == 0))

/-- ZSETB Zd, Zs, #plen, #fw: set bit fw - plen, the bit the prefix length names from the top (R168). -/
def execZsetb (rd rs1 : ZReg) (plen fw : Nat) (s : State) : Host.Outcome State Fault Refusal :=
  finish (checkIndex plen fw) (s.setZ rd (s.getZ rs1 ||| maskSize plen fw)) s

/-- ZOUT Zs: emit a Z record (R169). -/
def execZout (rs1 : ZReg) (s : State) : Host.Outcome State Fault Refusal :=
  complete (s.emit (counterWords (s.getZ rs1)))

end Sys2Proof.Machine
end

