-- ==== Sys2Proof/Machine/SubnetUnit.lean ====
section
/-! DEFINITION. The functions on Subnets and the commands of the subnet checker (spec 43_subnet R180 to R191). -/

namespace Sys2Proof.Machine

/-- The mask address of a Subnet's own prefix length and family, by which its base is aligned (00_scope R11). -/
def Subnet.mask (x : Subnet) : WideUint := maskAddress x.plen.toNat x.fw.toNat

/-- A well-formed Subnet: fw is 32 or 128, plen <= fw, the base in the family and the network address (00_scope R11). -/
def Subnet.wellFormed (x : Subnet) : Bool :=
  romIndex x.plen.toNat x.fw.toNat && inFamily x.base x.fw.toNat && x.base &&& x.mask == x.base

/-- The last address a well-formed Subnet covers: base + 2^(fw-plen) - 1 (00_scope R11). -/
def Subnet.lastAddress (x : Subnet) : Nat := x.base.toNat + 2 ^ (x.fw.toNat - x.plen.toNat) - 1

/-- `a` is an address the Subnet covers (00_scope R11). -/
def Subnet.covers (x : Subnet) (a : Nat) : Bool := x.base.toNat ≤ a && a ≤ x.lastAddress

/-- `includes(outer, inner)` (R185): the inner prefix length does not enter the formula (R192, conflict C10). -/
def includes (o i : Subnet) : Bool := o.fw == i.fw && i.base &&& o.mask == o.base

/-- `lessThan(a, b)`, the canonical order: family width, then base, then prefix length (R186, 00_scope R12). -/
def lessThan (a b : Subnet) : Bool :=
  a.fw < b.fw || (a.fw == b.fw && a.base < b.base) || (a.fw == b.fw && a.base == b.base && a.plen < b.plen)

/-- `widen(s) -> (t, ok)`: one step less specific (R187). -/
def widen (x : Subnet) : Subnet × Bool :=
  if x.plen = 0 then (x, true)
  else
    let q := x.plen - 1
    if x.base &&& maskAddress q.toNat x.fw.toNat = x.base then ({ x with plen := q }, true) else (x, false)

/-- NMAKE Nd, Ws, #plen, #fw: the network address of Ws, T <- Ws was already aligned (R181). -/
def execNmake (rd : NReg) (rs1 : WReg) (plen fw : Nat) (s : State) : Host.Outcome State Fault Refusal :=
  let a := s.getW rs1
  let b := a &&& maskAddress plen fw
  finish (checkIndex plen fw <|> checkFamily rs1 fw s)
    ((s.setN rd { base := b, plen := BitVec.ofNat 8 plen, fw := BitVec.ofNat 8 fw }).setT (b == a)) s

/-- NBASE Wd, Ns: W[rd] <- the base (R182). -/
def execNbase (rd : WReg) (rs1 : NReg) (s : State) : Host.Outcome State Fault Refusal :=
  finish (checkSubnet rs1 s) (s.setW rd (s.getN rs1).base) s

/-- NMASK Wd, Ns: W[rd] <- the mask address (R183). -/
def execNmask (rd : WReg) (rs1 : NReg) (s : State) : Host.Outcome State Fault Refusal :=
  finish (checkSubnet rs1 s) (s.setW rd (s.getN rs1).mask) s

/-- NINCL Nouter, Ninner: T <- includes (R188). -/
def execNincl (rs1 rs2 : NReg) (s : State) : Host.Outcome State Fault Refusal :=
  finish (checkSubnet rs1 s <|> checkSubnet rs2 s) (s.setT (includes (s.getN rs1) (s.getN rs2))) s

/-- NLT Na, Nb: T <- lessThan (R191). -/
def execNlt (rs1 rs2 : NReg) (s : State) : Host.Outcome State Fault Refusal :=
  finish (checkSubnet rs1 s <|> checkSubnet rs2 s) (s.setT (lessThan (s.getN rs1) (s.getN rs2))) s

/-- NWIDEN Nd, Ns: N[rd] <- the widened Subnet where ok, unchanged where not; T <- ok (R189). -/
def execNwiden (rd rs1 : NReg) (s : State) : Host.Outcome State Fault Refusal :=
  let r := widen (s.getN rs1)
  finish (checkSubnet rs1 s) ((if r.2 then s.setN rd r.1 else s).setT r.2) s

/-- NOUT Ns: emit an N record (R190). -/
def execNout (rs1 : NReg) (s : State) : Host.Outcome State Fault Refusal :=
  finish (checkSubnet rs1 s) (s.emit (subnetWords (s.getN rs1))) s

end Sys2Proof.Machine
end

