-- ==== Sys2Proof/Machine/Decompose.lean ====
section
/-! DEFINITION. The range-decomposition walker and the command DECOMP (spec 45_decompose R240 to R254). -/

namespace Sys2Proof.Machine

/-- The block pushed at `cur` with prefix length `pl` in family `fw` (R249, R250). -/
def block (cur : WideUint) (pl fw : Nat) : Subnet :=
  { base := cur, plen := BitVec.ofNat 8 pl, fw := BitVec.ofNat 8 fw }

/-- The loop of R251: END and FW fixed, then the bound on the iterations, CUR, MSK and PL. It answers the blocks pushed
from here on, none when the bound runs out, which R251 excludes for the bound of `decompose`. -/
def walk (endA : WideUint) (fw : Nat) : Nat → WideUint → WideUint → Nat → Option ListMem
  | 0, _, _, _ => none
  | fuel + 1, cur, msk, pl =>
    let wid := shl1 msk
    let big := rangeEnd cur wid
    if cur &&& wid = cur ∧ big < endA then walk endA fw fuel cur wid (pl - 1)
    else if cur &&& wid = cur ∧ big = endA then some [block cur (pl - 1) fw]
    else if rangeEnd cur msk = endA then some [block cur pl fw]
    else (walk endA fw fuel (nextBegin cur msk) allOnes fw).map (block cur pl fw :: ·)

/-- `decomposeRange(begin, end, fw)` for begin <= end: the blocks in the order they are pushed (R240, R242, R243). Each
iteration narrows PL by one or moves CUR up, so the bound is never reached (R251). -/
def decompose (b e : WideUint) (fw : Nat) : Option ListMem :=
  if b = e then some [block b fw fw]
  else walk e fw ((e.toNat - b.toNat + 1) * (fw + 1)) b allOnes fw

/-- DECOMP Wb, We, #fw: the checks of R241, then the blocks of the range are appended to LIST, or E_CAPACITY with no
visible effect where they do not fit (R240, R253). -/
def execDecomp (rs1 rs2 : WReg) (fw : Nat) (s : State) : Host.Outcome State Fault Refusal :=
  match checkRange rs1 rs2 fw s with
  | some x => .next (s.takeException x)
  | none =>
    match decompose (s.getW rs1) (s.getW rs2) fw with
    | some blocks => finish (checkCapacity blocks.length s) (s.appendEntries blocks) s
    | none => .fault .engineDiverged

end Sys2Proof.Machine
end

