-- ==== Sys2Proof/Machine/ListUnit.lean ====
section
/-! DEFINITION. The list commands (spec 44_merge R200 to R204). -/

namespace Sys2Proof.Machine

/-- LCLR: LLEN <- 0; PASSES is kept (R201). -/
def execLclr (s : State) : Host.Outcome State Fault Refusal := complete (s.setList [])

/-- LPUSH Ns: append N[rs1], E_CAPACITY when the list is full (R202). -/
def execLpush (rs1 : NReg) (s : State) : Host.Outcome State Fault Refusal :=
  finish (checkSubnet rs1 s <|> checkCapacity 1 s) (s.appendEntries [s.getN rs1]) s

/-- LGET Nd, #idx: N[rd] <- LIST[idx], E_INDEX at LLEN and above (R203). The default is never read: the check comes
first. -/
def execLget (rd : NReg) (idx : Nat) (s : State) : Host.Outcome State Fault Refusal :=
  finish (checkEntry idx s) (s.setN rd ((s.entry idx).getD Subnet.empty)) s

/-- The LIST record: the word LLEN, then the N record of each valid entry in index order (R204, 30_encoding R107). -/
def State.listWords (s : State) : List Word := s.llenWord :: s.list.flatMap subnetWords

/-- LOUT: emit the whole list (R204). -/
def execLout (s : State) : Host.Outcome State Fault Refusal := complete (s.emit s.listWords)

end Sys2Proof.Machine
end

