-- ==== Sys2Proof/Machine/MaskTable.lean ====
section
/-! DEFINITION. The commands of the prefix-mask table (spec 41_masktable R151, R152). -/

namespace Sys2Proof.Machine

/-- MASKA Wd, #plen, #fw: W[rd] <- MASK(plen, fw).address (R151). -/
def execMaska (rd : WReg) (plen fw : Nat) (s : State) : Host.Outcome State Fault Refusal :=
  finish (checkIndex plen fw) (s.setW rd (maskAddress plen fw)) s

/-- MASKS Zd, #plen, #fw: Z[rd] <- MASK(plen, fw).size (R152). -/
def execMasks (rd : ZReg) (plen fw : Nat) (s : State) : Host.Outcome State Fault Refusal :=
  finish (checkIndex plen fw) (s.setZ rd (maskSize plen fw)) s

end Sys2Proof.Machine
end

