-- ==== Sys2Proof/Machine/Merge.lean ====
section
/-! DEFINITION. The merge engine as a function of the list, and the command MERGE (spec 44_merge R205 to R216). The same
engine as the pointer machine of R217 is in Machine/MergeEngine.lean. -/

namespace Sys2Proof.Machine

/-- Not out of canonical order: b is not less than a (R210). -/
abbrev inOrder (a b : Subnet) : Prop := lessThan b a = false

/-- Step 1, sort: a permutation ascending in the canonical order. The result is unique, so the algorithm (insertion
sort) is not observable (R210; log 11). -/
def sortList (l : ListMem) : ListMem := l.insertionSort inOrder

/-- The dedup scan with the last retained entry r: an entry it includes is dropped (R211). -/
def dedupScan (r : Subnet) : ListMem → ListMem
  | [] => [r]
  | x :: xs => if includes r x then dedupScan r xs else r :: dedupScan x xs

/-- Step 2, deduplicate (R211). -/
def dedupList : ListMem → ListMem
  | [] => []
  | x :: xs => dedupScan x xs

/-- The fuse condition of the retained entry r and the next entry x: widen(r) = (c, true), r.plen = x.plen,
includes(c, x) (R213). -/
def fuses (r x : Subnet) : Bool := (widen r).2 && r.plen == x.plen && includes (widen r).1 x

/-- The fuse scan with the retained entry r, which is replaced by its widening when it fuses and then tried against the
following entry (R212). -/
def fuseScan (r : Subnet) : ListMem → ListMem
  | [] => [r]
  | x :: xs => if fuses r x then fuseScan (widen r).1 xs else r :: fuseScan x xs

/-- Step 3, one fuse pass (R212). -/
def fusePass : ListMem → ListMem
  | [] => []
  | x :: xs => fuseScan x xs

/-- The fixpoint loop (R214): passes until one leaves the length unchanged, counting every pass. The first argument
bounds the passes still allowed; none when it runs out, which R215 excludes for the bound `passBound`. -/
def fuseLoop : Nat → ListMem → Nat → Option (ListMem × Nat)
  | 0, _, _ => none
  | fuel + 1, l, passes =>
    let l' := fusePass l
    if l'.length = l.length then some (l', passes + 1) else fuseLoop fuel l' (passes + 1)

/-- Termination (R215): a pass never lengthens the list, and the loop goes on only after a pass that shrank it, so with n
entries after the dedup scan it executes at most max(1, n) passes. -/
def passBound (n : Nat) : Nat := max 1 n

/-- `mergeAll`: sort, deduplicate, fuse to the fixpoint; the merged list and the number of passes (R205). The bound of
R215 is never exceeded: the answer is never none (`mergeList_isSome` in Laws/Merge.lean). -/
def mergeList (l : ListMem) : Option (ListMem × Nat) :=
  let d := dedupList (sortList l)
  fuseLoop (passBound d.length) d 0

/-- MERGE: LIST <- mergeAll(LIST), PASSES <- the number of fuse passes; nothing else changes (R205). -/
def execMerge (s : State) : Host.Outcome State Fault Refusal :=
  match mergeList s.list with
  | some (l, passes) => complete ((s.setList l).setPasses (BitVec.ofNat 32 passes))
  | none => .fault .engineDiverged

end Sys2Proof.Machine
end

