-- ==== Sys2Proof/WellFormed.lean ====
section
/-! DEFINITION. When a command can be encoded: every immediate fits its field (spec 30_encoding R91 to R98).
Register numbers are four-bit fields by their type. A family width other than 32 or 128, a prefix length above the
width and a reserved CSR number are encodable and raise their exception when executed (R92, 46_system R260), so they
are well formed. -/

namespace Sys2Proof

/-- The value fits an 8-bit unsigned field: plen, fw and max are used as integers 0..255 (R98). -/
def fitsImm8 (v : Nat) : Bool := v < 256

/-- The value fits the 16-bit unsigned field imm16, an integer 0..65535 (R98). -/
def fitsImm16 (v : Nat) : Bool := v < 65536

/-- Every immediate of the command fits its field. -/
def Instr.wellFormed : Instr → Bool
  | .wli _ _ => true
  | .wli4 _ _ => true
  | .wcmp _ _ => true
  | .wnot _ _ => true
  | .wand _ _ _ => true
  | .wshl _ _ => true
  | .wnext _ _ _ => true
  | .wrend _ _ _ => true
  | .wjump _ _ _ => true
  | .wcto _ _ max => fitsImm8 max
  | .wout _ => true
  | .maska _ plen fw => fitsImm8 plen && fitsImm8 fw
  | .masks _ plen fw => fitsImm8 plen && fitsImm8 fw
  | .zsub _ _ _ => true
  | .zisz _ => true
  | .zsetb _ _ plen fw => fitsImm8 plen && fitsImm8 fw
  | .zout _ => true
  | .nmake _ _ plen fw => fitsImm8 plen && fitsImm8 fw
  | .nbase _ _ => true
  | .nmask _ _ => true
  | .nincl _ _ => true
  | .nlt _ _ => true
  | .nwiden _ _ => true
  | .nout _ => true
  | .lclr => true
  | .lpush _ => true
  | .lget _ idx => fitsImm16 idx
  | .lout => true
  | .merge => true
  | .decomp _ _ fw => fitsImm8 fw
  | .csrout csr => fitsImm16 csr
  | .clrerr => true

end Sys2Proof
end

