-- ==== Sys2Proof/Decode.lean ====
section
/-! DEFINITION. The opcode map, the decoder and the encoder (spec 30_encoding R90 to R104). The decoder is total: on any
words it answers a command and the words after it, an illegal head word, or that the words end too early. -/

namespace Sys2Proof

/-- The rows of the opcode map (R100), by mnemonic. -/
inductive Op where
  | wli | wli4
  | wcmp | wnot | wand | wshl | wnext | wrend | wjump | wcto | wout
  | maska | masks
  | zsub | zisz | zsetb | zout
  | nmake | nbase | nmask | nincl | nlt | nwiden | nout
  | lclr | lpush | lget | lout
  | merge | decomp
  | csrout | clrerr
  deriving DecidableEq, Repr

/-- All rows, in the order of R100. -/
def opcodeMap : List Op :=
  [.wli, .wli4, .wcmp, .wnot, .wand, .wshl, .wnext, .wrend, .wjump, .wcto, .wout, .maska, .masks, .zsub, .zisz, .zsetb,
   .zout, .nmake, .nbase, .nmask, .nincl, .nlt, .nwiden, .nout, .lclr, .lpush, .lget, .lout, .merge, .decomp, .csrout, .clrerr]

/-- The "match" column of R100: the operation code in bits 31:24, every other bit zero. -/
def Op.matchWord : Op → Word
  | .wli => 0x01000000
  | .wli4 => 0x02000000
  | .wcmp => 0x10000000
  | .wnot => 0x11000000
  | .wand => 0x12000000
  | .wshl => 0x13000000
  | .wnext => 0x14000000
  | .wrend => 0x15000000
  | .wjump => 0x16000000
  | .wcto => 0x17000000
  | .wout => 0x18000000
  | .maska => 0x20000000
  | .masks => 0x21000000
  | .zsub => 0x28000000
  | .zisz => 0x29000000
  | .zsetb => 0x2A000000
  | .zout => 0x2B000000
  | .nmake => 0x30000000
  | .nbase => 0x31000000
  | .nmask => 0x32000000
  | .nincl => 0x33000000
  | .nlt => 0x34000000
  | .nwiden => 0x35000000
  | .nout => 0x36000000
  | .lclr => 0x40000000
  | .lpush => 0x41000000
  | .lget => 0x42000000
  | .lout => 0x43000000
  | .merge => 0x48000000
  | .decomp => 0x49000000
  | .csrout => 0x50000000
  | .clrerr => 0x51000000

/-- The "mask" column of R100; the bits set outside 31:24 are the must-be-zero bits (R101). -/
def Op.maskWord : Op → Word
  | .wli => 0xFF0FFFFF
  | .wli4 => 0xFF0FFFFF
  | .wcmp => 0xFFF00FFF
  | .wnot => 0xFF00FFFF
  | .wand => 0xFF000FFF
  | .wshl => 0xFF00FFFF
  | .wnext => 0xFF000FFF
  | .wrend => 0xFF000FFF
  | .wjump => 0xFF000FFF
  | .wcto => 0xFF0000FF
  | .wout => 0xFFF0FFFF
  | .maska => 0xFF0F0000
  | .masks => 0xFF0F0000
  | .zsub => 0xFF000FFF
  | .zisz => 0xFFF0FFFF
  | .zsetb => 0xFF000000
  | .zout => 0xFFF0FFFF
  | .nmake => 0xFF000000
  | .nbase => 0xFF00FFFF
  | .nmask => 0xFF00FFFF
  | .nincl => 0xFFF00FFF
  | .nlt => 0xFFF00FFF
  | .nwiden => 0xFF00FFFF
  | .nout => 0xFFF0FFFF
  | .lclr => 0xFFFFFFFF
  | .lpush => 0xFFF0FFFF
  | .lget => 0xFF0F0000
  | .lout => 0xFFFFFFFF
  | .merge => 0xFFFFFFFF
  | .decomp => 0xFFF00F00
  | .csrout => 0xFFFF0000
  | .clrerr => 0xFFFFFFFF

/-- How many payload words follow the head word: 4 for WLI, 1 for WLI4, none otherwise (R90). -/
def Op.payloadWords : Op → Nat
  | .wli => 4
  | .wli4 => 1
  | _ => 0

/-- A head word selects the row with (h AND mask) == match (R100). -/
def Op.selectedBy (h : Word) (o : Op) : Bool := h &&& o.maskWord == o.matchWord

/-- The row a head word selects, none for an illegal head word (R100, R102). -/
def findOp (h : Word) : Option Op := opcodeMap.find? (Op.selectedBy h)

/-! ### Fields of the head word (R91 to R98) -/

/-- Bits 31:24, the operation code. -/
def fieldOp (h : Word) : BitVec 8 := h.extractLsb' 24 8
/-- Bits 23:20, a register number. -/
def fieldRd (h : Word) : Fin 16 := (h.extractLsb' 20 4).toFin
/-- Bits 19:16, a register number. -/
def fieldRs1 (h : Word) : Fin 16 := (h.extractLsb' 16 4).toFin
/-- Bits 15:12, a register number. -/
def fieldRs2 (h : Word) : Fin 16 := (h.extractLsb' 12 4).toFin
/-- Bits 15:8 as an integer: plen of format P, max of format M (R98). -/
def fieldHi8 (h : Word) : Nat := (h.extractLsb' 8 8).toNat
/-- Bits 7:0 as an integer: fw of formats P and D (R98). -/
def fieldLo8 (h : Word) : Nat := (h.extractLsb' 0 8).toNat
/-- Bits 15:0 as an integer: imm16 of format I (R98). -/
def fieldImm16 (h : Word) : Nat := (h.extractLsb' 0 16).toNat

/-- The WLI literal: p1 = bits 127:96, ..., p4 = bits 31:0 (R99, 20_memory R61). -/
def literal128 (p1 p2 p3 p4 : Word) : WideUint := p1 ++ p2 ++ p3 ++ p4

/-- The command of a row, its operands taken from the head word's fields and the payload words (R98, R99). -/
def Op.command (o : Op) (h : Word) (payload : List Word) : Instr :=
  match o with
  | .wli => .wli (fieldRd h) (literal128 (payload.getD 0 0) (payload.getD 1 0) (payload.getD 2 0) (payload.getD 3 0))
  | .wli4 => .wli4 (fieldRd h) (payload.getD 0 0)
  | .wcmp => .wcmp (fieldRs1 h) (fieldRs2 h)
  | .wnot => .wnot (fieldRd h) (fieldRs1 h)
  | .wand => .wand (fieldRd h) (fieldRs1 h) (fieldRs2 h)
  | .wshl => .wshl (fieldRd h) (fieldRs1 h)
  | .wnext => .wnext (fieldRd h) (fieldRs1 h) (fieldRs2 h)
  | .wrend => .wrend (fieldRd h) (fieldRs1 h) (fieldRs2 h)
  | .wjump => .wjump (fieldRd h) (fieldRs1 h) (fieldRs2 h)
  | .wcto => .wcto (fieldRd h) (fieldRs1 h) (fieldHi8 h)
  | .wout => .wout (fieldRs1 h)
  | .maska => .maska (fieldRd h) (fieldHi8 h) (fieldLo8 h)
  | .masks => .masks (fieldRd h) (fieldHi8 h) (fieldLo8 h)
  | .zsub => .zsub (fieldRd h) (fieldRs1 h) (fieldRs2 h)
  | .zisz => .zisz (fieldRs1 h)
  | .zsetb => .zsetb (fieldRd h) (fieldRs1 h) (fieldHi8 h) (fieldLo8 h)
  | .zout => .zout (fieldRs1 h)
  | .nmake => .nmake (fieldRd h) (fieldRs1 h) (fieldHi8 h) (fieldLo8 h)
  | .nbase => .nbase (fieldRd h) (fieldRs1 h)
  | .nmask => .nmask (fieldRd h) (fieldRs1 h)
  | .nincl => .nincl (fieldRs1 h) (fieldRs2 h)
  | .nlt => .nlt (fieldRs1 h) (fieldRs2 h)
  | .nwiden => .nwiden (fieldRd h) (fieldRs1 h)
  | .nout => .nout (fieldRs1 h)
  | .lclr => .lclr
  | .lpush => .lpush (fieldRs1 h)
  | .lget => .lget (fieldRd h) (fieldImm16 h)
  | .lout => .lout
  | .merge => .merge
  | .decomp => .decomp (fieldRs1 h) (fieldRs2 h) (fieldLo8 h)
  | .csrout => .csrout (fieldImm16 h)
  | .clrerr => .clrerr

/-- What the decoder reads from the words at a command boundary (R104). -/
inductive Decoded where
  /-- A whole command, and the words after it. -/
  | command (i : Instr) (rest : List Word)
  /-- A head word that matches no row: no further word is taken. -/
  | illegal (head : Word) (rest : List Word)
  /-- No word, or a literal command whose payload is not complete: the unit waits. -/
  | incomplete
  deriving DecidableEq, Repr

/-- The decoding procedure (R104): payload words are data and are never checked (R96, R102). -/
def decode : List Word → Decoded
  | [] => .incomplete
  | h :: rest =>
    match findOp h with
    | none => .illegal h rest
    | some o =>
      if rest.length < o.payloadWords then .incomplete
      else .command (o.command h rest) (rest.drop o.payloadWords)

/-! ### Encoder (R91 to R96, R100) -/

/-- A head word with the fields op, rd, rs1, rs2 and bits 11:0 (format R, R91). -/
def headR (op : BitVec 8) (rd rs1 rs2 : Fin 16) : Word :=
  op ++ BitVec.ofFin (w := 4) rd ++ BitVec.ofFin (w := 4) rs1 ++ BitVec.ofFin (w := 4) rs2 ++ (0 : BitVec 12)

/-- A head word of format P (R92). -/
def headP (op : BitVec 8) (rd rs1 : Fin 16) (plen fw : Nat) : Word :=
  op ++ BitVec.ofFin (w := 4) rd ++ BitVec.ofFin (w := 4) rs1 ++ BitVec.ofNat 8 plen ++ BitVec.ofNat 8 fw

/-- A head word of format M (R93). -/
def headM (op : BitVec 8) (rd rs1 : Fin 16) (max : Nat) : Word :=
  op ++ BitVec.ofFin (w := 4) rd ++ BitVec.ofFin (w := 4) rs1 ++ BitVec.ofNat 8 max ++ (0 : BitVec 8)

/-- A head word of format I (R94). -/
def headI (op : BitVec 8) (rd : Fin 16) (imm16 : Nat) : Word :=
  op ++ BitVec.ofFin (w := 4) rd ++ (0 : BitVec 4) ++ BitVec.ofNat 16 imm16

/-- A head word of format D (R95). -/
def headD (op : BitVec 8) (rs1 rs2 : Fin 16) (fw : Nat) : Word :=
  op ++ (0 : BitVec 4) ++ BitVec.ofFin (w := 4) rs1 ++ BitVec.ofFin (w := 4) rs2 ++ (0 : BitVec 4) ++ BitVec.ofNat 8 fw

/-- The head word of a command (R100). -/
def headWord : Instr → Word
  | .wli rd _ => headR 0x01 rd 0 0
  | .wli4 rd _ => headR 0x02 rd 0 0
  | .wcmp rs1 rs2 => headR 0x10 0 rs1 rs2
  | .wnot rd rs1 => headR 0x11 rd rs1 0
  | .wand rd rs1 rs2 => headR 0x12 rd rs1 rs2
  | .wshl rd rs1 => headR 0x13 rd rs1 0
  | .wnext rd rs1 rs2 => headR 0x14 rd rs1 rs2
  | .wrend rd rs1 rs2 => headR 0x15 rd rs1 rs2
  | .wjump rd rs1 rs2 => headR 0x16 rd rs1 rs2
  | .wcto rd rs1 max => headM 0x17 rd rs1 max
  | .wout rs1 => headR 0x18 0 rs1 0
  | .maska rd plen fw => headP 0x20 rd 0 plen fw
  | .masks rd plen fw => headP 0x21 rd 0 plen fw
  | .zsub rd rs1 rs2 => headR 0x28 rd rs1 rs2
  | .zisz rs1 => headR 0x29 0 rs1 0
  | .zsetb rd rs1 plen fw => headP 0x2A rd rs1 plen fw
  | .zout rs1 => headR 0x2B 0 rs1 0
  | .nmake rd rs1 plen fw => headP 0x30 rd rs1 plen fw
  | .nbase rd rs1 => headR 0x31 rd rs1 0
  | .nmask rd rs1 => headR 0x32 rd rs1 0
  | .nincl rs1 rs2 => headR 0x33 0 rs1 rs2
  | .nlt rs1 rs2 => headR 0x34 0 rs1 rs2
  | .nwiden rd rs1 => headR 0x35 rd rs1 0
  | .nout rs1 => headR 0x36 0 rs1 0
  | .lclr => headR 0x40 0 0 0
  | .lpush rs1 => headR 0x41 0 rs1 0
  | .lget rd idx => headI 0x42 rd idx
  | .lout => headR 0x43 0 0 0
  | .merge => headR 0x48 0 0 0
  | .decomp rs1 rs2 fw => headD 0x49 rs1 rs2 fw
  | .csrout csr => headI 0x50 0 csr
  | .clrerr => headR 0x51 0 0 0

/-- The payload words of a command (R96, R99). -/
def payload : Instr → List Word
  | .wli _ v => [v.extractLsb' 96 32, v.extractLsb' 64 32, v.extractLsb' 32 32, v.extractLsb' 0 32]
  | .wli4 _ v => [v]
  | _ => []

/-- The words of a command, head word first. -/
def encode (i : Instr) : List Word := headWord i :: payload i

/-! ### The host's numbering of an instruction's bits -/

/-- The five 32-bit words (the longest command's) of an instruction whose bits are w, numbered as
spec/opcode_table.json numbers them; every bit at nbits and above is zero. -/
def tableWords (nbits w : Nat) : List Word :=
  [0, 1, 2, 3, 4].map fun k => BitVec.ofNat 32 ((w % 2 ^ nbits) / 2 ^ (32 * k))

/-- The words of that instruction alone: its head word and the payload words its row takes. -/
def commandWords (nbits w : Nat) : List Word :=
  match tableWords nbits w with
  | [] => []
  | h :: rest => h :: rest.take (((findOp h).map Op.payloadWords).getD 0)

/-- The instruction the decoder reads from an instruction whose bits are w; none where it refuses. -/
def decodeTableWord (nbits w : Nat) : Option Instr :=
  match decode (tableWords nbits w) with
  | .command i _ => some i
  | .illegal _ _ => none
  | .incomplete => none

end Sys2Proof
end

