-- ==== Sys2Proof/Machine/Flags.lean ====
section
/-! DEFINITION. The flag fields as bits and the read views of the control and status registers
(spec 10_state R27 to R38, 46_system R260). Which command writes which flag is in the meanings (R28). -/

namespace Sys2Proof.Machine

/-- CMP as a two-bit two's-complement number: 0b11, 0b00, 0b01 (R27). -/
def Cmp.bits : Cmp → BitVec 2
  | .less => 0b11
  | .equal => 0b00
  | .greater => 0b01

/-- The source's `compare` value: sext(CMP), one of -1, 0, 1 (R27). -/
def Cmp.value : Cmp → Int
  | .less => -1
  | .equal => 0
  | .greater => 1

namespace State

/-- The FLAGS word (CSR 4): bit 0 = T, bit 1 = C, bits 3:2 = CMP, the rest 0 (R27, R34). -/
def flagsWord (s : State) : Word :=
  (0 : BitVec 28) ++ s.cmp.bits ++ BitVec.ofBool s.c ++ BitVec.ofBool s.t

/-- The STATUS word (CSR 0): bit 0 = HALTED, bit 1 = RERR, the rest 0 (R30). -/
def statusWord (s : State) : Word :=
  (0 : BitVec 30) ++ BitVec.ofBool s.rerr ++ BitVec.ofBool s.halted

/-- The CAUSE word (CSR 1): bits 31:8 read as 0 (R31). -/
def causeWord (s : State) : Word := (0 : BitVec 24) ++ s.cause

/-- The value CSROUT #n emits, none for a reserved number (R29, 46_system R260). -/
def csr (s : State) : Nat → Option Word
  | 0 => some s.statusWord
  | 1 => some s.causeWord
  | 2 => some s.epc
  | 3 => some s.einfo
  | 4 => some s.flagsWord
  | 5 => some s.llenWord
  | 6 => some s.passes
  | 7 => some s.cmdcnt
  | 8 => some (BitVec.ofNat 32 Config.listDepth)
  | _ => none

end State

end Sys2Proof.Machine
end

