-- ==== Sys2Proof/Machine/System.lean ====
section
/-! DEFINITION. The system commands CSROUT and CLRERR (spec 46_system R260, R261). -/

namespace Sys2Proof.Machine

/-- CSROUT #csr: emit one control and status register; E_ILLEGAL with EINFO = the head word for a reserved number. The
head word of the command is the one it encodes to (R260, 60_exceptions R271; log 12). -/
def execCsrout (csr : Nat) (s : State) : Host.Outcome State Fault Refusal :=
  match s.csr csr with
  | some v => complete (s.emit [v])
  | none => .next (s.takeException { cause := .illegal, info := headWord (.csrout csr) })

/-- CLRERR: acknowledge a reportable exception (R261, 60_exceptions R285). -/
def execClrerr (s : State) : Host.Outcome State Fault Refusal := complete s.acknowledge

end Sys2Proof.Machine
end

