-- ==== Sys2Proof/Machine/WideUnit.lean ====
section
/-! DEFINITION. The commands of the wide-integer unit (spec 40_wideuint R120 to R132). They raise no exception: every
128-bit value is a valid operand. Sources are read in the state before the command (R120). -/

namespace Sys2Proof.Machine

/-- WLI Wd, literal128: W[rd] <- the literal (R121). -/
def execWli (rd : WReg) (literal : WideUint) (s : State) : Host.Outcome State Fault Refusal :=
  complete (s.setW rd literal)

/-- WLI4 Wd, literal32: W[rd] <- the literal zero-extended (R122). -/
def execWli4 (rd : WReg) (literal : Word) (s : State) : Host.Outcome State Fault Refusal :=
  complete (s.setW rd (literal.zeroExtend 128))

/-- WCMP Wa, Wb: CMP <- compare(a, b) (R123). -/
def execWcmp (rs1 rs2 : WReg) (s : State) : Host.Outcome State Fault Refusal :=
  complete (s.setCmp (compareWide (s.getW rs1) (s.getW rs2)))

/-- WNOT Wd, Ws: complement over the full 128 bits (R124). -/
def execWnot (rd rs1 : WReg) (s : State) : Host.Outcome State Fault Refusal :=
  complete (s.setW rd (~~~s.getW rs1))

/-- WAND Wd, Wa, Wb: bitwise AND (R125). -/
def execWand (rd rs1 rs2 : WReg) (s : State) : Host.Outcome State Fault Refusal :=
  complete (s.setW rd (s.getW rs1 &&& s.getW rs2))

/-- WSHL Wd, Ws: shift left by one, C <- the bit shifted out (R127). -/
def execWshl (rd rs1 : WReg) (s : State) : Host.Outcome State Fault Refusal :=
  complete ((s.setW rd (shl1 (s.getW rs1))).setC (shiftedOut (s.getW rs1)))

/-- WNEXT Wd, Wv, Wm: first address past the block, C <- the carry out of bit 127 (R129). -/
def execWnext (rd rs1 rs2 : WReg) (s : State) : Host.Outcome State Fault Refusal :=
  complete ((s.setW rd (nextBegin (s.getW rs1) (s.getW rs2))).setC (nextCarry (s.getW rs1) (s.getW rs2)))

/-- WREND Wd, Wv, Wm: last address of the block (R128). -/
def execWrend (rd rs1 rs2 : WReg) (s : State) : Host.Outcome State Fault Refusal :=
  complete (s.setW rd (rangeEnd (s.getW rs1) (s.getW rs2)))

/-- WJUMP Wd, Wv, Wm: the same increment as WNEXT (R130). -/
def execWjump (rd rs1 rs2 : WReg) (s : State) : Host.Outcome State Fault Refusal :=
  complete ((s.setW rd (nextBegin (s.getW rs1) (s.getW rs2))).setC (nextCarry (s.getW rs1) (s.getW rs2)))

/-- WCTO Wd, Ws, #max: min(trailing ones, max) as a number (R131). -/
def execWcto (rd rs1 : WReg) (max : Nat) (s : State) : Host.Outcome State Fault Refusal :=
  complete (s.setW rd (BitVec.ofNat 128 (min (countTrailingOnes (s.getW rs1)) max)))

/-- WOUT Ws: emit a W record (R132). -/
def execWout (rs1 : WReg) (s : State) : Host.Outcome State Fault Refusal :=
  complete (s.emit (wideWords (s.getW rs1)))

end Sys2Proof.Machine
end

