-- ==== Sys2Proof/Machine/Dispatch.lean ====
section
/-! DEFINITION. The dispatch: one arm per command, each one call of its meaning. -/

namespace Sys2Proof.Machine

/-- The meaning of a command in the state in which its words have been taken. -/
def exec (i : Instr) (s : State) : Host.Outcome State Fault Refusal :=
  match i with
  | .wli rd literal => Sys2Proof.Machine.execWli rd literal s
  | .wli4 rd literal => Sys2Proof.Machine.execWli4 rd literal s
  | .wcmp rs1 rs2 => Sys2Proof.Machine.execWcmp rs1 rs2 s
  | .wnot rd rs1 => Sys2Proof.Machine.execWnot rd rs1 s
  | .wand rd rs1 rs2 => Sys2Proof.Machine.execWand rd rs1 rs2 s
  | .wshl rd rs1 => Sys2Proof.Machine.execWshl rd rs1 s
  | .wnext rd rs1 rs2 => Sys2Proof.Machine.execWnext rd rs1 rs2 s
  | .wrend rd rs1 rs2 => Sys2Proof.Machine.execWrend rd rs1 rs2 s
  | .wjump rd rs1 rs2 => Sys2Proof.Machine.execWjump rd rs1 rs2 s
  | .wcto rd rs1 max => Sys2Proof.Machine.execWcto rd rs1 max s
  | .wout rs1 => Sys2Proof.Machine.execWout rs1 s
  | .maska rd plen fw => Sys2Proof.Machine.execMaska rd plen fw s
  | .masks rd plen fw => Sys2Proof.Machine.execMasks rd plen fw s
  | .zsub rd rs1 rs2 => Sys2Proof.Machine.execZsub rd rs1 rs2 s
  | .zisz rs1 => Sys2Proof.Machine.execZisz rs1 s
  | .zsetb rd rs1 plen fw => Sys2Proof.Machine.execZsetb rd rs1 plen fw s
  | .zout rs1 => Sys2Proof.Machine.execZout rs1 s
  | .nmake rd rs1 plen fw => Sys2Proof.Machine.execNmake rd rs1 plen fw s
  | .nbase rd rs1 => Sys2Proof.Machine.execNbase rd rs1 s
  | .nmask rd rs1 => Sys2Proof.Machine.execNmask rd rs1 s
  | .nincl rs1 rs2 => Sys2Proof.Machine.execNincl rs1 rs2 s
  | .nlt rs1 rs2 => Sys2Proof.Machine.execNlt rs1 rs2 s
  | .nwiden rd rs1 => Sys2Proof.Machine.execNwiden rd rs1 s
  | .nout rs1 => Sys2Proof.Machine.execNout rs1 s
  | .lclr => Sys2Proof.Machine.execLclr s
  | .lpush rs1 => Sys2Proof.Machine.execLpush rs1 s
  | .lget rd idx => Sys2Proof.Machine.execLget rd idx s
  | .lout => Sys2Proof.Machine.execLout s
  | .merge => Sys2Proof.Machine.execMerge s
  | .decomp rs1 rs2 fw => Sys2Proof.Machine.execDecomp rs1 rs2 fw s
  | .csrout csr => Sys2Proof.Machine.execCsrout csr s
  | .clrerr => Sys2Proof.Machine.execClrerr s

end Sys2Proof.Machine
end

