-- ==== Sys2Proof/Machine/Fetch.lean ====
section
/-! DEFINITION. Taking command words from the command port (spec 30_encoding R104, 20_memory R70, 70_reset_and_hazards
R325), and the placing of a command's words at the port. -/

namespace Sys2Proof.Machine

namespace State

/-- What the decoder reads next: the words it has taken of an unfinished literal command, then the words presented. -/
def fetch (s : State) : Decoded := decode (s.pending ++ s.cmd)

/-- A head word that matches no row raises E_ILLEGAL with EINFO = the head word; no further word is taken
(R102, R104, 60_exceptions R271). -/
def rejectHead (s : State) (h : Word) : State := s.takeException { cause := .illegal, info := h }

/-- The words of a command stand next on the command port, before the words presented so far, and the unit is at a
command boundary and not halted, so that it takes them next (log 6). -/
def presentNext (s : State) (ws : List Word) : State := { s with halted := false, pending := [], cmd := ws ++ s.cmd }

end State

end Sys2Proof.Machine
end

