-- ==== Sys2Proof/Machine/Step.lean ====
section
/-! DEFINITION. One step: from command to command (spec 70_reset_and_hazards R330). -/

namespace Sys2Proof.Machine

/-- One command (20_memory R70). A halted unit changes no state (60_exceptions R282). A whole command is taken from the
port and executed; an illegal head word is taken and raises E_ILLEGAL; where no word is presented, or a literal's payload
is not complete, the unit takes what there is and waits (30_encoding R104, 70_reset_and_hazards R325; log 6). -/
def step (s : State) : Host.Outcome State Fault Refusal :=
  if s.halted then .next s
  else
    match s.fetch with
    | .command i rest => exec i (s.takeWords rest)
    | .illegal h rest => .next ((s.takeWords rest).rejectHead h)
    | .incomplete => .next s.holdWords

/-- The state with the command whose bits are w placed where the step takes its next words: next on the command port
(log 6). -/
def State.withFetchWord (s : State) (nbits w : Nat) : State := s.presentNext (commandWords nbits w)

end Sys2Proof.Machine
end

