-- ==== Sys2Proof/Machine/MergeEngine.lean ====
section
/-! DEFINITION. The merge engine as the state machine of spec 44_merge R217, over the hidden registers of 10_state R42,
with LIST as a memory of entries addressed by the read and write pointers. One `tick` is one row of the table of R217.
MERGE runs it inside one command; nothing of it is observable between commands (R217; log 3). -/

namespace Sys2Proof.Machine

/-- The hidden register PHASE (10_state R42). -/
inductive Phase where
  | idle | sort | dedup | fuse
  deriving DecidableEq, Repr

/-- The merge engine inside a MERGE command: PHASE, the pointers RP and WP, N0, and LIST, LLEN, PASSES as the command
changes them (10_state R42). `mem` holds the entries in index order. -/
structure MergeEngine where
  phase  : Phase
  mem    : List Subnet
  llen   : Nat
  rp     : Nat
  wp     : Nat
  n0     : Nat
  passes : Nat
  deriving DecidableEq, Repr

namespace MergeEngine

/-- LIST[k]; the default is never read: the pointers stay below LLEN. -/
def entry (e : MergeEngine) (k : Nat) : Subnet := e.mem.getD k Subnet.empty

/-- MERGE accepted: PASSES <- 0, PHASE <- SORT (R217, row IDLE). The row loads no pointer: what RP, WP and N0 hold while
PHASE = SORT the spec leaves unspecified (10_state R42; 93 row 11: any value), so they are arguments, any values at all.
DESIGN CHOICE, safe: nothing is chosen for them, and each is loaded before it is read (log 3). -/
def accept (l : ListMem) (rp wp n0 : Nat) : MergeEngine :=
  { phase := .sort, mem := l, llen := l.length, rp := rp, wp := wp, n0 := n0, passes := 0 }

/-- Enter a fuse pass: N0 <- LLEN, WP <- 0, RP <- 1 (R217). -/
def enterFuse (e : MergeEngine) : MergeEngine := { e with phase := .fuse, n0 := e.llen, wp := 0, rp := 1 }

/-- Row SORT: LIST[0..LLEN-1] into canonical order (R217, R210). -/
def tickSort (e : MergeEngine) : MergeEngine :=
  { e with mem := sortList (e.mem.take e.llen) ++ e.mem.drop e.llen, phase := .dedup, wp := 0, rp := 1 }

/-- Rows DEDUP (R217, R211). -/
def tickDedup (e : MergeEngine) : MergeEngine :=
  if e.rp < e.llen then
    let x := e.entry e.rp
    if includes (e.entry e.wp) x then { e with rp := e.rp + 1 }
    else { e with mem := e.mem.set (e.wp + 1) x, wp := e.wp + 1, rp := e.rp + 1 }
  else
    let llen := if 1 ≤ e.llen then e.wp + 1 else e.llen
    { e with llen := llen }.enterFuse

/-- Rows FUSE (R217, R212, R214). -/
def tickFuse (e : MergeEngine) : MergeEngine :=
  if e.rp < e.n0 then
    let x := e.entry e.rp
    let r := e.entry e.wp
    if fuses r x then { e with mem := e.mem.set e.wp (widen r).1, rp := e.rp + 1 }
    else { e with mem := e.mem.set (e.wp + 1) x, wp := e.wp + 1, rp := e.rp + 1 }
  else
    let llen := if 1 ≤ e.n0 then e.wp + 1 else e.llen
    let e' := { e with llen := llen, passes := e.passes + 1 }
    if llen = e.n0 then { e' with phase := .idle } else e'.enterFuse

/-- One row of the table of R217. IDLE waits for the next MERGE. -/
def tick (e : MergeEngine) : MergeEngine :=
  match e.phase with
  | .idle => e
  | .sort => e.tickSort
  | .dedup => e.tickDedup
  | .fuse => e.tickFuse

/-- k rows. -/
def ticks : Nat → MergeEngine → MergeEngine
  | 0, e => e
  | k + 1, e => ticks k e.tick

/-- What the engine leaves in LIST[0..LLEN-1] and PASSES. -/
def result (e : MergeEngine) : ListMem × Nat := (e.mem.take e.llen, e.passes)

end MergeEngine

end Sys2Proof.Machine
end

