-- ==== Sys2Proof/Machine/HostPort.lean ====
section
/-! DEFINITION. What the host can do to the unit and see of it (spec 10_state R43, 20_memory R72, 70_reset_and_hazards
R310, R311, R325): it presents words, asserts reset, reads the side-band outputs, and tells how a run ended. These are
functions on the state, not steps (log 9). -/

namespace Sys2Proof.Machine

/-- The side-band outputs of R72, which mirror the registers continuously. -/
structure SideBand where
  halted : Bool
  rerr   : Bool
  cause  : BitVec 8
  epc    : Word
  einfo  : Word
  deriving DecidableEq, Repr

namespace State

/-- The host presents further command words (R43). -/
def present (s : State) (ws : List Word) : State := { s with cmd := s.cmd ++ ws }

/-- `rst` asserted and released: every field at its reset value; the words not yet taken stay on the host's side
(R43, R310, R311; log 9). -/
def assertReset (s : State) : State := { reset with cmd := s.cmd }

/-- The side-band outputs (R72). -/
def sideBand (s : State) : SideBand :=
  { halted := s.halted, rerr := s.rerr, cause := s.cause, epc := s.epc, einfo := s.einfo }

end State

/-- The three ends of a run (R325). -/
inductive RunEnd where
  /-- Every word has been consumed and the last command retired; the unit waits for further words. -/
  | done
  /-- A fatal exception occurred; words after the faulting command are never consumed. -/
  | halted
  /-- The words ended inside a literal command; the unit waits for ever for the missing words. -/
  | stuck
  deriving DecidableEq, Repr

/-- How a run has ended, none while a word presented is still to be taken by a unit that is not halted (R325). -/
def State.runEnd (s : State) : Option RunEnd :=
  if s.halted then some .halted
  else if s.cmd ≠ [] then none
  else if s.pending ≠ [] then some .stuck
  else some .done

end Sys2Proof.Machine
end

