-- ==== Sys2Proof/Safety.lean ====
section
/-! DEFINITION. What claims about the unit are stated in: the invariant of every command boundary (spec 10_state R25 and
the ranges of R31 to R36), the parts of the state a command leaves alone, and what taking an exception leaves. -/

namespace Sys2Proof.Machine

/-! ### The invariant -/

/-- An N register holds the reset value or a well-formed Subnet (10_state R25). -/
def Subnet.isEmptyOrWellFormed (x : Subnet) : Bool := x == Subnet.empty || x.wellFormed

/-- LIST holds at most LIST_DEPTH entries, each a well-formed Subnet (10_state R25, R35, 44_merge R200). The list of the
valid entries in index order is the one form of the memory: two equal memories are equal lists. -/
def ListMem.wf (l : ListMem) : Bool := decide (l.length ≤ Config.listDepth) && l.all Subnet.wellFormed

/-- The words held by the decoder are none, or a literal command's head word with fewer payload words than it takes
(30_encoding R104). -/
def pendingOk : List Word → Bool
  | [] => true
  | h :: rest =>
    match findOp h with
    | some o => decide (rest.length < o.payloadWords)
    | none => false

/-- The exception record agrees with STATUS: halted, a fatal code 1..7; not halted with RERR set, E_ORDER with EINFO 0;
neither, nothing recorded (60_exceptions R270, R281, R283, R285; 10_state R31 to R33). -/
def State.recordOk (s : State) : Bool :=
  if s.halted then decide (1 ≤ s.cause.toNat) && decide (s.cause.toNat ≤ 7)
  else if s.rerr then s.cause == 8 && s.einfo == 0
  else s.cause == 0 && s.epc == 0 && s.einfo == 0

/-- The invariant of every command boundary. -/
structure State.Inv (s : State) : Prop where
  /-- Every N register is empty or well formed (R25). -/
  regs : ∀ r, (s.getN r).isEmptyOrWellFormed
  /-- The list memory keeps its form (R25, R35). -/
  list : s.list.wf
  /-- The exception record agrees with STATUS. -/
  record : s.recordOk
  /-- PASSES never exceeds LIST_DEPTH (44_merge R215: at most max(1, n) passes). -/
  passes : s.passes.toNat ≤ Config.listDepth
  /-- The decoder is at a boundary or inside a literal command. -/
  pending : pendingOk s.pending
  /-- A halted unit is at a command boundary. -/
  boundary : s.halted = true → s.pending = []

/-- A safe outcome: a next state that keeps the invariant; no fault, no refusal. -/
def safeOutcome (o : Host.Outcome State Fault Refusal) : Prop := ∃ t, o = .next t ∧ t.Inv

/-! ### Parts of the state -/

namespace State

/-- Every W register but `rd` reads as before. -/
def sameWBut (rd : WReg) (s t : State) : Prop := ∀ r, r ≠ rd → t.getW r = s.getW r
/-- Every Z register but `rd` reads as before. -/
def sameZBut (rd : ZReg) (s t : State) : Prop := ∀ r, r ≠ rd → t.getZ r = s.getZ r
/-- Every N register but `rd` reads as before. -/
def sameNBut (rd : NReg) (s t : State) : Prop := ∀ r, r ≠ rd → t.getN r = s.getN r
/-- Every W register reads as before. -/
def sameW (s t : State) : Prop := ∀ r, t.getW r = s.getW r
/-- Every Z register reads as before. -/
def sameZ (s t : State) : Prop := ∀ r, t.getZ r = s.getZ r
/-- Every N register reads as before. -/
def sameN (s t : State) : Prop := ∀ r, t.getN r = s.getN r
/-- All three flags are unchanged. -/
def sameFlags (s t : State) : Prop := t.t = s.t ∧ t.c = s.c ∧ t.cmp = s.cmp
/-- STATUS, CAUSE, EPC and EINFO are unchanged. -/
def sameRecord (s t : State) : Prop :=
  t.halted = s.halted ∧ t.rerr = s.rerr ∧ t.cause = s.cause ∧ t.epc = s.epc ∧ t.einfo = s.einfo
/-- Every LIST entry reads as before, and LLEN is unchanged. -/
def sameList (s t : State) : Prop := (∀ k, t.entry k = s.entry k) ∧ t.llen = s.llen
/-- The command stream not yet taken and the decoder's position are unchanged. -/
def samePort (s t : State) : Prop := t.cmd = s.cmd ∧ t.pending = s.pending
/-- A command completed: CMDCNT counts it, and STATUS, CAUSE, EPC, EINFO and the command port are as before. -/
def retired (s t : State) : Prop := t.cmdcnt = s.cmdcnt + 1 ∧ sameRecord s t ∧ samePort s t
/-- Every register file, flag, LIST entry, LLEN, PASSES and the result stream are unchanged: what an exception must not
touch (60_exceptions R280), with the command port. -/
def sameData (s t : State) : Prop :=
  sameW s t ∧ sameZ s t ∧ sameN s t ∧ sameFlags s t ∧ sameList s t ∧ t.passes = s.passes ∧ t.res = s.res ∧ samePort s t

/-- What a fatal exception leaves (60_exceptions R280, R281): the record, HALTED set, RERR and CMDCNT kept, the rest as
before the command. -/
def fatal (s : State) (code : BitVec 8) (info : Word) (t : State) : Prop :=
  t.halted = true ∧ t.cause = code ∧ t.epc = s.cmdcnt ∧ t.einfo = info ∧ t.rerr = s.rerr ∧ t.cmdcnt = s.cmdcnt ∧ sameData s t

/-! ### What a completed command leaves -/

/-- Completed, with the register Wd holding `v`; the flags are left to the statement. -/
def wroteW (rd : WReg) (v : WideUint) (s t : State) : Prop :=
  t.getW rd = v ∧ sameWBut rd s t ∧ sameZ s t ∧ sameN s t ∧ sameList s t ∧ t.passes = s.passes ∧ t.res = s.res ∧ retired s t
/-- Completed, with the register Zd holding `v`, no flag changed. -/
def wroteZ (rd : ZReg) (v : Counter) (s t : State) : Prop :=
  t.getZ rd = v ∧ sameZBut rd s t ∧ sameW s t ∧ sameN s t ∧ sameFlags s t ∧ sameList s t ∧ t.passes = s.passes ∧
    t.res = s.res ∧ retired s t
/-- Completed, with the register Nd holding `v`; the flags are left to the statement. -/
def wroteN (rd : NReg) (v : Subnet) (s t : State) : Prop :=
  t.getN rd = v ∧ sameNBut rd s t ∧ sameW s t ∧ sameZ s t ∧ sameList s t ∧ t.passes = s.passes ∧ t.res = s.res ∧ retired s t
/-- Completed, with no register, LIST entry or PASSES changed and nothing emitted; the flags are left to the statement. -/
def wroteNoData (s t : State) : Prop :=
  sameW s t ∧ sameZ s t ∧ sameN s t ∧ sameList s t ∧ t.passes = s.passes ∧ t.res = s.res ∧ retired s t
/-- Completed, with the words `ws` emitted after the result stream so far and nothing else changed. -/
def emitted (ws : List Word) (s t : State) : Prop :=
  t.res = s.res ++ ws ∧ sameW s t ∧ sameZ s t ∧ sameN s t ∧ sameFlags s t ∧ sameList s t ∧ t.passes = s.passes ∧ retired s t
/-- Completed, with no register or flag changed and nothing emitted; LIST and PASSES are left to the statement. -/
def wroteListOnly (s t : State) : Prop :=
  sameW s t ∧ sameZ s t ∧ sameN s t ∧ sameFlags s t ∧ t.res = s.res ∧ retired s t
/-- Every LIST entry below the old LLEN reads as before, the entries `l` stand after them, and LLEN counts both. -/
def appended (l : ListMem) (s t : State) : Prop :=
  (∀ k < s.llen, t.entry k = s.entry k) ∧ (∀ k, t.entry (s.llen + k) = l[k]?) ∧ t.llen = s.llen + l.length

end State

/-! ### The spec's formulas, for statements -/

/-- A number in the field of a head word that begins at bit k: the spec's `v<<k`. -/
def fieldAt (v k : Nat) : Word := BitVec.ofNat 32 (v * 2 ^ k)

/-- (ALLONES * 2^(w-p)) mod 2^128, the formula of 41_masktable R150. -/
def maskFormula (p w : Nat) : WideUint := BitVec.ofNat 128 ((2 ^ 128 - 1) * 2 ^ (w - p))

/-- The mask formula at a Subnet's own prefix length and width. -/
def Subnet.maskFormula (x : Subnet) : WideUint := Sys2Proof.Machine.maskFormula x.plen.toNat x.fw.toNat

/-- A family width: 32 or 128 (00_scope R9). -/
def isWidth (fw : Nat) : Prop := fw = 32 ∨ fw = 128

/-- Address a of family w is covered by an entry of the list (00_scope R11). -/
def coveredBy (l : ListMem) (w a : Nat) : Prop := ∃ x ∈ l, x.fw.toNat = w ∧ x.covers a = true

/-- Two Subnets of one family and prefix length p >= 1 whose bases differ in exactly bit w - p (43_subnet R193 (d)). -/
def siblings (x y : Subnet) : Prop :=
  x.fw = y.fw ∧ x.plen = y.plen ∧ x.plen ≠ 0 ∧ x.base ^^^ y.base = (1 : WideUint) <<< (x.fw.toNat - x.plen.toNat)

/-! ### Which commands write what (10_state R21 to R23, R28, R35, R36; 30_encoding R107) -/

/-- The writers of T (R28). -/
def writesT : Instr → Bool
  | .zisz _ | .nmake _ _ _ _ | .nincl _ _ | .nlt _ _ | .nwiden _ _ => true
  | _ => false
/-- The writers of C (R28). -/
def writesC : Instr → Bool
  | .wshl _ _ | .wnext _ _ _ | .wjump _ _ _ => true
  | _ => false
/-- The writer of CMP (R28). -/
def writesCmp : Instr → Bool
  | .wcmp _ _ => true
  | _ => false
/-- The writers of a W register (R21). -/
def writesW : Instr → Bool
  | .wli _ _ | .wli4 _ _ | .wnot _ _ | .wand _ _ _ | .wshl _ _ | .wnext _ _ _ | .wrend _ _ _ | .wjump _ _ _ | .wcto _ _ _
  | .maska _ _ _ | .nbase _ _ | .nmask _ _ => true
  | _ => false
/-- The writers of a Z register (R22). -/
def writesZ : Instr → Bool
  | .masks _ _ _ | .zsub _ _ _ | .zsetb _ _ _ _ => true
  | _ => false
/-- The writers of an N register (R23). -/
def writesN : Instr → Bool
  | .nmake _ _ _ _ | .nwiden _ _ | .lget _ _ => true
  | _ => false
/-- The writers of LIST and LLEN (R35, R39). -/
def writesList : Instr → Bool
  | .lclr | .lpush _ | .merge | .decomp _ _ _ => true
  | _ => false
/-- The commands that emit result words (R107). -/
def emits : Instr → Bool
  | .wout _ | .zout _ | .nout _ | .lout | .csrout _ => true
  | _ => false

end Sys2Proof.Machine
end

