-- ==== Sys2Proof/Certificates/Slice0/Obligations.lean ====
section
/-! DEFINITION. The statements for the provers. Each docstring names the rules of spec/ it formalises. A statement about a
command holds in every state, for every register number and every immediate its hypotheses admit; each witness is a theorem
of Sys2Proof/Tests/Slice0.lean. -/

section
open Sys2Proof Sys2Proof.Machine

/-! ### Decoding and the step -/

/-- Decoding the words of any well-formed command, whatever words follow, gives that command and those words: no operand
bit is dropped (30_encoding R91 to R100, R104). -/
def Obligations.EncodeThenDecodeGivesTheCommand : Prop :=
  ∀ (i : Instr) (rest : List Word), i.wellFormed = true → decode (encode i ++ rest) = .command i rest

/-- The other direction: words that decode to a command are that command's own words, so each command has one encoding
(30_encoding R100, R101). -/
def Obligations.DecodedWordsAreTheCommandsOwn : Prop :=
  ∀ (ws rest : List Word) (i : Instr), decode ws = .command i rest → i.wellFormed = true ∧ encode i ++ rest = ws

/-- 30_encoding R101: a head word whose operation code is in the table but which has a one in a must-be-zero bit matches no
row and is illegal; 0x10100000 is one. -/
def Obligations.MustBeZeroBitsMakeHeadIllegal : Prop :=
  (∀ (h : Word) (o : Op), fieldOp h = fieldOp o.matchWord → h &&& (o.maskWord &&& 0x00FFFFFF) ≠ 0 →
    (∀ o' : Op, h &&& o'.maskWord ≠ o'.matchWord) ∧ ∀ rest, decode (h :: rest) = .illegal h rest) ∧
  ∀ rest, decode (0x10100000 :: rest) = .illegal 0x10100000 rest

/-- 30_encoding R102: a head word that matches no row of R100 raises the fatal E_ILLEGAL with EINFO = the head word, and no
further word is taken; every operation code outside the table matches no row, the all-zero and the all-one word among them;
a payload word is never checked. -/
def Obligations.UnmatchedHeadWordsRaiseIllegal : Prop :=
  (∀ (h : Word) (s : State) (rest : List Word), (∀ o : Op, h &&& o.maskWord ≠ o.matchWord) →
    s.halted = false → s.pending = [] → s.cmd = h :: rest →
    ∃ t, step s = .next t ∧ (s.takeWords rest).fatal 1 h t) ∧
  (∀ h : Word, (∃ lo hi : Nat, (lo, hi) ∈ [(0x00, 0x00), (0x03, 0x0F), (0x19, 0x1F), (0x22, 0x27), (0x2C, 0x2F),
      (0x37, 0x3F), (0x44, 0x47), (0x4A, 0x4F), (0x52, 0xFF)] ∧ lo ≤ h.toNat / 2 ^ 24 ∧ h.toNat / 2 ^ 24 ≤ hi) →
    ∀ o : Op, h &&& o.maskWord ≠ o.matchWord) ∧
  (∀ o : Op, (0x00000000 : Word) &&& o.maskWord ≠ o.matchWord ∧ (0xFFFFFFFF : Word) &&& o.maskWord ≠ o.matchWord) ∧
  (∀ (rd : WReg) (p1 p2 p3 p4 : Word) (rest : List Word),
    decode ((0x01000000 ||| fieldAt rd.val 20) :: p1 :: p2 :: p3 :: p4 :: rest) = .command (.wli rd (p1 ++ p2 ++ p3 ++ p4)) rest ∧
    decode ((0x02000000 ||| fieldAt rd.val 20) :: p1 :: rest) = .command (.wli4 rd p1) rest)

/-- Words written out from the encodings of the rules decode to the commands they stand for (30_encoding R100; the examples
of 40_wideuint R121, R131, 41_masktable R151, 42_blocksize R166, 43_subnet R181, 44_merge R203, 45_decompose R240, 46_system
R260). A sanity statement. -/
def Obligations.SampleWordsDecode : Prop :=
  decode [0x01300000, 0x20010DB8, 0x00000000, 0x00000000, 0x00000001] =
    .command (.wli 3 0x20010DB8000000000000000000000001) [] ∧
  decode [0x17322000] = .command (.wcto 3 2 32) [] ∧
  decode [0x20401D20] = .command (.maska 4 29 32) [] ∧
  decode [0x28312000] = .command (.zsub 3 1 2) [] ∧
  decode [0x30211D20] = .command (.nmake 2 1 29 32) [] ∧
  decode [0x42500001] = .command (.lget 5 1) [] ∧
  decode [0x49012020] = .command (.decomp 1 2 32) [] ∧
  decode [0x50000009] = .command (.csrout 9) []

/-- A step runs the decoded command: where the words the decoder holds and the words presented begin with the words of a
well-formed command, the step of a unit that is not halted is that command's meaning in the state in which exactly those
words have been taken (20_memory R70, 30_encoding R104). -/
def Obligations.StepRunsTheDecodedCommand : Prop :=
  ∀ (s : State) (i : Instr) (rest : List Word), i.wellFormed = true → s.halted = false →
    s.pending ++ s.cmd = encode i ++ rest → step s = exec i { s with pending := [], cmd := rest }

/-- A command sees no word beyond its own: presenting further words after a whole command or an illegal head word changes
the step in nothing but those words, which stay in the stream (10_state R43: the unit never looks ahead). -/
def Obligations.NoLookAheadBeyondTheCommand : Prop :=
  ∀ (s t : State) (ws : List Word), s.halted = false → s.fetch ≠ .incomplete → step s = .next t →
    step (s.present ws) = .next (t.present ws)

/-- The words end inside a literal command: the unit takes them and waits. Nothing is written, raised or counted, the run
has ended stuck, every further step leaves the state as it is, and the missing words may still come: the run is then the one
of words presented together (30_encoding R104, 70_reset_and_hazards R325; log 5). -/
def Obligations.UnfinishedLiteralWaits : Prop :=
  ∀ (s : State) (h : Word) (o : Op) (rest : List Word), s.halted = false → s.pending ++ s.cmd = h :: rest →
    h &&& o.maskWord = o.matchWord → rest.length < o.payloadWords →
    ∃ t, step s = .next t ∧ t.pending = h :: rest ∧ t.cmd = [] ∧ s.sameW t ∧ s.sameZ t ∧ s.sameN t ∧ s.sameFlags t ∧
      s.sameList t ∧ t.passes = s.passes ∧ t.res = s.res ∧ s.sameRecord t ∧ t.cmdcnt = s.cmdcnt ∧
      t.runEnd = some .stuck ∧ step t = .next t ∧ ∀ ws, step (t.present ws) = step (s.present ws)

/-! ### The wide-integer unit -/

/-- 40_wideuint R121, R122: WLI loads its 128-bit literal, most significant word first, WLI4 its 32-bit literal
zero-extended; no flag changes. -/
def Obligations.LiteralLoadsComplete : Prop :=
  (∀ (rd : WReg) (v : WideUint) (s : State),
    encode (.wli rd v) = [0x01000000 ||| fieldAt rd.val 20, v.extractLsb' 96 32, v.extractLsb' 64 32, v.extractLsb' 32 32,
      v.extractLsb' 0 32] ∧
    ∃ t, exec (.wli rd v) s = .next t ∧ s.wroteW rd v t ∧ s.sameFlags t) ∧
  ∀ (rd : WReg) (v : Word) (s : State), encode (.wli4 rd v) = [0x02000000 ||| fieldAt rd.val 20, v] ∧
    ∃ t, exec (.wli4 rd v) s = .next t ∧ s.wroteW rd (BitVec.ofNat 128 v.toNat) t ∧ s.sameFlags t

/-- 40_wideuint R123: WCMP by halves, each an unsigned 64-bit number; the result is that of the two values as unsigned
128-bit integers; T and C are unchanged. -/
def Obligations.CompareSetsCmp : Prop :=
  ∀ (a b : WReg) (s : State), encode (.wcmp a b) = [0x10000000 ||| fieldAt a.val 16 ||| fieldAt b.val 12] ∧
    ∃ t, exec (.wcmp a b) s = .next t ∧ s.wroteNoData t ∧ t.t = s.t ∧ t.c = s.c ∧
      t.cmp = (if highHalf (s.getW a) < highHalf (s.getW b) then .less
        else if highHalf (s.getW b) < highHalf (s.getW a) then .greater
        else if lowHalf (s.getW a) < lowHalf (s.getW b) then .less
        else if lowHalf (s.getW b) < lowHalf (s.getW a) then .greater else .equal) ∧
      (t.cmp = .less ↔ (s.getW a).toNat < (s.getW b).toNat) ∧ (t.cmp = .equal ↔ s.getW a = s.getW b) ∧
      (t.cmp = .greater ↔ (s.getW b).toNat < (s.getW a).toNat)

/-- 40_wideuint R124, R125, R128: WNOT, WAND and WREND on any 128-bit values; no flag changes. -/
def Obligations.BitwiseCommandsComplete : Prop :=
  (∀ (rd rs1 : WReg) (s : State), encode (.wnot rd rs1) = [0x11000000 ||| fieldAt rd.val 20 ||| fieldAt rs1.val 16] ∧
    ∃ t, exec (.wnot rd rs1) s = .next t ∧ s.wroteW rd (~~~s.getW rs1) t ∧ s.sameFlags t) ∧
  (∀ (rd rs1 rs2 : WReg) (s : State),
    encode (.wand rd rs1 rs2) = [0x12000000 ||| fieldAt rd.val 20 ||| fieldAt rs1.val 16 ||| fieldAt rs2.val 12] ∧
    ∃ t, exec (.wand rd rs1 rs2) s = .next t ∧ s.wroteW rd (s.getW rs1 &&& s.getW rs2) t ∧ s.sameFlags t) ∧
  ∀ (rd rs1 rs2 : WReg) (s : State),
    encode (.wrend rd rs1 rs2) = [0x15000000 ||| fieldAt rd.val 20 ||| fieldAt rs1.val 16 ||| fieldAt rs2.val 12] ∧
    ∃ t, exec (.wrend rd rs1 rs2) s = .next t ∧ s.wroteW rd (s.getW rs1 ||| ~~~s.getW rs2) t ∧ s.sameFlags t

/-- 40_wideuint R127: WSHL doubles modulo 2^128, by halves with bit 63 carried into the high half, and C takes bit 127. -/
def Obligations.ShiftLeftCarriesAcrossHalves : Prop :=
  ∀ (rd rs1 : WReg) (s : State), encode (.wshl rd rs1) = [0x13000000 ||| fieldAt rd.val 20 ||| fieldAt rs1.val 16] ∧
    ∃ t, exec (.wshl rd rs1) s = .next t ∧ s.wroteW rd (BitVec.ofNat 128 (2 * (s.getW rs1).toNat)) t ∧
      lowHalf (t.getW rd) = (s.getW rs1).extractLsb' 0 63 ++ (0 : BitVec 1) ∧
      highHalf (t.getW rd) = (s.getW rs1).extractLsb' 64 63 ++ (s.getW rs1).extractLsb' 63 1 ∧
      t.c = (s.getW rs1).getLsbD 127 ∧ t.t = s.t ∧ t.cmp = s.cmp

/-- 40_wideuint R129, R130: WNEXT is (v OR NOT m) + 1 modulo 2^128, the low half's carry entering the high half, and C is
the carry out of bit 127; WJUMP with the same fields gives the same. -/
def Obligations.NextAndJumpIncrementPastTheBlock : Prop :=
  ∀ (rd rs1 rs2 : WReg) (s : State),
    encode (.wnext rd rs1 rs2) = [0x14000000 ||| fieldAt rd.val 20 ||| fieldAt rs1.val 16 ||| fieldAt rs2.val 12] ∧
    encode (.wjump rd rs1 rs2) = [0x16000000 ||| fieldAt rd.val 20 ||| fieldAt rs1.val 16 ||| fieldAt rs2.val 12] ∧
    ∃ t, exec (.wnext rd rs1 rs2) s = .next t ∧ exec (.wjump rd rs1 rs2) s = .next t ∧
      s.wroteW rd (BitVec.ofNat 128 ((s.getW rs1 ||| ~~~s.getW rs2).toNat + 1)) t ∧
      lowHalf (t.getW rd) = lowHalf (s.getW rs1 ||| ~~~s.getW rs2) + 1 ∧
      highHalf (t.getW rd) = highHalf (s.getW rs1 ||| ~~~s.getW rs2) +
        (if lowHalf (s.getW rs1 ||| ~~~s.getW rs2) = BitVec.allOnes 64 then 1 else 0) ∧
      t.c = decide ((s.getW rs1 ||| ~~~s.getW rs2) = allOnes) ∧ t.t = s.t ∧ t.cmp = s.cmp

/-- 40_wideuint R131: WCTO gives the lesser of the immediate and the number of trailing ones, which is the least i with bit i
zero, or 128. -/
def Obligations.TrailingOnesAreCounted : Prop :=
  ∀ (rd rs1 : WReg) (max : Nat) (s : State), max < 256 →
    encode (.wcto rd rs1 max) = [0x17000000 ||| fieldAt rd.val 20 ||| fieldAt rs1.val 16 ||| fieldAt max 8] ∧
    ∃ t n, exec (.wcto rd rs1 max) s = .next t ∧ s.wroteW rd (BitVec.ofNat 128 (min n max)) t ∧ s.sameFlags t ∧
      (∀ i < n, (s.getW rs1).getLsbD i = true) ∧
      (n = 128 ∨ (n < 128 ∧ (s.getW rs1).getLsbD n = false))

/-- 40_wideuint R132, 42_blocksize R169: WOUT and ZOUT emit their records, most significant word first, and change nothing
else. -/
def Obligations.RegisterRecordsAreEmitted : Prop :=
  (∀ (r : WReg) (s : State), encode (.wout r) = [0x18000000 ||| fieldAt r.val 16] ∧
    ∃ t, exec (.wout r) s = .next t ∧
      s.emitted [(s.getW r).extractLsb' 96 32, (s.getW r).extractLsb' 64 32, (s.getW r).extractLsb' 32 32,
        (s.getW r).extractLsb' 0 32] t) ∧
  ∀ (r : ZReg) (s : State), encode (.zout r) = [0x2B000000 ||| fieldAt r.val 16] ∧
    ∃ t, exec (.zout r) s = .next t ∧
      s.emitted [if (s.getZ r).getLsbD 128 then 1 else 0, (s.getZ r).extractLsb' 96 32, (s.getZ r).extractLsb' 64 32,
        (s.getZ r).extractLsb' 32 32, (s.getZ r).extractLsb' 0 32] t

/-! ### The mask table and the counters -/

/-- 41_masktable R151, R152: MASKA and MASKS read the entry MASK(plen, fw) of R150 for a family width and a prefix length of
it; any other width raises E_WIDTH, then a longer prefix length E_PREFIX. -/
def Obligations.MaskTableReads : Prop :=
  ∀ (rd : Fin 16) (plen fw : Nat) (s : State), plen < 256 → fw < 256 →
    encode (.maska rd plen fw) = [0x20000000 ||| fieldAt rd.val 20 ||| fieldAt plen 8 ||| fieldAt fw 0] ∧
    encode (.masks rd plen fw) = [0x21000000 ||| fieldAt rd.val 20 ||| fieldAt plen 8 ||| fieldAt fw 0] ∧
    (isWidth fw → plen ≤ fw →
      (∃ t, exec (.maska rd plen fw) s = .next t ∧
        s.wroteW rd (BitVec.ofNat 128 ((2 ^ 128 - 1) * 2 ^ (fw - plen))) t ∧ s.sameFlags t) ∧
      ∃ t, exec (.masks rd plen fw) s = .next t ∧ s.wroteZ rd (BitVec.ofNat 129 (2 ^ (fw - plen))) t ∧
        (t.getZ rd).toNat = 2 ^ (fw - plen)) ∧
    (¬isWidth fw → (∃ t, exec (.maska rd plen fw) s = .next t ∧ s.fatal 2 (fieldAt fw 0) t) ∧
      ∃ t, exec (.masks rd plen fw) s = .next t ∧ s.fatal 2 (fieldAt fw 0) t) ∧
    (isWidth fw → fw < plen → (∃ t, exec (.maska rd plen fw) s = .next t ∧ s.fatal 3 (fieldAt plen 0) t) ∧
      ∃ t, exec (.masks rd plen fw) s = .next t ∧ s.fatal 3 (fieldAt plen 0) t)

/-- 41_masktable R153 (a) to (g): the identities of the table, for the functions the commands read it with. -/
def Obligations.MaskIdentities : Prop :=
  ∀ (p w : Nat), isWidth w → p ≤ w →
    (~~~maskAddress p w = BitVec.ofNat 128 ((maskSize p w).toNat - 1) ∧ (maskSize p w).toNat = 2 ^ (w - p)) ∧
    (1 ≤ p → shl1 (maskAddress p w) = maskAddress (p - 1) w ∧ shiftedOut (maskAddress p w) = true) ∧
    maskAddress w w = allOnes ∧
    (∀ q, p ≤ q → q ≤ w → maskAddress p w &&& maskAddress q w = maskAddress p w) ∧
    (∀ a : WideUint, (a &&& maskAddress p w = a ↔ 2 ^ (w - p) ∣ a.toNat) ∧
      (a.toNat < 2 ^ w → (a &&& maskAddress p w).toNat < 2 ^ w)) ∧
    (w = 32 → maskAddress p 32 = maskAddress (96 + p) 128 ∧ maskSize p 32 = maskSize (96 + p) 128 ∧
      shiftedOut (maskAddress p 32) = true)

/-- 42_blocksize R166, 60_exceptions R275: ZSUB is the exact difference, and raises E_UNDERFLOW where the subtrahend is
greater, writing nothing. -/
def Obligations.CounterSubtractionIsExact : Prop :=
  ∀ (rd rs1 rs2 : ZReg) (s : State),
    encode (.zsub rd rs1 rs2) = [0x28000000 ||| fieldAt rd.val 20 ||| fieldAt rs1.val 16 ||| fieldAt rs2.val 12] ∧
    ((s.getZ rs2).toNat ≤ (s.getZ rs1).toNat → ∃ t, exec (.zsub rd rs1 rs2) s = .next t ∧
      s.wroteZ rd (BitVec.ofNat 129 ((s.getZ rs1).toNat - (s.getZ rs2).toNat)) t ∧
      (t.getZ rd).toNat + (s.getZ rs2).toNat = (s.getZ rs1).toNat) ∧
    ((s.getZ rs1).toNat < (s.getZ rs2).toNat → ∃ t, exec (.zsub rd rs1 rs2) s = .next t ∧ s.fatal 5 0 t)

/-- 42_blocksize R167: ZISZ tests all 129 bits; C and CMP are unchanged. -/
def Obligations.CounterZeroTest : Prop :=
  ∀ (r : ZReg) (s : State), encode (.zisz r) = [0x29000000 ||| fieldAt r.val 16] ∧
    ∃ t, exec (.zisz r) s = .next t ∧ s.wroteNoData t ∧ (t.t = true ↔ (s.getZ r).toNat = 0) ∧ t.c = s.c ∧ t.cmp = s.cmp

/-- 42_blocksize R168: ZSETB sets bit fw - plen; the width is checked first, then the prefix length. -/
def Obligations.CounterSetBitFromTop : Prop :=
  ∀ (rd rs1 : ZReg) (plen fw : Nat) (s : State), plen < 256 → fw < 256 →
    encode (.zsetb rd rs1 plen fw) =
      [0x2A000000 ||| fieldAt rd.val 20 ||| fieldAt rs1.val 16 ||| fieldAt plen 8 ||| fieldAt fw 0] ∧
    (isWidth fw → plen ≤ fw → ∃ t, exec (.zsetb rd rs1 plen fw) s = .next t ∧
      s.wroteZ rd (s.getZ rs1 ||| BitVec.ofNat 129 (2 ^ (fw - plen))) t ∧
      ∀ i < 129, (t.getZ rd).getLsbD i = (decide (i = fw - plen) || (s.getZ rs1).getLsbD i)) ∧
    (¬isWidth fw → ∃ t, exec (.zsetb rd rs1 plen fw) s = .next t ∧ s.fatal 2 (fieldAt fw 0) t) ∧
    (isWidth fw → fw < plen → ∃ t, exec (.zsetb rd rs1 plen fw) s = .next t ∧ s.fatal 3 (fieldAt plen 0) t)

/-! ### The subnet checker -/

/-- 43_subnet R181: NMAKE stores the network address, a well-formed Subnet, and T says whether the address was aligned;
E_WIDTH, then E_PREFIX, then E_FAMILY with the number of the W register. -/
def Obligations.MakeSubnetNormalises : Prop :=
  ∀ (rd : NReg) (rs1 : WReg) (plen fw : Nat) (s : State), plen < 256 → fw < 256 →
    encode (.nmake rd rs1 plen fw) =
      [0x30000000 ||| fieldAt rd.val 20 ||| fieldAt rs1.val 16 ||| fieldAt plen 8 ||| fieldAt fw 0] ∧
    (isWidth fw → plen ≤ fw → (fw = 32 → (s.getW rs1).toNat < 2 ^ 32) →
      ∃ t, exec (.nmake rd rs1 plen fw) s = .next t ∧
        s.wroteN rd { base := s.getW rs1 &&& maskFormula plen fw, plen := BitVec.ofNat 8 plen, fw := BitVec.ofNat 8 fw } t ∧
        (t.getN rd).wellFormed = true ∧ (t.t = true ↔ s.getW rs1 &&& maskFormula plen fw = s.getW rs1) ∧
        t.c = s.c ∧ t.cmp = s.cmp) ∧
    (¬isWidth fw → ∃ t, exec (.nmake rd rs1 plen fw) s = .next t ∧ s.fatal 2 (fieldAt fw 0) t) ∧
    (isWidth fw → fw < plen → ∃ t, exec (.nmake rd rs1 plen fw) s = .next t ∧ s.fatal 3 (fieldAt plen 0) t) ∧
    (fw = 32 → plen ≤ 32 → 2 ^ 32 ≤ (s.getW rs1).toNat →
      ∃ t, exec (.nmake rd rs1 plen fw) s = .next t ∧ s.fatal 4 (fieldAt rs1.val 0) t)

/-- 43_subnet R182, R183, R190: NBASE, NMASK and NOUT read the fields of a Subnet; an empty N register raises E_WIDTH. -/
def Obligations.SubnetFieldsAreRead : Prop :=
  ∀ (rd : WReg) (r : NReg) (s : State),
    encode (.nbase rd r) = [0x31000000 ||| fieldAt rd.val 20 ||| fieldAt r.val 16] ∧
    encode (.nmask rd r) = [0x32000000 ||| fieldAt rd.val 20 ||| fieldAt r.val 16] ∧
    encode (.nout r) = [0x36000000 ||| fieldAt r.val 16] ∧
    (isWidth (s.getN r).fw.toNat →
      (∃ t, exec (.nbase rd r) s = .next t ∧ s.wroteW rd (s.getN r).base t ∧ s.sameFlags t) ∧
      (∃ t, exec (.nmask rd r) s = .next t ∧ s.wroteW rd (s.getN r).maskFormula t ∧ s.sameFlags t) ∧
      ∃ t, exec (.nout r) s = .next t ∧
        s.emitted [fieldAt (s.getN r).fw.toNat 8 ||| fieldAt (s.getN r).plen.toNat 0, (s.getN r).base.extractLsb' 96 32,
          (s.getN r).base.extractLsb' 64 32, (s.getN r).base.extractLsb' 32 32, (s.getN r).base.extractLsb' 0 32] t) ∧
    (¬isWidth (s.getN r).fw.toNat →
      (∃ t, exec (.nbase rd r) s = .next t ∧ s.fatal 2 (fieldAt (s.getN r).fw.toNat 0) t) ∧
      (∃ t, exec (.nmask rd r) s = .next t ∧ s.fatal 2 (fieldAt (s.getN r).fw.toNat 0) t) ∧
      ∃ t, exec (.nout r) s = .next t ∧ s.fatal 2 (fieldAt (s.getN r).fw.toNat 0) t)

/-- 43_subnet R188, R191: NINCL and NLT set T by the formulas of R185 and R186; C and CMP are unchanged; an empty N register
raises E_WIDTH, rs1 checked first. -/
def Obligations.SubnetPredicatesSetT : Prop :=
  ∀ (a b : NReg) (s : State),
    encode (.nincl a b) = [0x33000000 ||| fieldAt a.val 16 ||| fieldAt b.val 12] ∧
    encode (.nlt a b) = [0x34000000 ||| fieldAt a.val 16 ||| fieldAt b.val 12] ∧
    (isWidth (s.getN a).fw.toNat → isWidth (s.getN b).fw.toNat →
      (∃ t, exec (.nincl a b) s = .next t ∧ s.wroteNoData t ∧ t.c = s.c ∧ t.cmp = s.cmp ∧
        (t.t = true ↔ (s.getN a).fw = (s.getN b).fw ∧ (s.getN b).base &&& (s.getN a).maskFormula = (s.getN a).base)) ∧
      ∃ t, exec (.nlt a b) s = .next t ∧ s.wroteNoData t ∧ t.c = s.c ∧ t.cmp = s.cmp ∧
        (t.t = true ↔ (s.getN a).fw.toNat < (s.getN b).fw.toNat ∨
          ((s.getN a).fw = (s.getN b).fw ∧ (s.getN a).base.toNat < (s.getN b).base.toNat) ∨
          ((s.getN a).fw = (s.getN b).fw ∧ (s.getN a).base = (s.getN b).base ∧
            (s.getN a).plen.toNat < (s.getN b).plen.toNat))) ∧
    (¬isWidth (s.getN a).fw.toNat →
      (∃ t, exec (.nincl a b) s = .next t ∧ s.fatal 2 (fieldAt (s.getN a).fw.toNat 0) t) ∧
      ∃ t, exec (.nlt a b) s = .next t ∧ s.fatal 2 (fieldAt (s.getN a).fw.toNat 0) t) ∧
    (isWidth (s.getN a).fw.toNat → ¬isWidth (s.getN b).fw.toNat →
      (∃ t, exec (.nincl a b) s = .next t ∧ s.fatal 2 (fieldAt (s.getN b).fw.toNat 0) t) ∧
      ∃ t, exec (.nlt a b) s = .next t ∧ s.fatal 2 (fieldAt (s.getN b).fw.toNat 0) t)

/-- 43_subnet R187, R189: NWIDEN. Prefix length 0 copies the Subnet; an aligned base takes the prefix length one less; else
N[rd] keeps its value. T is ok; C and CMP are unchanged; an empty N register raises E_WIDTH. -/
def Obligations.WidenOneStep : Prop :=
  ∀ (rd r : NReg) (s : State), encode (.nwiden rd r) = [0x35000000 ||| fieldAt rd.val 20 ||| fieldAt r.val 16] ∧
    (isWidth (s.getN r).fw.toNat → ∃ t, exec (.nwiden rd r) s = .next t ∧ t.c = s.c ∧ t.cmp = s.cmp ∧
      ((s.getN r).plen = 0 → s.wroteN rd (s.getN r) t ∧ t.t = true) ∧
      ((s.getN r).plen ≠ 0 →
        (s.getN r).base &&& maskFormula ((s.getN r).plen.toNat - 1) (s.getN r).fw.toNat = (s.getN r).base →
        s.wroteN rd { s.getN r with plen := (s.getN r).plen - 1 } t ∧ t.t = true) ∧
      ((s.getN r).plen ≠ 0 →
        (s.getN r).base &&& maskFormula ((s.getN r).plen.toNat - 1) (s.getN r).fw.toNat ≠ (s.getN r).base →
        s.wroteNoData t ∧ t.t = false)) ∧
    (¬isWidth (s.getN r).fw.toNat →
      ∃ t, exec (.nwiden rd r) s = .next t ∧ s.fatal 2 (fieldAt (s.getN r).fw.toNat 0) t)

/-- 00_scope R12: the canonical order is by family width, then base address, then prefix length, and it is a strict total
order: two Subnets neither of which is less than the other are equal in all three fields. -/
def Obligations.CanonicalOrderIsStrictTotal : Prop :=
  (∀ a b : Subnet, lessThan a b = true ↔ a.fw.toNat < b.fw.toNat ∨ (a.fw = b.fw ∧ a.base.toNat < b.base.toNat) ∨
    (a.fw = b.fw ∧ a.base = b.base ∧ a.plen.toNat < b.plen.toNat)) ∧
  (∀ a : Subnet, lessThan a a = false) ∧
  (∀ a b c : Subnet, lessThan a b = true → lessThan b c = true → lessThan a c = true) ∧
  (∀ a b : Subnet, lessThan a b = false → lessThan b a = false → a.base = b.base ∧ a.plen = b.plen ∧ a.fw = b.fw)

/-- 43_subnet R192: for well-formed Subnets of one family, includes is containment of the address sets where the inner one is
not wider, and equality of the bases where it is wider; across families it is false. -/
def Obligations.IncludesIsContainment : Prop :=
  ∀ (o i : Subnet), o.wellFormed = true → i.wellFormed = true →
    (o.fw = i.fw → o.plen.toNat ≤ i.plen.toNat →
      (includes o i = true ↔ ∀ a, i.covers a = true → o.covers a = true)) ∧
    (o.fw = i.fw → i.plen.toNat < o.plen.toNat → (includes o i = true ↔ o.base = i.base)) ∧
    (o.fw ≠ i.fw → includes o i = false)

/-- 44_merge R213: for neighbours of a sorted and disjoint list, the fuse condition says exactly that the retained entry is
the lower and the next entry the upper half of one parent block. -/
def Obligations.FuseConditionMeansLowerAndUpperHalf : Prop :=
  ∀ (r x : Subnet), r.wellFormed = true → x.wellFormed = true → lessThan r x = true → includes r x = false →
    (fuses r x = true ↔ r.fw = x.fw ∧ r.plen = x.plen ∧ r.plen ≠ 0 ∧
      2 ^ (r.fw.toNat - r.plen.toNat + 1) ∣ r.base.toNat ∧
      x.base.toNat = r.base.toNat + 2 ^ (r.fw.toNat - r.plen.toNat))

/-! ### The list -/

/-- 44_merge R201, R202: LCLR empties the list; LPUSH appends a checked N register at LIST[LLEN], the entries before it as
they were; E_WIDTH for an empty N register, then E_CAPACITY with EINFO = LLEN for a full list; PASSES and the flags are
unchanged. -/
def Obligations.ClearAndPush : Prop :=
  (∀ s : State, encode .lclr = [0x40000000] ∧
    ∃ t, exec .lclr s = .next t ∧ s.wroteListOnly t ∧ t.llen = 0 ∧ (∀ k, t.entry k = none) ∧ t.passes = s.passes) ∧
  ∀ (r : NReg) (s : State), encode (.lpush r) = [0x41000000 ||| fieldAt r.val 16] ∧
    (isWidth (s.getN r).fw.toNat → s.llen < Config.listDepth →
      ∃ t, exec (.lpush r) s = .next t ∧ s.wroteListOnly t ∧ s.appended [s.getN r] t ∧ t.passes = s.passes) ∧
    (¬isWidth (s.getN r).fw.toNat → ∃ t, exec (.lpush r) s = .next t ∧ s.fatal 2 (fieldAt (s.getN r).fw.toNat 0) t) ∧
    (isWidth (s.getN r).fw.toNat → s.llen = Config.listDepth →
      ∃ t, exec (.lpush r) s = .next t ∧ s.fatal 6 (BitVec.ofNat 32 s.llen) t)

/-- 44_merge R203, 60_exceptions R277: LGET copies entry idx for idx < LLEN, and raises E_INDEX with EINFO = idx at LLEN and
above. -/
def Obligations.GetEntry : Prop :=
  ∀ (rd : NReg) (idx : Nat) (s : State), idx < 65536 →
    encode (.lget rd idx) = [0x42000000 ||| fieldAt rd.val 20 ||| fieldAt idx 0] ∧
    (idx < s.llen → ∃ t x, s.entry idx = some x ∧ exec (.lget rd idx) s = .next t ∧ s.wroteN rd x t ∧ s.sameFlags t) ∧
    (s.llen ≤ idx → ∃ t, exec (.lget rd idx) s = .next t ∧ s.fatal 7 (fieldAt idx 0) t)

/-- 44_merge R204: LOUT emits LLEN and then, for each entry in index order, the header word and the base, most significant
word first: 1 + 5*LLEN words; the list is not changed. -/
def Obligations.ListIsEmitted : Prop :=
  ∀ s : State, encode .lout = [0x43000000] ∧
    ∃ t ws, exec .lout s = .next t ∧ s.emitted ws t ∧ ws.length = 1 + 5 * s.llen ∧
      ws[0]? = some (BitVec.ofNat 32 s.llen) ∧
      ∀ k x, s.entry k = some x →
        ws[5 * k + 1]? = some (fieldAt x.fw.toNat 8 ||| fieldAt x.plen.toNat 0) ∧
        ws[5 * k + 2]? = some (x.base.extractLsb' 96 32) ∧ ws[5 * k + 3]? = some (x.base.extractLsb' 64 32) ∧
        ws[5 * k + 4]? = some (x.base.extractLsb' 32 32) ∧ ws[5 * k + 5]? = some (x.base.extractLsb' 0 32)

/-! ### MERGE -/

/-- MERGE completes on every list: LIST becomes the sorted, deduplicated, fused list, PASSES the number of passes, at least 1
and at most max(1, n); registers, flags and the result stream are unchanged; an empty and a one-entry list are left alone in
one pass (44_merge R205, R214, R215). -/
def Obligations.MergeCompletes : Prop :=
  ∀ s : State, s.llen ≤ Config.listDepth → encode .merge = [0x48000000] ∧
    ∃ t, exec .merge s = .next t ∧ s.wroteListOnly t ∧ mergeList s.list = some (t.list, t.passes.toNat) ∧
      t.llen ≤ s.llen ∧ 1 ≤ t.passes.toNat ∧ t.passes.toNat ≤ max 1 (dedupList (sortList s.list)).length ∧
      (s.llen ≤ 1 → (∀ k, t.entry k = s.entry k) ∧ t.passes = 1)

/-- 44_merge R210: the sort rearranges the list into a permutation of itself that is ascending in the canonical order, and
the sorted list is uniquely determined by the multiset of entries. -/
def Obligations.SortIsTheCanonicalPermutation : Prop :=
  ∀ l : ListMem, (sortList l).Perm l ∧
    (∀ (i j : Nat) (x y : Subnet), i < j → (sortList l)[i]? = some x → (sortList l)[j]? = some y → lessThan y x = false) ∧
    ∀ l' : ListMem, l'.Perm l → l'.Pairwise (fun x y => lessThan y x = false) → l' = sortList l

/-- The result of MERGE is strictly ascending, of well-formed Subnets, and minimal: no two of its entries of one family share
an address, and no two are siblings (44_merge R216 (a), (b), (d)). -/
def Obligations.MergeResultIsSortedDisjointMinimal : Prop :=
  ∀ s t : State, (∀ x ∈ s.list, x.wellFormed = true) → exec .merge s = .next t →
    t.list.Pairwise (fun x y => lessThan x y = true) ∧ (∀ x ∈ t.list, x.wellFormed = true) ∧
    t.list.Pairwise (fun x y => x.fw = y.fw → ∀ a, ¬(x.covers a = true ∧ y.covers a = true)) ∧
    t.list.Pairwise (fun x y => ¬siblings x y)

/-- MERGE gains and loses no address, in either family (44_merge R216 (c)). -/
def Obligations.MergePreservesCoverage : Prop :=
  ∀ s t : State, (∀ x ∈ s.list, x.wellFormed = true) → exec .merge s = .next t →
    ∀ w a, coveredBy t.list w a ↔ coveredBy s.list w a

/-- The result of MERGE is the smallest set of blocks: no list of well-formed Subnets that covers the same addresses is
shorter (00_scope R1, 44_merge R216 (d)). -/
def Obligations.MergeResultIsSmallest : Prop :=
  ∀ (s t : State) (l : ListMem), (∀ x ∈ s.list, x.wellFormed = true) → exec .merge s = .next t →
    (∀ x ∈ l, x.wellFormed = true) → (∀ w a, coveredBy l w a ↔ coveredBy s.list w a) → t.list.length ≤ l.length

/-- The result of MERGE depends only on the covered address sets, so on no order of the pushes (44_merge R216 (f)). -/
def Obligations.MergeDependsOnCoverageOnly : Prop :=
  ∀ s s' t t' : State, (∀ x ∈ s.list, x.wellFormed = true) → (∀ x ∈ s'.list, x.wellFormed = true) →
    exec .merge s = .next t → exec .merge s' = .next t' →
    (∀ w a, coveredBy s.list w a ↔ coveredBy s'.list w a) → ∀ k, t.entry k = t'.entry k

/-- Families never interact: the merged list is the merged list of the family-32 entries followed by that of the family-128
entries (44_merge R216 (g)). -/
def Obligations.MergeKeepsFamiliesApart : Prop :=
  ∀ s t : State, (∀ x ∈ s.list, x.wellFormed = true) → exec .merge s = .next t →
    ∃ m4 p4 m6 p6, mergeList (s.list.filter fun x => x.fw == 32) = some (m4, p4) ∧
      mergeList (s.list.filter fun x => x.fw == 128) = some (m6, p6) ∧ t.list = m4 ++ m6

/-- MERGE applied to its own result, or to the blocks of one DECOMP on an empty list, leaves LIST as it is with PASSES = 1
(44_merge R216 (e), 45_decompose R254 (c)). -/
def Obligations.MergeIsIdempotent : Prop :=
  (∀ s t : State, (∀ x ∈ s.list, x.wellFormed = true) → exec .merge s = .next t →
    ∃ u, exec .merge t = .next u ∧ (∀ k, u.entry k = t.entry k) ∧ u.passes = 1) ∧
  ∀ (rs1 rs2 : WReg) (fw : Nat) (s t : State), s.llen = 0 → exec (.decomp rs1 rs2 fw) s = .next t →
    ∃ u, exec .merge t = .next u ∧ (∀ k, u.entry k = t.entry k) ∧ u.passes = 1

/-- A fuse pass strictly shrinks the list or leaves it unchanged, entry by entry; so the fixpoint loop ends on every list
within max(1, n) passes, n the list's length, at a list that a further pass leaves unchanged, and a larger bound on the
passes gives the same (44_merge R214, R215). -/
def Obligations.FusePassesShrinkUntilTheFixpoint : Prop :=
  ∀ l : ListMem, ((fusePass l).length < l.length ∨ fusePass l = l) ∧
    ∃ m p, (∀ bound, passBound l.length ≤ bound → fuseLoop bound l 0 = some (m, p)) ∧ 1 ≤ p ∧ p ≤ max 1 l.length ∧
      m.length ≤ l.length ∧ fusePass m = m

/-- The merge engine as the state machine of 44_merge R217, accepted with any list and whatever its pointers and N0 hold (the
spec leaves them unspecified until they are loaded, 10_state R42, log 3), reaches IDLE, and what it then leaves in
LIST and PASSES is what the function of R205 gives. -/
def Obligations.MergeEngineRefinesMergeFunction : Prop :=
  ∀ (l : ListMem) (rp wp n0 : Nat), ∃ k m p, mergeList l = some (m, p) ∧
    (MergeEngine.ticks k (MergeEngine.accept l rp wp n0)).phase = .idle ∧
    (MergeEngine.ticks k (MergeEngine.accept l rp wp n0)).result = (m, p) ∧
    ∀ j < k, (MergeEngine.ticks j (MergeEngine.accept l rp wp n0)).phase ≠ .idle

/-! ### DECOMP -/

/-- DECOMP completes on a range of one family that fits: its blocks are appended after the entries LIST holds, which are not
touched; registers, flags, PASSES and the result stream are unchanged; a range of one address is one block (45_decompose
R240, R242). -/
def Obligations.DecomposeCompletes : Prop :=
  ∀ (rs1 rs2 : WReg) (fw : Nat) (s : State), isWidth fw →
    (fw = 32 → (s.getW rs1).toNat < 2 ^ 32 ∧ (s.getW rs2).toNat < 2 ^ 32) →
    (s.getW rs1).toNat ≤ (s.getW rs2).toNat →
    (∀ l, decompose (s.getW rs1) (s.getW rs2) fw = some l → s.llen + l.length ≤ Config.listDepth) →
    encode (.decomp rs1 rs2 fw) = [0x49000000 ||| fieldAt rs1.val 16 ||| fieldAt rs2.val 12 ||| fieldAt fw 0] ∧
    ∃ t l, decompose (s.getW rs1) (s.getW rs2) fw = some l ∧ exec (.decomp rs1 rs2 fw) s = .next t ∧
      s.wroteListOnly t ∧ s.appended l t ∧ t.passes = s.passes ∧
      (s.getW rs1 = s.getW rs2 →
        l = [{ base := s.getW rs1, plen := BitVec.ofNat 8 fw, fw := BitVec.ofNat 8 fw }])

/-- 45_decompose R241, 60_exceptions R278, R283, R284: the checks of DECOMP in their order. Width, begin's family, end's
family are fatal; an inverted range is reportable: recorded where no report is pending, abandoned and retired in either
case. -/
def Obligations.DecomposeChecksInOrder : Prop :=
  ∀ (rs1 rs2 : WReg) (fw : Nat) (s : State), fw < 256 →
    (¬isWidth fw → ∃ t, exec (.decomp rs1 rs2 fw) s = .next t ∧ s.fatal 2 (fieldAt fw 0) t) ∧
    (fw = 32 → 2 ^ 32 ≤ (s.getW rs1).toNat →
      ∃ t, exec (.decomp rs1 rs2 fw) s = .next t ∧ s.fatal 4 (fieldAt rs1.val 0) t) ∧
    (fw = 32 → (s.getW rs1).toNat < 2 ^ 32 → 2 ^ 32 ≤ (s.getW rs2).toNat →
      ∃ t, exec (.decomp rs1 rs2 fw) s = .next t ∧ s.fatal 4 (fieldAt rs2.val 0) t) ∧
    (isWidth fw → (fw = 32 → (s.getW rs1).toNat < 2 ^ 32 ∧ (s.getW rs2).toNat < 2 ^ 32) →
      (s.getW rs2).toNat < (s.getW rs1).toNat →
      ∃ t, exec (.decomp rs1 rs2 fw) s = .next t ∧ s.sameData t ∧ t.cmdcnt = s.cmdcnt + 1 ∧ t.halted = s.halted ∧
        t.rerr = true ∧ (s.rerr = false → t.cause = 8 ∧ t.epc = s.cmdcnt ∧ t.einfo = 0) ∧
        (s.rerr = true → t.cause = s.cause ∧ t.epc = s.epc ∧ t.einfo = s.einfo))

/-- 45_decompose R253: blocks that do not fit raise the fatal E_CAPACITY with EINFO = LLEN at the start of the command, and
the command has had no visible effect. -/
def Obligations.DecomposeThatDoesNotFitHalts : Prop :=
  ∀ (rs1 rs2 : WReg) (fw : Nat) (s : State) (l : ListMem), isWidth fw →
    (fw = 32 → (s.getW rs1).toNat < 2 ^ 32 ∧ (s.getW rs2).toNat < 2 ^ 32) →
    (s.getW rs1).toNat ≤ (s.getW rs2).toNat → decompose (s.getW rs1) (s.getW rs2) fw = some l →
    Config.listDepth < s.llen + l.length →
    ∃ t, exec (.decomp rs1 rs2 fw) s = .next t ∧ s.fatal 6 (BitVec.ofNat 32 s.llen) t

/-- The blocks of a range are well-formed Subnets of its family, each begins where the one before it ends, and together they
cover exactly the addresses from begin to end (45_decompose R252, R254 (a), (b)). -/
def Obligations.DecompositionCoversTheRangeExactly : Prop :=
  ∀ (b e : WideUint) (fw : Nat), isWidth fw → e.toNat < 2 ^ fw → b.toNat ≤ e.toNat →
    ∃ l, decompose b e fw = some l ∧ (∀ x ∈ l, x.wellFormed = true ∧ x.fw.toNat = fw) ∧
      l.IsChain (fun x y => y.base.toNat = x.lastAddress + 1) ∧
      ∀ w a, coveredBy l w a ↔ w = fw ∧ b.toNat ≤ a ∧ a ≤ e.toNat

/-- The decomposition of a range is minimal: no list of well-formed Subnets that covers exactly the range is shorter
(45_decompose R254 (d)). -/
def Obligations.DecompositionIsSmallest : Prop :=
  ∀ (b e : WideUint) (fw : Nat) (l l' : ListMem), isWidth fw → e.toNat < 2 ^ fw → b.toNat ≤ e.toNat →
    decompose b e fw = some l → (∀ x ∈ l', x.wellFormed = true) →
    (∀ w a, coveredBy l' w a ↔ w = fw ∧ b.toNat ≤ a ∧ a ≤ e.toNat) → l.length ≤ l'.length

/-! ### System commands and pseudo-instructions -/

/-- 46_system R260: CSROUT emits the word of registers 0 to 8, laid out as 10_state R27, R30, R31 say, CMDCNT as it was before
the command; a reserved number raises E_ILLEGAL with EINFO = the head word. -/
def Obligations.CsroutEmitsTheRegister : Prop :=
  ∀ s : State,
    (∀ n, n < 65536 → encode (.csrout n) = [0x50000000 ||| fieldAt n 0]) ∧
    (∃ t, exec (.csrout 0) s = .next t ∧ s.emitted [BitVec.ofNat 32 (s.halted.toNat + 2 * s.rerr.toNat)] t) ∧
    (∃ t, exec (.csrout 1) s = .next t ∧ s.emitted [BitVec.ofNat 32 s.cause.toNat] t) ∧
    (∃ t, exec (.csrout 2) s = .next t ∧ s.emitted [s.epc] t) ∧
    (∃ t, exec (.csrout 3) s = .next t ∧ s.emitted [s.einfo] t) ∧
    (∃ t, exec (.csrout 4) s = .next t ∧ s.emitted [BitVec.ofNat 32 (s.t.toNat + 2 * s.c.toNat +
      4 * (match s.cmp with | .less => 3 | .equal => 0 | .greater => 1))] t) ∧
    (∃ t, exec (.csrout 5) s = .next t ∧ s.emitted [BitVec.ofNat 32 s.llen] t) ∧
    (∃ t, exec (.csrout 6) s = .next t ∧ s.emitted [s.passes] t) ∧
    (∃ t, exec (.csrout 7) s = .next t ∧ s.emitted [s.cmdcnt] t) ∧
    (∃ t, exec (.csrout 8) s = .next t ∧ s.emitted [BitVec.ofNat 32 Config.listDepth] t) ∧
    ∀ n, 9 ≤ n → n < 65536 → ∃ t, exec (.csrout n) s = .next t ∧ s.fatal 1 (0x50000000 ||| fieldAt n 0) t

/-- 46_system R261: CLRERR clears RERR, CAUSE, EPC and EINFO, whether or not RERR was set, and changes nothing else but
CMDCNT. -/
def Obligations.ClrerrAcknowledges : Prop :=
  ∀ s : State, encode .clrerr = [0x51000000] ∧
    ∃ t, exec .clrerr s = .next t ∧ t.rerr = false ∧ t.cause = 0 ∧ t.epc = 0 ∧ t.einfo = 0 ∧ t.halted = s.halted ∧
      t.cmdcnt = s.cmdcnt + 1 ∧ s.sameData t

/-- 30_encoding R106: the five pseudo-instructions, by what they do. -/
def Obligations.PseudoInstructions : Prop :=
  Instr.fout = .csrout 4 ∧ Instr.llenOut = .csrout 5 ∧
  (∀ (rd rs : WReg) (s : State), Instr.wmov rd rs = .wand rd rs rs ∧
    ∃ t, exec (Instr.wmov rd rs) s = .next t ∧ s.wroteW rd (s.getW rs) t ∧ s.sameFlags t) ∧
  (∀ (rd : ZReg) (s : State), Instr.zclr rd = .zsub rd rd rd ∧
    ∃ t, exec (Instr.zclr rd) s = .next t ∧ s.wroteZ rd 0 t) ∧
  ∀ s : State, Instr.nop = .wand 0 0 0 ∧ exec Instr.nop s = .next { s with cmdcnt := s.cmdcnt + 1 }

/-! ### Exceptions -/

/-- 60_exceptions R281: fatal entry overwrites the record, sets HALTED, keeps RERR and does not retire; the codes are those of
R270. -/
def Obligations.FatalEntryRecordsAndHalts : Prop :=
  (∀ (s : State) (e : Exn), e.cause ≠ .order → s.fatal e.cause.code e.info (s.takeException e)) ∧
  Cause.code .illegal = 1 ∧ Cause.code .width = 2 ∧ Cause.code .plen = 3 ∧ Cause.code .family = 4 ∧
  Cause.code .underflow = 5 ∧ Cause.code .capacity = 6 ∧ Cause.code .index = 7 ∧ Cause.code .order = 8

/-- Exceptions are precise (60_exceptions R280, R281, R283; 10_state R37): a command that halts the unit has changed nothing
but the record and has not retired; every other command retires once; only DECOMP sets RERR, and the command that sets it has
changed nothing but the record and CMDCNT; the result stream only grows. -/
def Obligations.ExceptionsArePrecise : Prop :=
  ∀ (i : Instr) (s t : State), s.halted = false → exec i s = .next t →
    (t.halted = true → s.sameData t ∧ t.cmdcnt = s.cmdcnt ∧ t.rerr = s.rerr ∧ t.epc = s.cmdcnt ∧ 1 ≤ t.cause.toNat ∧
      t.cause.toNat ≤ 7) ∧
    (t.halted = false → t.cmdcnt = s.cmdcnt + 1) ∧
    (s.rerr = false → t.rerr = true → s.sameData t ∧ t.cause = 8 ∧ t.epc = s.cmdcnt ∧ t.einfo = 0 ∧
      ∃ rs1 rs2 fw, i = .decomp rs1 rs2 fw) ∧
    s.samePort t ∧ ∃ ws, t.res = s.res ++ ws

/-- While HALTED is set the unit takes no word, emits none and changes no state, for any number of steps and whatever words
the host presents; reset leaves the halted state (60_exceptions R282, 70_reset_and_hazards R310). -/
def Obligations.HaltedUnitChangesNothing : Prop :=
  ∀ (s : State) (ws : List Word), s.halted = true →
    (∀ k, core.run k (s.present ws) = .next (s.present ws)) ∧ s.runEnd = some .halted ∧ s.assertReset.halted = false

/-! ### The whole machine -/

/-- Only the writers that 10_state R28 lists change a flag, each only its own, and a command that halts the unit changes
none. -/
def Obligations.FlagWritersAreTheListed : Prop :=
  ∀ (i : Instr) (s t : State), exec i s = .next t →
    (writesT i = false → t.t = s.t) ∧ (writesC i = false → t.c = s.c) ∧ (writesCmp i = false → t.cmp = s.cmp) ∧
    (s.halted = false → t.halted = true → s.sameFlags t)

/-- Only the listed commands change a W, Z or N register, LIST, LLEN or PASSES, or emit a word (10_state R21, R22, R23, R35,
R36; 30_encoding R107). -/
def Obligations.RegisterAndListWritersAreTheListed : Prop :=
  ∀ (i : Instr) (s t : State), exec i s = .next t →
    (writesW i = false → s.sameW t) ∧ (writesZ i = false → s.sameZ t) ∧ (writesN i = false → s.sameN t) ∧
    (writesList i = false → s.sameList t) ∧ (i ≠ .merge → t.passes = s.passes) ∧ (emits i = false → t.res = s.res)

/-- No path between the counters and the rest, and no flag, record or counter is an operand: what a command leaves in the Z
file depends on the Z file alone, and what it leaves in W, N and LIST on W, N and LIST alone (70_reset_and_hazards R324,
42_blocksize R171, 10_state R27). -/
def Obligations.DataPathsAreSeparate : Prop :=
  ∀ (i : Instr) (s s' t t' : State), exec i s = .next t → exec i s' = .next t' →
    ((∀ r, s.getZ r = s'.getZ r) → ∀ r, t.getZ r = t'.getZ r) ∧
    ((∀ r, s.getW r = s'.getW r) → (∀ r, s.getN r = s'.getN r) → (∀ k, s.entry k = s'.entry k) →
      (∀ r, t.getW r = t'.getW r) ∧ (∀ r, t.getN r = t'.getN r) ∧ ∀ k, t.entry k = t'.entry k)

/-- Every command is total, and every step: the answer is always a next state (00_scope R18, 44_merge R215, 45_decompose
R251). -/
def Obligations.EveryStepAnswersANextState : Prop :=
  (∀ (i : Instr) (s : State), ∃ t, exec i s = .next t) ∧ ∀ s : State, ∃ t, step s = .next t

/-- The invariant of a command boundary holds after reset. -/
def Obligations.InvariantHoldsAtReset : Prop := State.reset.Inv

/-- Every step keeps the invariant: N registers empty or well formed, LIST within LIST_DEPTH and of well-formed Subnets, the
exception record in agreement with STATUS, PASSES within LIST_DEPTH (10_state R25, R35, R36; 44_merge R200). -/
def Obligations.EveryStepKeepsTheInvariant : Prop := ∀ s t : State, s.Inv → step s = .next t → t.Inv

/-- The state after reset, and what asserting reset does to any state: the registers at the values of 70_reset_and_hazards
R311. That no word is presented yet is the model's choice (log 4); that reset keeps the words not yet taken is log 9. -/
def Obligations.ResetState : Prop :=
  (∀ r, State.reset.getW r = 0) ∧ (∀ r, State.reset.getZ r = 0) ∧
  (∀ r, State.reset.getN r = { base := 0, plen := 0, fw := 0 }) ∧
  State.reset.t = false ∧ State.reset.c = false ∧ State.reset.cmp = .equal ∧ State.reset.halted = false ∧
  State.reset.rerr = false ∧ State.reset.cause = 0 ∧ State.reset.epc = 0 ∧ State.reset.einfo = 0 ∧ State.reset.llen = 0 ∧
  State.reset.passes = 0 ∧ State.reset.cmdcnt = 0 ∧ State.reset.pending = [] ∧ State.reset.res = [] ∧
  ∀ s : State, s.assertReset = State.reset.present s.cmd

/-- Every run ends: from any state, within as many steps as there are words to take, the run is done, halted or stuck, and
stays so (70_reset_and_hazards R325, R332). That a waiting or halted unit's step answers the same state is the model's (log
6). -/
def Obligations.EveryRunEnds : Prop :=
  ∀ s : State, ∃ k t, k ≤ s.pending.length + s.cmd.length ∧ core.run k s = .next t ∧ t.runEnd ≠ none ∧ step t = .next t

/-- 00_scope R8: an address of n <= 16 bytes in network order is sum(b[k] * 256^(n-1-k)); a value is in family w when it is
below 2^w, which for 32 means that bits 127:32 are zero and for 128 is always so. -/
def Obligations.AddressBytesAreBigEndian : Prop :=
  (∀ bytes : List (BitVec 8), bytes.length ≤ 16 →
    (addressOfBytes bytes).toNat =
      ((List.range bytes.length).map fun k => (bytes.getD k 0).toNat * 256 ^ (bytes.length - 1 - k)).sum) ∧
  ∀ a : WideUint, (∀ w, inFamily a w = true ↔ a.toNat < 2 ^ w) ∧ (inFamily a 32 = true ↔ a.extractLsb' 32 96 = 0) ∧
    inFamily a 128 = true

end
end

