-- ==== Sys2Proof/Laws/Arith.lean ====
section
/-! SUPPORT. The arithmetic of the wide-integer unit and the mask table, brought down to numbers. -/

namespace Sys2Proof

/-- LIST_DEPTH is at least 1 (00_scope R6). -/
theorem Config.one_le_listDepth : 1 ≤ Config.listDepth := by unfold listDepth; omega
/-- LIST_DEPTH is at most 65536 (00_scope R6). -/
theorem Config.listDepth_le : Config.listDepth ≤ 65536 := by unfold listDepth; omega

namespace Machine

/-! ### Halves -/

theorem toNat_highHalf (v : WideUint) : (highHalf v).toNat = v.toNat / 2 ^ 64 := by
  have := v.isLt
  simp only [highHalf, BitVec.extractLsb'_toNat, Nat.shiftRight_eq_div_pow]; omega

theorem toNat_lowHalf (v : WideUint) : (lowHalf v).toNat = v.toNat % 2 ^ 64 := by
  simp [lowHalf, BitVec.extractLsb'_toNat]

theorem toNat_append_halves (a b : BitVec 64) : (a ++ b : BitVec 128).toNat = a.toNat * 2 ^ 64 + b.toNat := by
  rw [BitVec.toNat_append, ← Nat.shiftLeft_add_eq_or_of_lt b.isLt, Nat.shiftLeft_eq]

theorem toNat_append_bit (a : BitVec 63) (b : BitVec 1) : (a ++ b : BitVec 64).toNat = a.toNat * 2 + b.toNat := by
  rw [BitVec.toNat_append, ← Nat.shiftLeft_add_eq_or_of_lt b.isLt, Nat.shiftLeft_eq, pow_one]

/-- The comparator by halves is the comparison of the numbers (40_wideuint R123). -/
theorem compareWide_eq (a b : WideUint) :
    compareWide a b = if a.toNat < b.toNat then .less else if b.toNat < a.toNat then .greater else .equal := by
  unfold compareWide
  simp only [BitVec.lt_def, toNat_highHalf, toNat_lowHalf]
  split_ifs <;> first | rfl | omega

/-- The shifter by halves is the doubling (40_wideuint R127, 00_scope R16). -/
theorem toNat_shl1 (v : WideUint) : (shl1 v).toNat = (2 * v.toNat) % 2 ^ 128 := by
  have hv := v.isLt
  unfold shl1
  rw [toNat_append_halves, toNat_append_bit, toNat_append_bit]
  simp only [BitVec.extractLsb'_toNat, Nat.shiftRight_eq_div_pow]
  simp
  omega

theorem shl1_eq (v : WideUint) : shl1 v = v <<< 1 := by
  apply BitVec.eq_of_toNat_eq
  rw [toNat_shl1, BitVec.toNat_shiftLeft, Nat.shiftLeft_eq, Nat.mul_comm]

/-- The increment by halves is the increment (40_wideuint R129). -/
theorem increment_eq (e : WideUint) : increment e = e + 1 := by
  apply BitVec.eq_of_toNat_eq
  have he := e.isLt
  unfold increment
  rw [toNat_append_halves]
  have hl : (lowHalf e = (0xFFFFFFFFFFFFFFFF : BitVec 64)) ↔ e.toNat % 2 ^ 64 = 2 ^ 64 - 1 := by
    rw [← BitVec.toNat_inj, toNat_lowHalf]; simp
  by_cases h : lowHalf e = (0xFFFFFFFFFFFFFFFF : BitVec 64)
  · rw [if_pos h]
    have := hl.mp h
    simp only [BitVec.toNat_add, toNat_highHalf, toNat_lowHalf]
    simp
    omega
  · rw [if_neg h]
    have := mt hl.mpr h
    simp only [BitVec.toNat_add, toNat_highHalf, toNat_lowHalf]
    simp
    omega

theorem nextBegin_eq (v m : WideUint) : nextBegin v m = rangeEnd v m + 1 := increment_eq _

/-! ### Trailing ones (40_wideuint R131) -/

theorem countTrailingOnes_le (v : WideUint) : countTrailingOnes v ≤ 128 := by
  unfold countTrailingOnes
  cases h : (List.range 128).find? fun i => !v.getLsbD i with
  | none => simp
  | some i =>
    have := List.mem_of_find?_eq_some h
    rw [List.mem_range] at this
    rw [Option.getD_some]; omega

theorem getLsbD_of_lt_countTrailingOnes {v : WideUint} {i : Nat} (h : i < countTrailingOnes v) : v.getLsbD i = true := by
  have hle := lt_of_lt_of_le h (countTrailingOnes_le v)
  unfold countTrailingOnes at h
  cases hf : (List.range 128).find? fun i => !v.getLsbD i with
  | none =>
    have := List.find?_eq_none.mp hf i (by simp; omega)
    simpa using this
  | some k =>
    rw [hf] at h
    have hk := List.mem_of_find?_eq_some hf
    simp only [List.mem_range, Option.getD_some] at hk h
    have := (List.find?_range_eq_some.mp hf).2.2 i h
    simpa using this

theorem getLsbD_countTrailingOnes {v : WideUint} (h : countTrailingOnes v < 128) :
    v.getLsbD (countTrailingOnes v) = false := by
  unfold countTrailingOnes at h ⊢
  cases hf : (List.range 128).find? fun i => !v.getLsbD i with
  | none => simp [hf] at h
  | some k => simpa using List.find?_some hf

/-! ### Masks (41_masktable R150, R153) -/

theorem getLsbD_maskAddress (p w i : Nat) : (maskAddress p w).getLsbD i = (decide (w - p ≤ i) && decide (i < 128)) := by
  simp only [maskAddress, BitVec.getLsbD_shiftLeft, BitVec.getLsbD_allOnes]
  by_cases h1 : i < 128 <;> by_cases h2 : i < w - p <;> simp [h1, h2] <;> omega

/-- Masking is clearing the low w - p bits. -/
theorem and_maskAddress_eq (a : WideUint) (p w : Nat) : a &&& maskAddress p w = (a >>> (w - p)) <<< (w - p) := by
  apply BitVec.eq_of_getLsbD_eq
  intro i hi
  simp only [BitVec.getLsbD_and, getLsbD_maskAddress, BitVec.getLsbD_shiftLeft, BitVec.getLsbD_ushiftRight]
  by_cases h : w - p ≤ i
  · simp [h, hi, Nat.not_lt.mpr h]
  · simp [h, hi, Nat.not_le.mp h]

/-- Masking rounds down to a multiple of the block size. -/
theorem toNat_and_maskAddress (a : WideUint) (p w : Nat) :
    (a &&& maskAddress p w).toNat = a.toNat / 2 ^ (w - p) * 2 ^ (w - p) := by
  rw [and_maskAddress_eq, BitVec.toNat_shiftLeft, BitVec.toNat_ushiftRight, Nat.shiftLeft_eq, Nat.shiftRight_eq_div_pow]
  exact Nat.mod_eq_of_lt (lt_of_le_of_lt (Nat.div_mul_le_self _ _) a.isLt)

/-- An address is aligned exactly when it is a multiple of the block size (R153 (e)). -/
theorem and_maskAddress_eq_self_iff (a : WideUint) (p w : Nat) : a &&& maskAddress p w = a ↔ 2 ^ (w - p) ∣ a.toNat := by
  rw [← BitVec.toNat_inj, toNat_and_maskAddress]
  constructor
  · intro h; exact ⟨_, by rw [mul_comm]; exact h.symm⟩
  · intro h; exact Nat.div_mul_cancel h

theorem toNat_maskSize {p w : Nat} (h : w - p ≤ 128) : (maskSize p w).toNat = 2 ^ (w - p) := by
  unfold maskSize
  rw [BitVec.toNat_shiftLeft, Nat.shiftLeft_eq]
  have : (2 : Nat) ^ (w - p) < 2 ^ 129 := Nat.pow_lt_pow_right (by omega) (by omega)
  simp only [BitVec.ofNat_eq_ofNat, BitVec.toNat_ofNat]
  rw [show 1 % 2 ^ 129 = 1 from rfl, one_mul, Nat.mod_eq_of_lt this]

theorem getLsbD_maskSize (p w i : Nat) : (maskSize p w).getLsbD i = (decide (i = w - p) && decide (i < 129)) := by
  simp only [maskSize, BitVec.getLsbD_shiftLeft]
  by_cases h1 : i < 129 <;> by_cases h2 : i < w - p <;> simp [h1, h2, BitVec.getLsbD_one] <;> omega

/-- The host mask: NOT m has exactly the low w - p bits set (R153 (a)). -/
theorem toNat_not_maskAddress {p w : Nat} (h : w - p ≤ 128) : (~~~maskAddress p w).toNat = 2 ^ (w - p) - 1 := by
  have h1 : ~~~maskAddress p w = BitVec.ofNat 128 (2 ^ (w - p) - 1) := by
    apply BitVec.eq_of_getLsbD_eq
    intro i hi
    rw [BitVec.getLsbD_not, getLsbD_maskAddress, BitVec.getLsbD_ofNat, Nat.testBit_two_pow_sub_one]
    by_cases h2 : i < w - p <;> simp [hi, h2] <;> omega
  rw [h1, BitVec.toNat_ofNat, Nat.mod_eq_of_lt]
  have : (2 : Nat) ^ (w - p) ≤ 2 ^ 128 := Nat.pow_le_pow_right (by omega) h
  have := Nat.two_pow_pos (w - p)
  omega

/-- The last address of an aligned block is its base plus its size less one (40_wideuint R128). -/
theorem toNat_rangeEnd_maskAddress {a : WideUint} {p w : Nat} (h : w - p ≤ 128) :
    (rangeEnd a (maskAddress p w)).toNat = a.toNat / 2 ^ (w - p) * 2 ^ (w - p) + (2 ^ (w - p) - 1) := by
  have h1 : rangeEnd a (maskAddress p w) = (a &&& maskAddress p w) ||| ~~~maskAddress p w := by
    apply BitVec.eq_of_getLsbD_eq
    intro i hi
    simp only [rangeEnd, BitVec.getLsbD_or, BitVec.getLsbD_and, BitVec.getLsbD_not]
    cases a.getLsbD i <;> cases (maskAddress p w).getLsbD i <;> simp [hi]
  rw [h1, BitVec.toNat_or, toNat_and_maskAddress, toNat_not_maskAddress h, Nat.mul_comm]
  have : 2 ^ (w - p) - 1 < 2 ^ (w - p) := by have := Nat.two_pow_pos (w - p); omega
  exact (Nat.two_pow_add_eq_or_of_lt this _).symm

/-- The narrowest mask is ALLONES for both families (R153 (c)). -/
@[simp] theorem maskAddress_self (w : Nat) : maskAddress w w = allOnes := by simp [maskAddress]

/-- Widening by shift (R153 (b)). -/
theorem shl1_maskAddress {p w : Nat} (h1 : 1 ≤ p) (h2 : p ≤ w) : shl1 (maskAddress p w) = maskAddress (p - 1) w := by
  rw [shl1_eq, maskAddress, maskAddress, ← BitVec.shiftLeft_add]
  congr 1; omega

theorem inFamily_iff (a : WideUint) (w : Nat) : inFamily a w = true ↔ a.toNat < 2 ^ w := by simp [inFamily]
@[simp] theorem inFamily_128 (a : WideUint) : inFamily a 128 = true := by rw [inFamily_iff]; exact a.isLt

/-- Masking an in-family address keeps it in family (R153 (f)). -/
theorem inFamily_and {a : WideUint} {w : Nat} (m : WideUint) (h : inFamily a w = true) : inFamily (a &&& m) w = true := by
  rw [inFamily_iff] at *
  rw [BitVec.toNat_and]
  exact lt_of_le_of_lt Nat.and_le_left h

/-! ### Words -/

@[simp] theorem length_wideWords (v : WideUint) : (wideWords v).length = 4 := rfl
@[simp] theorem length_counterWords (z : Counter) : (counterWords z).length = 5 := rfl
@[simp] theorem length_subnetWords (x : Subnet) : (subnetWords x).length = 5 := rfl

end Machine

end Sys2Proof
end

