-- ==== Sys2Proof/Laws/Subnet.lean ====
section
/-! SUPPORT. Subnets as aligned blocks of addresses: well-formedness, containment, order and widening as statements about
numbers. -/

namespace Sys2Proof.Machine

/-- The exponent of the block size, fw - plen: the Subnet covers 2^exponent addresses (00_scope R11). -/
def Subnet.exponent (x : Subnet) : Nat := x.fw.toNat - x.plen.toNat

/-- The first address past the block. -/
def Subnet.stop (x : Subnet) : Nat := x.base.toNat + 2 ^ x.exponent

theorem Subnet.base_lt_stop (x : Subnet) : x.base.toNat < x.stop := by
  have := Nat.two_pow_pos x.exponent; unfold Subnet.stop; omega

/-- Two Subnets with equal fields as numbers are equal. -/
theorem Subnet.ext_toNat {x y : Subnet} (hf : x.fw.toNat = y.fw.toNat) (hb : x.base.toNat = y.base.toNat)
    (hp : x.plen.toNat = y.plen.toNat) : x = y := by
  cases x; cases y
  simp only [Subnet.mk.injEq]
  exact ⟨BitVec.eq_of_toNat_eq hb, BitVec.eq_of_toNat_eq hp, BitVec.eq_of_toNat_eq hf⟩

/-- Well-formedness as numbers (00_scope R11). -/
theorem Subnet.wellFormed_iff (x : Subnet) :
    x.wellFormed = true ↔
      (x.fw.toNat = 32 ∨ x.fw.toNat = 128) ∧ x.plen.toNat ≤ x.fw.toNat ∧ x.base.toNat < 2 ^ x.fw.toNat ∧
      2 ^ x.exponent ∣ x.base.toNat := by
  unfold Subnet.wellFormed
  rw [Bool.and_eq_true, Bool.and_eq_true, romIndex, Bool.and_eq_true, inFamily_iff, beq_iff_eq, Subnet.mask,
    and_maskAddress_eq_self_iff]
  simp only [validWidth, Bool.or_eq_true, beq_iff_eq, decide_eq_true_eq]
  exact ⟨fun ⟨⟨⟨a, b⟩, c⟩, d⟩ => ⟨a, b, c, d⟩, fun ⟨a, b, c, d⟩ => ⟨⟨⟨a, b⟩, c⟩, d⟩⟩

theorem Subnet.exponent_le {x : Subnet} (h : x.wellFormed = true) : x.exponent ≤ 128 := by
  have := (Subnet.wellFormed_iff x).mp h; unfold Subnet.exponent; omega

/-- The addresses a Subnet covers (00_scope R11). -/
theorem Subnet.covers_iff (x : Subnet) (a : Nat) : x.covers a = true ↔ x.base.toNat ≤ a ∧ a < x.stop := by
  unfold Subnet.covers Subnet.lastAddress Subnet.stop Subnet.exponent
  have := Nat.two_pow_pos (x.fw.toNat - x.plen.toNat)
  simp only [Bool.and_eq_true, decide_eq_true_eq]; omega

/-- Same family, base and block size: the same well-formed Subnet. -/
theorem Subnet.eq_of_block {x y : Subnet} (hx : x.wellFormed = true) (hy : y.wellFormed = true)
    (hf : x.fw.toNat = y.fw.toNat) (hb : x.base.toNat = y.base.toNat) (he : x.exponent = y.exponent) : x = y := by
  have h1 := (Subnet.wellFormed_iff x).mp hx
  have h2 := (Subnet.wellFormed_iff y).mp hy
  unfold Subnet.exponent at he
  exact Subnet.ext_toNat hf hb (by omega)

/-! ### Aligned blocks of numbers -/

/-- Of two aligned blocks, one that starts inside the other, and is no wider where the starts agree, lies inside it. -/
theorem block_inside {i j a b : Nat} (ha : 2 ^ i ∣ a) (hb : 2 ^ j ∣ b) (h1 : a ≤ b) (h2 : b < a + 2 ^ i)
    (h3 : a = b → j ≤ i) : b + 2 ^ j ≤ a + 2 ^ i := by
  by_cases hji : j ≤ i
  · have hd : 2 ^ j ∣ 2 ^ i := pow_dvd_pow 2 hji
    have hs : 2 ^ j ∣ (a + 2 ^ i) - b := Nat.dvd_sub (Dvd.dvd.add (dvd_trans hd ha) hd) hb
    have := Nat.le_of_dvd (by omega) hs
    omega
  · have hd : 2 ^ i ∣ b := dvd_trans (pow_dvd_pow 2 (by omega)) hb
    have hs : 2 ^ i ∣ b - a := Nat.dvd_sub hd ha
    rcases Nat.eq_zero_or_pos (b - a) with h0 | h0
    · exact absurd (h3 (by omega)) hji
    · have := Nat.le_of_dvd h0 hs
      omega

/-- Two aligned blocks are apart or one lies inside the other (43_subnet R193). -/
theorem block_apart_or_inside {i j a b : Nat} (ha : 2 ^ i ∣ a) (hb : 2 ^ j ∣ b) :
    a + 2 ^ i ≤ b ∨ b + 2 ^ j ≤ a ∨ (a ≤ b ∧ b + 2 ^ j ≤ a + 2 ^ i) ∨ (b ≤ a ∧ a + 2 ^ i ≤ b + 2 ^ j) := by
  rcases Nat.lt_trichotomy a b with h | h | h
  · by_cases h2 : b < a + 2 ^ i
    · exact .inr (.inr (.inl ⟨by omega, block_inside ha hb (by omega) h2 (by omega)⟩))
    · exact .inl (by omega)
  · subst h
    rcases Nat.le_total i j with hij | hij
    · exact .inr (.inr (.inr ⟨le_refl _, Nat.add_le_add_left (Nat.pow_le_pow_right (by omega) hij) _⟩))
    · exact .inr (.inr (.inl ⟨le_refl _, Nat.add_le_add_left (Nat.pow_le_pow_right (by omega) hij) _⟩))
  · by_cases h2 : a < b + 2 ^ j
    · exact .inr (.inr (.inr ⟨by omega, block_inside hb ha (by omega) h2 (by omega)⟩))
    · exact .inr (.inl (by omega))

/-- Rounding down to a multiple gives `c` exactly in the block that starts at the multiple `c`. -/
theorem round_down_eq_iff {i b c : Nat} (hc : 2 ^ i ∣ c) : b / 2 ^ i * 2 ^ i = c ↔ c ≤ b ∧ b < c + 2 ^ i := by
  obtain ⟨q, rfl⟩ := hc
  have hp := Nat.two_pow_pos i
  rw [mul_comm (2 ^ i) q]
  constructor
  · intro h
    have h2 := Nat.div_add_mod b (2 ^ i)
    have h3 := Nat.mod_lt b hp
    rw [mul_comm] at h2
    omega
  · rintro ⟨h1, h2⟩
    congr 1
    apply Nat.div_eq_of_lt_le h1
    rw [Nat.succ_mul]; exact h2

/-! ### includes (43_subnet R185) -/

theorem includes_iff_round (o i : Subnet) :
    includes o i = true ↔ o.fw.toNat = i.fw.toNat ∧ i.base.toNat / 2 ^ o.exponent * 2 ^ o.exponent = o.base.toNat := by
  unfold includes
  rw [Bool.and_eq_true, beq_iff_eq, beq_iff_eq, ← BitVec.toNat_inj, ← BitVec.toNat_inj, Subnet.mask, toNat_and_maskAddress]
  exact Iff.rfl

/-- A well-formed outer Subnet includes an inner one exactly when they share the family and the inner base is one of its
addresses. -/
theorem includes_iff {o i : Subnet} (ho : o.wellFormed = true) :
    includes o i = true ↔ o.fw.toNat = i.fw.toNat ∧ o.base.toNat ≤ i.base.toNat ∧ i.base.toNat < o.stop := by
  have h := ((Subnet.wellFormed_iff o).mp ho).2.2.2
  rw [includes_iff_round, round_down_eq_iff h]; exact Iff.rfl

/-- An inner Subnet that is not wider lies inside, wholly. -/
theorem stop_le_of_includes {o i : Subnet} (ho : o.wellFormed = true) (hi : i.wellFormed = true)
    (h : includes o i = true) (hp : o.base = i.base → o.plen.toNat ≤ i.plen.toNat) : i.stop ≤ o.stop := by
  obtain ⟨hf, h1, h2⟩ := (includes_iff ho).mp h
  have wo := (Subnet.wellFormed_iff o).mp ho
  have wi := (Subnet.wellFormed_iff i).mp hi
  refine block_inside wo.2.2.2 wi.2.2.2 h1 h2 fun hb => ?_
  have := hp (BitVec.eq_of_toNat_eq hb)
  unfold Subnet.exponent; omega

/-! ### lessThan (43_subnet R186, 00_scope R12) -/

theorem lessThan_iff (a b : Subnet) :
    lessThan a b = true ↔
      a.fw.toNat < b.fw.toNat ∨ (a.fw.toNat = b.fw.toNat ∧ a.base.toNat < b.base.toNat) ∨
      (a.fw.toNat = b.fw.toNat ∧ a.base.toNat = b.base.toNat ∧ a.plen.toNat < b.plen.toNat) := by
  unfold lessThan
  simp only [Bool.or_eq_true, Bool.and_eq_true, decide_eq_true_eq, beq_iff_eq, BitVec.lt_def, ← BitVec.toNat_inj]
  tauto

theorem lessThan_irrefl (a : Subnet) : lessThan a a = false := by
  rw [Bool.eq_false_iff, ne_eq, lessThan_iff]; omega

theorem lessThan_trans {a b c : Subnet} (h1 : lessThan a b = true) (h2 : lessThan b c = true) : lessThan a c = true := by
  rw [lessThan_iff] at *; omega

theorem lessThan_asymm {a b : Subnet} (h : lessThan a b = true) : lessThan b a = false := by
  rw [Bool.eq_false_iff, ne_eq, lessThan_iff]; rw [lessThan_iff] at h; omega

/-- Two Subnets neither of which is less than the other are equal in all three fields (R12). -/
theorem eq_of_not_lessThan {a b : Subnet} (h1 : lessThan a b = false) (h2 : lessThan b a = false) : a = b := by
  rw [Bool.eq_false_iff, ne_eq, lessThan_iff] at h1 h2
  exact Subnet.ext_toNat (by omega) (by omega) (by omega)

/-! ### widen (43_subnet R187) -/

theorem toNat_plen_pred {x : Subnet} (h : x.plen ≠ 0) : (x.plen - 1).toNat = x.plen.toNat - 1 ∧ 1 ≤ x.plen.toNat := by
  have h0 : x.plen.toNat ≠ 0 := fun hc => h (BitVec.eq_of_toNat_eq hc)
  have := x.plen.isLt
  refine ⟨?_, by omega⟩
  rw [BitVec.toNat_sub]
  have h1 : (1 : BitVec 8).toNat = 1 := rfl
  omega

theorem widen_of_zero {x : Subnet} (h : x.plen = 0) : widen x = (x, true) := by simp [widen, h]

/-- Widening below prefix length 0 succeeds exactly when the base is aligned to the doubled block. -/
theorem widen_of_ne_zero {x : Subnet} (h : x.plen ≠ 0) :
    widen x = if 2 ^ (x.fw.toNat - (x.plen.toNat - 1)) ∣ x.base.toNat then ({ x with plen := x.plen - 1 }, true)
      else (x, false) := by
  unfold widen
  rw [if_neg h]
  simp only [(toNat_plen_pred h).1, and_maskAddress_eq_self_iff]

/-- What a successful widening of a well-formed Subnet with prefix length at least 1 is. -/
theorem widen_ok {x : Subnet} (hx : x.wellFormed = true) (h : x.plen ≠ 0) (hok : (widen x).2 = true) :
    (widen x).1.wellFormed = true ∧ (widen x).1.fw = x.fw ∧ (widen x).1.base = x.base ∧
    (widen x).1.exponent = x.exponent + 1 := by
  have hw := (Subnet.wellFormed_iff x).mp hx
  obtain ⟨hp, h1⟩ := toNat_plen_pred h
  rw [widen_of_ne_zero h] at hok ⊢
  split at hok
  · rename_i hd
    rw [if_pos hd]
    refine ⟨?_, rfl, rfl, ?_⟩
    · rw [Subnet.wellFormed_iff]
      unfold Subnet.exponent
      dsimp only
      rw [hp]
      exact ⟨hw.1, by omega, hw.2.2.1, hd⟩
    · unfold Subnet.exponent; dsimp only; rw [hp]; omega
  · cases hok

theorem widen_wellFormed {x : Subnet} (hx : x.wellFormed = true) : (widen x).1.wellFormed = true := by
  by_cases h : x.plen = 0
  · rw [widen_of_zero h]; exact hx
  · by_cases hok : (widen x).2 = true
    · exact (widen_ok hx h hok).1
    · rw [widen_of_ne_zero h] at hok ⊢
      split at hok
      · exact absurd rfl hok
      · rename_i hd; rw [if_neg hd]; exact hx

end Sys2Proof.Machine
end

