-- ==== Sys2Proof/Laws/Merge.lean ====
section
/-! SUPPORT. The merge engine: what the sort, the dedup scan, a fuse pass and the fixpoint loop keep and establish. -/

namespace Sys2Proof.Machine

/-! ### Lists of blocks -/

/-- Every entry is a well-formed Subnet. -/
def AllWF (l : ListMem) : Prop := ∀ x ∈ l, x.wellFormed = true

/-- `a` comes wholly before `b`: a smaller family, or the same family and all of `a` below `b`. -/
def Before (a b : Subnet) : Prop := a.fw.toNat < b.fw.toNat ∨ (a.fw.toNat = b.fw.toNat ∧ a.stop ≤ b.base.toNat)

/-- Address `a` of family `w` is covered by the list. -/
def Covered (l : ListMem) (w a : Nat) : Prop := ∃ x ∈ l, x.fw.toNat = w ∧ x.base.toNat ≤ a ∧ a < x.stop

theorem Before.trans {a b c : Subnet} (h1 : Before a b) (h2 : Before b c) : Before a c := by
  have := b.base_lt_stop
  unfold Before at *; omega

theorem Before.lessThan {a b : Subnet} (h : Before a b) : lessThan a b = true := by
  have := a.base_lt_stop
  rw [lessThan_iff]; unfold Before at h; omega

/-- In a list of blocks each wholly before the next, each is wholly before every later one. -/
theorem pairwise_before_of_isChain {l : ListMem} (h : l.IsChain Before) : l.Pairwise Before := by
  haveI : IsTrans Subnet Before := ⟨fun _ _ _ => Before.trans⟩
  exact List.isChain_iff_pairwise.mp h

theorem covered_nil (w a : Nat) : ¬Covered [] w a := by rintro ⟨x, hx, _⟩; cases hx

theorem covered_cons (x : Subnet) (l : ListMem) (w a : Nat) :
    Covered (x :: l) w a ↔ (x.fw.toNat = w ∧ x.base.toNat ≤ a ∧ a < x.stop) ∨ Covered l w a := by
  unfold Covered; simp [or_and_right, exists_or]

theorem covered_perm {l l' : ListMem} (h : l.Perm l') (w a : Nat) : Covered l w a ↔ Covered l' w a := by
  unfold Covered
  simp only [h.mem_iff]

theorem allWF_cons {x : Subnet} {l : ListMem} : AllWF (x :: l) ↔ x.wellFormed = true ∧ AllWF l := by
  unfold AllWF; simp

/-! ### Sort (44_merge R210) -/

theorem inOrder_trans : ∀ a b c : Subnet, inOrder a b → inOrder b c → inOrder a c := by
  intro a b c h1 h2
  unfold inOrder at *
  rw [Bool.eq_false_iff, ne_eq, lessThan_iff] at *
  omega

theorem inOrder_total (a b : Subnet) : inOrder a b ∨ inOrder b a := by
  by_cases h : lessThan b a = true
  · exact .inr (lessThan_asymm h)
  · exact .inl (by simpa using h)

theorem inOrder_antisymm {a b : Subnet} (h1 : inOrder a b) (h2 : inOrder b a) : a = b := eq_of_not_lessThan h2 h1

theorem sortList_perm (l : ListMem) : (sortList l).Perm l := List.perm_insertionSort _ l

theorem sortList_pairwise (l : ListMem) : (sortList l).Pairwise inOrder := by
  haveI : Std.Total (α := Subnet) inOrder := ⟨inOrder_total⟩
  haveI : IsTrans Subnet inOrder := ⟨inOrder_trans⟩
  exact List.pairwise_insertionSort inOrder l

/-- The sorted list is determined by the multiset of entries. -/
theorem eq_of_perm_of_pairwise {l l' : ListMem} (hp : l.Perm l') (h1 : l.Pairwise inOrder) (h2 : l'.Pairwise inOrder) :
    l = l' := by
  haveI : Std.Antisymm (α := Subnet) inOrder := ⟨fun _ _ => inOrder_antisymm⟩
  exact hp.eq_of_pairwise' h1 h2

theorem sortList_congr {l l' : ListMem} (h : l.Perm l') : sortList l = sortList l' :=
  eq_of_perm_of_pairwise (((sortList_perm l).trans h).trans (sortList_perm l').symm) (sortList_pairwise l)
    (sortList_pairwise l')

theorem sortList_of_pairwise {l : ListMem} (h : l.Pairwise inOrder) : sortList l = l :=
  eq_of_perm_of_pairwise (sortList_perm l) (sortList_pairwise l) h

theorem sortList_allWF {l : ListMem} (h : AllWF l) : AllWF (sortList l) :=
  fun x hx => h x ((sortList_perm l).mem_iff.mp hx)

/-! ### Dedup (44_merge R211) -/

/-- What the dedup scan leaves begins with the retained entry. -/
theorem dedupScan_head (r : Subnet) (l : ListMem) : ∃ t, dedupScan r l = r :: t := by
  induction l generalizing r with
  | nil => exact ⟨[], rfl⟩
  | cons x xs ih =>
    unfold dedupScan
    split
    · exact ih r
    · exact ⟨_, rfl⟩

theorem dedupScan_length (r : Subnet) (l : ListMem) : (dedupScan r l).length ≤ l.length + 1 := by
  induction l generalizing r with
  | nil => simp [dedupScan]
  | cons x xs ih =>
    unfold dedupScan
    split
    · have := ih r; simp only [List.length_cons]; omega
    · have := ih x; simp only [List.length_cons]; omega

theorem dedupList_length (l : ListMem) : (dedupList l).length ≤ l.length := by
  cases l with
  | nil => simp [dedupList]
  | cons x xs => exact dedupScan_length x xs

/-- In sorted order an entry not included in the retained one lies wholly after it. -/
theorem before_of_not_includes {r x : Subnet} (hr : r.wellFormed = true) (ho : inOrder r x)
    (hn : ¬includes r x = true) : Before r x := by
  rw [includes_iff hr] at hn
  unfold inOrder at ho
  rw [Bool.eq_false_iff, ne_eq, lessThan_iff] at ho
  unfold Before; omega

/-- In sorted order an included entry lies wholly inside the retained one. -/
theorem inside_of_includes {r x : Subnet} (hr : r.wellFormed = true) (hx : x.wellFormed = true) (ho : inOrder r x)
    (hi : includes r x = true) : r.fw.toNat = x.fw.toNat ∧ r.base.toNat ≤ x.base.toNat ∧ x.stop ≤ r.stop := by
  obtain ⟨h1, h2, _⟩ := (includes_iff hr).mp hi
  refine ⟨h1, h2, stop_le_of_includes hr hx hi fun hb => ?_⟩
  unfold inOrder at ho
  rw [Bool.eq_false_iff, ne_eq, lessThan_iff] at ho
  have : r.base.toNat = x.base.toNat := congrArg BitVec.toNat hb
  omega

/-- The dedup scan over a sorted list: the retained entries are well-formed, each wholly before the next, and cover the
same addresses. -/
theorem dedupScan_spec {r : Subnet} {l : ListMem} (hw : AllWF (r :: l)) (hs : (r :: l).Pairwise inOrder) :
    AllWF (dedupScan r l) ∧ (dedupScan r l).IsChain Before ∧ ∀ w a, Covered (dedupScan r l) w a ↔ Covered (r :: l) w a := by
  induction l generalizing r with
  | nil => exact ⟨hw, .singleton r, fun _ _ => Iff.rfl⟩
  | cons x xs ih =>
    obtain ⟨hr, hx, hxs⟩ : r.wellFormed = true ∧ x.wellFormed = true ∧ AllWF xs := by
      obtain ⟨h1, h2⟩ := allWF_cons.mp hw; exact ⟨h1, allWF_cons.mp h2⟩
    obtain ⟨hrall, hxsort⟩ := List.pairwise_cons.mp hs
    have hrx : inOrder r x := hrall x (by simp)
    unfold dedupScan
    split
    · rename_i hi
      have hs' : (r :: xs).Pairwise inOrder :=
        List.pairwise_cons.mpr ⟨fun y hy => hrall y (by simp [hy]), (List.pairwise_cons.mp hxsort).2⟩
      obtain ⟨h1, h2, h3⟩ := ih (allWF_cons.mpr ⟨hr, hxs⟩) hs'
      refine ⟨h1, h2, fun w a => ?_⟩
      rw [h3, covered_cons, covered_cons, covered_cons]
      obtain ⟨g1, g2, g3⟩ := inside_of_includes hr hx hrx hi
      constructor
      · rintro (h | h)
        · exact .inl h
        · exact .inr (.inr h)
      · rintro (h | h | h)
        · exact .inl h
        · exact .inl ⟨by omega, by omega, by omega⟩
        · exact .inr h
    · rename_i hn
      obtain ⟨h1, h2, h3⟩ := ih (allWF_cons.mpr ⟨hx, hxs⟩) hxsort
      obtain ⟨t, ht⟩ := dedupScan_head x xs
      refine ⟨allWF_cons.mpr ⟨hr, h1⟩, ?_, fun w a => ?_⟩
      · rw [ht] at h2 ⊢
        exact List.isChain_cons_cons.mpr ⟨before_of_not_includes hr hrx hn, h2⟩
      · rw [covered_cons, h3, ← covered_cons]

/-- The list after sort and dedup: well formed, each block wholly before the next, the same addresses. -/
theorem dedup_sort_spec {l : ListMem} (hw : AllWF l) :
    AllWF (dedupList (sortList l)) ∧ (dedupList (sortList l)).IsChain Before ∧
    ∀ w a, Covered (dedupList (sortList l)) w a ↔ Covered l w a := by
  have h1 := sortList_allWF hw
  have h2 := sortList_pairwise l
  have h3 := covered_perm (sortList_perm l)
  cases hl : sortList l with
  | nil => rw [hl] at h3; exact ⟨by simp [dedupList, AllWF], by simp [dedupList], h3⟩
  | cons x xs =>
    rw [hl] at h1 h2 h3
    obtain ⟨g1, g2, g3⟩ := dedupScan_spec h1 h2
    exact ⟨g1, g2, fun w a => (g3 w a).trans (h3 w a)⟩

/-- A list of blocks each wholly before the next loses nothing in the dedup scan. -/
theorem dedupScan_of_isChain {r : Subnet} {l : ListMem} (hw : AllWF (r :: l)) (h : (r :: l).IsChain Before) :
    dedupScan r l = r :: l := by
  induction l generalizing r with
  | nil => rfl
  | cons x xs ih =>
    obtain ⟨h1, h2⟩ := List.isChain_cons_cons.mp h
    obtain ⟨hr, hxs⟩ := allWF_cons.mp hw
    have hn : ¬includes r x = true := by
      rw [includes_iff hr]; unfold Before at h1; omega
    unfold dedupScan
    rw [if_neg hn, ih hxs h2]

theorem dedupList_of_isChain {l : ListMem} (hw : AllWF l) (h : l.IsChain Before) : dedupList l = l := by
  cases l with
  | nil => rfl
  | cons x xs => exact dedupScan_of_isChain hw h

/-! ### Fuse (44_merge R212, R213) -/

/-- When the retained entry fuses with an entry wholly after it, the two are the halves of the widened block (R213). -/
theorem fuses_spec {r x : Subnet} (hr : r.wellFormed = true) (hx : x.wellFormed = true) (hb : Before r x)
    (hf : fuses r x = true) :
    r.plen ≠ 0 ∧ (widen r).1.wellFormed = true ∧ (widen r).1.fw = r.fw ∧ x.fw = r.fw ∧ (widen r).1.base = r.base ∧
    x.base.toNat = r.stop ∧ (widen r).1.stop = x.stop ∧ x.exponent = r.exponent := by
  unfold fuses at hf
  rw [Bool.and_eq_true, Bool.and_eq_true, beq_iff_eq] at hf
  obtain ⟨⟨hok, hp⟩, hi⟩ := hf
  have wr := (Subnet.wellFormed_iff r).mp hr
  have wx := (Subnet.wellFormed_iff x).mp hx
  have hpn : r.plen.toNat = x.plen.toNat := congrArg BitVec.toNat hp
  have hwc := widen_wellFormed hr
  obtain ⟨i1, i2, i3⟩ := (includes_iff hwc).mp hi
  have hne : r.plen ≠ 0 := by
    intro h0
    rw [widen_of_zero h0] at i1 i2 i3
    dsimp only at i1 i2 i3
    unfold Before at hb
    omega
  obtain ⟨_, c2, c3, c4⟩ := widen_ok hr hne hok
  have hfw : r.fw.toNat = x.fw.toNat := by rw [c2] at i1; exact i1
  have he : x.exponent = r.exponent := by unfold Subnet.exponent; rw [← hfw, ← hpn]
  have hstop : (widen r).1.stop = r.stop + 2 ^ r.exponent := by
    unfold Subnet.stop; rw [c3, c4, pow_succ]; omega
  have hle : r.stop ≤ x.base.toNat := by unfold Before at hb; omega
  have heq : x.base.toNat = r.stop := by
    have hd1 : 2 ^ r.exponent ∣ x.base.toNat := he ▸ wx.2.2.2
    have hd2 : 2 ^ r.exponent ∣ r.stop := Dvd.dvd.add wr.2.2.2 (dvd_refl _)
    have hd : 2 ^ r.exponent ∣ x.base.toNat - r.stop := Nat.dvd_sub hd1 hd2
    rcases Nat.eq_zero_or_pos (x.base.toNat - r.stop) with h0 | h0
    · omega
    · have := Nat.le_of_dvd h0 hd; omega
  refine ⟨hne, hwc, c2, (BitVec.eq_of_toNat_eq hfw).symm, c3, heq, ?_, he⟩
  rw [hstop, show x.stop = x.base.toNat + 2 ^ x.exponent from rfl, he, heq]

theorem fuseScan_head (r : Subnet) (l : ListMem) : ∃ y t, fuseScan r l = y :: t := by
  induction l generalizing r with
  | nil => exact ⟨r, [], rfl⟩
  | cons x xs ih =>
    unfold fuseScan
    split
    · exact ih _
    · exact ⟨_, _, rfl⟩

theorem fuseScan_length (r : Subnet) (l : ListMem) : (fuseScan r l).length ≤ l.length + 1 := by
  induction l generalizing r with
  | nil => simp [fuseScan]
  | cons x xs ih =>
    unfold fuseScan
    split
    · have := ih (widen r).1; simp only [List.length_cons]; omega
    · have := ih x; simp only [List.length_cons]; omega

/-- A pass never lengthens the list (R215). -/
theorem fusePass_length (l : ListMem) : (fusePass l).length ≤ l.length := by
  cases l with
  | nil => simp [fusePass]
  | cons x xs => exact fuseScan_length x xs

/-- A pass that keeps the length has changed no entry: no neighbours fuse (R214). -/
theorem fuseScan_eq_of_length {r : Subnet} {l : ListMem} (h : (fuseScan r l).length = l.length + 1) :
    fuseScan r l = r :: l ∧ (r :: l).IsChain fun a b => fuses a b = false := by
  induction l generalizing r with
  | nil => exact ⟨rfl, .singleton r⟩
  | cons x xs ih =>
    unfold fuseScan at h ⊢
    split at h
    · have := fuseScan_length (widen r).1 xs
      simp only [List.length_cons] at h; omega
    · rename_i hn
      obtain ⟨h1, h2⟩ := ih (r := x) (by simpa using h)
      rw [if_neg hn, h1]
      exact ⟨rfl, List.isChain_cons_cons.mpr ⟨by simpa using hn, h2⟩⟩

theorem fusePass_eq_of_length {l : ListMem} (h : (fusePass l).length = l.length) :
    fusePass l = l ∧ l.IsChain fun a b => fuses a b = false := by
  cases l with
  | nil => exact ⟨rfl, .nil⟩
  | cons x xs => exact fuseScan_eq_of_length h

/-- A list in which no neighbours fuse is left alone by a pass. -/
theorem fuseScan_of_isChain {r : Subnet} {l : ListMem} (h : (r :: l).IsChain fun a b => fuses a b = false) :
    fuseScan r l = r :: l := by
  induction l generalizing r with
  | nil => rfl
  | cons x xs ih =>
    obtain ⟨h1, h2⟩ := List.isChain_cons_cons.mp h
    unfold fuseScan
    rw [if_neg (by simp [h1]), ih h2]

theorem fusePass_of_isChain {l : ListMem} (h : l.IsChain fun a b => fuses a b = false) : fusePass l = l := by
  cases l with
  | nil => rfl
  | cons x xs => exact fuseScan_of_isChain h

/-- A fuse pass keeps well-formedness, order and the addresses covered, and keeps the first entry's base and family. -/
theorem fuseScan_spec {r : Subnet} {l : ListMem} (hw : AllWF (r :: l)) (hc : (r :: l).IsChain Before) :
    AllWF (fuseScan r l) ∧ (fuseScan r l).IsChain Before ∧
    (∀ w a, Covered (fuseScan r l) w a ↔ Covered (r :: l) w a) ∧
    ∃ y t, fuseScan r l = y :: t ∧ y.fw = r.fw ∧ y.base = r.base := by
  induction l generalizing r with
  | nil => exact ⟨hw, .singleton r, fun _ _ => Iff.rfl, r, [], rfl, rfl, rfl⟩
  | cons x xs ih =>
    obtain ⟨hr, hx, hxs⟩ : r.wellFormed = true ∧ x.wellFormed = true ∧ AllWF xs := by
      obtain ⟨h1, h2⟩ := allWF_cons.mp hw; exact ⟨h1, allWF_cons.mp h2⟩
    obtain ⟨hrx, hxc⟩ := List.isChain_cons_cons.mp hc
    unfold fuseScan
    split
    · rename_i hf
      obtain ⟨_, f2, f3, f4, f5, f6, f7, _⟩ := fuses_spec hr hx hrx hf
      have hc' : ((widen r).1 :: xs).IsChain Before := by
        cases xs with
        | nil => exact .singleton _
        | cons y ys =>
          obtain ⟨hxy, hyc⟩ := List.isChain_cons_cons.mp hxc
          refine List.isChain_cons_cons.mpr ⟨?_, hyc⟩
          unfold Before at hxy ⊢
          rw [f7, f3, ← f4]; exact hxy
      obtain ⟨h1, h2, h3, y, t, h4, h5, h6⟩ := ih (allWF_cons.mpr ⟨f2, hxs⟩) hc'
      refine ⟨h1, h2, fun w a => ?_, y, t, h4, h5.trans f3, h6.trans f5⟩
      rw [h3, covered_cons, covered_cons, covered_cons, f3, f4, f5, f6, f7]
      have hrs := r.base_lt_stop
      have hxs' := x.base_lt_stop
      rw [f6] at hxs'
      constructor
      · rintro (⟨h, h', h''⟩ | h)
        · by_cases ha : a < r.stop
          · exact .inl ⟨h, h', ha⟩
          · exact .inr (.inl ⟨h, by omega, h''⟩)
        · exact .inr (.inr h)
      · rintro (⟨h, h', h''⟩ | ⟨h, h', h''⟩ | h)
        · exact .inl ⟨h, h', by omega⟩
        · exact .inl ⟨h, by omega, h''⟩
        · exact .inr h
    · obtain ⟨h1, h2, h3, y, t, h4, h5, h6⟩ := ih (allWF_cons.mpr ⟨hx, hxs⟩) hxc
      refine ⟨allWF_cons.mpr ⟨hr, h1⟩, ?_, fun w a => ?_, r, _, rfl, rfl, rfl⟩
      · rw [h4] at h2 ⊢
        refine List.isChain_cons_cons.mpr ⟨?_, h2⟩
        unfold Before at hrx ⊢
        rw [h5, h6]; exact hrx
      · rw [covered_cons, h3, ← covered_cons]

theorem fusePass_spec {l : ListMem} (hw : AllWF l) (hc : l.IsChain Before) :
    AllWF (fusePass l) ∧ (fusePass l).IsChain Before ∧ ∀ w a, Covered (fusePass l) w a ↔ Covered l w a := by
  cases l with
  | nil => exact ⟨hw, hc, fun _ _ => Iff.rfl⟩
  | cons x xs =>
    obtain ⟨h1, h2, h3, _⟩ := fuseScan_spec hw hc
    exact ⟨h1, h2, h3⟩

/-! ### The fixpoint loop (44_merge R214, R215) -/

/-- The loop ends within any bound of at least `passBound`, after at most max(1, length) passes (R215). -/
theorem fuseLoop_isSome (fuel : Nat) (l : ListMem) (k : Nat) (h : passBound l.length ≤ fuel) :
    ∃ m p, fuseLoop fuel l k = some (m, p) ∧ k + 1 ≤ p ∧ p ≤ k + max 1 l.length ∧ m.length ≤ l.length := by
  unfold passBound at h
  induction fuel generalizing l k with
  | zero => omega
  | succ fuel ih =>
    have hle := fusePass_length l
    unfold fuseLoop
    dsimp only
    split
    · rename_i he; exact ⟨_, _, rfl, le_refl _, by omega, by omega⟩
    · rename_i hne
      have hpos : 1 ≤ (fusePass l).length := by
        cases l with
        | nil => simp [fusePass] at hne
        | cons x xs =>
          obtain ⟨y, t, ht⟩ := fuseScan_head x xs
          rw [fusePass, ht]; simp
      obtain ⟨m, p, h1, h2, h3, h4⟩ := ih (fusePass l) (k + 1) (by omega)
      exact ⟨m, p, h1, by omega, by omega, by omega⟩

/-- What the loop keeps, and the fixpoint it ends at. -/
theorem fuseLoop_spec {fuel : Nat} {l m : ListMem} {k p : Nat} (hw : AllWF l) (hc : l.IsChain Before)
    (h : fuseLoop fuel l k = some (m, p)) :
    AllWF m ∧ m.IsChain Before ∧ (∀ w a, Covered m w a ↔ Covered l w a) ∧ m.IsChain (fun a b => fuses a b = false) := by
  induction fuel generalizing l k with
  | zero => simp [fuseLoop] at h
  | succ fuel ih =>
    unfold fuseLoop at h
    dsimp only at h
    split at h
    · rename_i he
      obtain ⟨e1, e2⟩ := fusePass_eq_of_length he
      rw [e1] at h
      obtain ⟨rfl, rfl⟩ := by simpa using h
      exact ⟨hw, hc, fun _ _ => Iff.rfl, e2⟩
    · obtain ⟨h1, h2, h3⟩ := fusePass_spec hw hc
      obtain ⟨g1, g2, g3, g4⟩ := ih h1 h2 h
      exact ⟨g1, g2, fun w a => (g3 w a).trans (h3 w a), g4⟩

/-! ### mergeAll (44_merge R205) -/

/-- MERGE always ends: the loop's bound is never reached, and the passes are at most max(1, n), n the length after dedup
(R215). -/
theorem mergeList_isSome (l : ListMem) :
    ∃ m p, mergeList l = some (m, p) ∧ 1 ≤ p ∧ p ≤ max 1 (dedupList (sortList l)).length ∧ m.length ≤ l.length := by
  obtain ⟨m, p, h1, h2, h3, h4⟩ := fuseLoop_isSome _ (dedupList (sortList l)) 0 le_rfl
  have hl : (dedupList (sortList l)).length ≤ l.length :=
    le_trans (dedupList_length _) (le_of_eq (sortList_perm l).length_eq)
  exact ⟨m, p, h1, by omega, by omega, by omega⟩

/-- What MERGE leaves of a list of well-formed Subnets: well formed, each block wholly before the next, the same
addresses, no two neighbours that fuse. -/
theorem mergeList_spec {l m : ListMem} {p : Nat} (hw : AllWF l) (h : mergeList l = some (m, p)) :
    AllWF m ∧ m.IsChain Before ∧ (∀ w a, Covered m w a ↔ Covered l w a) ∧ m.IsChain (fun a b => fuses a b = false) := by
  obtain ⟨h1, h2, h3⟩ := dedup_sort_spec hw
  obtain ⟨g1, g2, g3, g4⟩ := fuseLoop_spec h1 h2 h
  exact ⟨g1, g2, fun w a => (g3 w a).trans (h3 w a), g4⟩

/-- A merged list is left alone by MERGE, in one pass (R216 (e)). -/
theorem mergeList_of_merged {m : ListMem} (hw : AllWF m) (hb : m.IsChain Before)
    (hf : m.IsChain fun a b => fuses a b = false) : mergeList m = some (m, 1) := by
  have hs : sortList m = m := sortList_of_pairwise
    ((pairwise_before_of_isChain hb).imp fun h => lessThan_asymm h.lessThan)
  unfold mergeList
  dsimp only
  rw [hs, dedupList_of_isChain hw hb]
  obtain ⟨k, hk⟩ := Nat.exists_eq_add_of_le' (Nat.le_max_left 1 m.length)
  rw [passBound, hk]
  unfold fuseLoop
  dsimp only
  rw [fusePass_of_isChain hf, if_pos rfl]

/-- MERGE does not depend on the order of the entries (R216 (f)). -/
theorem mergeList_congr {l l' : ListMem} (h : l.Perm l') : mergeList l = mergeList l' := by
  unfold mergeList; rw [sortList_congr h]

/-- The command MERGE always answers a next state (R205, R215). -/
theorem execMerge_eq (s : State) :
    ∃ m p, mergeList s.list = some (m, p) ∧
      execMerge s = .next ((s.setList m).setPasses (BitVec.ofNat 32 p)).retire := by
  obtain ⟨m, p, h, _⟩ := mergeList_isSome s.list
  exact ⟨m, p, h, by unfold execMerge; rw [h]; rfl⟩

end Sys2Proof.Machine
end

