-- ==== Sys2Proof/Laws/Decompose.lean ====
section
/-! SUPPORT. The walker: it ends within its bound, and its blocks tile the range with no neighbours that fuse. -/

namespace Sys2Proof.Machine

/-- The blocks of family `w` follow one another without gap from `lo` up to (not including) `hi`. -/
def Tiles (w : Nat) : ListMem → Nat → Nat → Prop
  | [], lo, hi => lo = hi
  | x :: xs, lo, hi => x.fw.toNat = w ∧ x.base.toNat = lo ∧ Tiles w xs x.stop hi

theorem Tiles.le {w : Nat} {l : ListMem} {lo hi : Nat} (h : Tiles w l lo hi) : lo ≤ hi := by
  induction l generalizing lo with
  | nil => exact le_of_eq h
  | cons x xs ih => have := ih h.2.2; have := x.base_lt_stop; have := h.2.1; omega

/-- Tiling blocks cover exactly the addresses from `lo` to `hi` - 1, in their family only. -/
theorem Tiles.covered_iff {w : Nat} {l : ListMem} {lo hi : Nat} (h : Tiles w l lo hi) (v a : Nat) :
    Covered l v a ↔ v = w ∧ lo ≤ a ∧ a < hi := by
  induction l generalizing lo with
  | nil =>
    have : lo = hi := h
    constructor
    · intro hc; exact absurd hc (covered_nil v a)
    · rintro ⟨_, _, _⟩; omega
  | cons x xs ih =>
    obtain ⟨h1, h2, h3⟩ := h
    have := h3.le
    have := x.base_lt_stop
    rw [covered_cons, ih h3]
    constructor
    · rintro (⟨_, _, _⟩ | ⟨_, _, _⟩)
      · exact ⟨by omega, by omega, by omega⟩
      · exact ⟨by omega, by omega, by omega⟩
    · rintro ⟨_, _, _⟩
      by_cases ha : a < x.stop
      · exact .inl ⟨by omega, by omega, ha⟩
      · exact .inr ⟨by omega, by omega, by omega⟩

/-- Tiling blocks come each wholly before the next. -/
theorem Tiles.isChain {w : Nat} {l : ListMem} {lo hi : Nat} (h : Tiles w l lo hi) : l.IsChain Before := by
  induction l generalizing lo with
  | nil => exact .nil
  | cons x xs ih =>
    obtain ⟨h1, _, h3⟩ := h
    cases xs with
    | nil => exact .singleton x
    | cons y ys =>
      refine List.isChain_cons_cons.mpr ⟨.inr ⟨?_, ?_⟩, ih h3⟩
      · rw [h1, h3.1]
      · rw [h3.2.1]

/-! ### Blocks of the walk -/

section Block
variable {cur : WideUint} {pl fw : Nat}

theorem block_fw (hf : fw = 32 ∨ fw = 128) : (block cur pl fw).fw.toNat = fw := by
  simp only [block, BitVec.toNat_ofNat]; omega
theorem block_plen (hf : fw = 32 ∨ fw = 128) (hp : pl ≤ fw) : (block cur pl fw).plen.toNat = pl := by
  simp only [block, BitVec.toNat_ofNat]; omega
theorem block_exponent (hf : fw = 32 ∨ fw = 128) (hp : pl ≤ fw) : (block cur pl fw).exponent = fw - pl := by
  rw [Subnet.exponent, block_fw hf, block_plen hf hp]
theorem block_stop (hf : fw = 32 ∨ fw = 128) (hp : pl ≤ fw) : (block cur pl fw).stop = cur.toNat + 2 ^ (fw - pl) := by
  rw [Subnet.stop, block_exponent hf hp]; rfl
/-- A block pushed at an aligned address of the family is a well-formed Subnet (45_decompose R252). -/
theorem block_wellFormed (hf : fw = 32 ∨ fw = 128) (hp : pl ≤ fw) (hc : cur.toNat < 2 ^ fw)
    (hd : 2 ^ (fw - pl) ∣ cur.toNat) : (block cur pl fw).wellFormed = true := by
  rw [Subnet.wellFormed_iff, block_exponent hf hp, block_fw hf, block_plen hf hp]
  exact ⟨hf, hp, hc, hd⟩

/-- The last address of an aligned block, by the mask. -/
theorem rangeEnd_of_aligned (hf : fw = 32 ∨ fw = 128) (hd : 2 ^ (fw - pl) ∣ cur.toNat) :
    (rangeEnd cur (maskAddress pl fw)).toNat + 1 = cur.toNat + 2 ^ (fw - pl) := by
  have := Nat.two_pow_pos (fw - pl)
  rw [toNat_rangeEnd_maskAddress (by omega), Nat.div_mul_cancel hd]; omega

/-- The jump of an aligned block that does not end at the top of the 128-bit word. -/
theorem nextBegin_of_aligned (hf : fw = 32 ∨ fw = 128) (hd : 2 ^ (fw - pl) ∣ cur.toNat)
    (hlt : cur.toNat + 2 ^ (fw - pl) < 2 ^ 128) :
    (nextBegin cur (maskAddress pl fw)).toNat = cur.toNat + 2 ^ (fw - pl) := by
  rw [nextBegin_eq, BitVec.toNat_add]
  have := rangeEnd_of_aligned (cur := cur) hf hd
  have h1 : (1 : WideUint).toNat = 1 := rfl
  rw [h1, this, Nat.mod_eq_of_lt hlt]

end Block

/-- The invariant of the walk at the head of an iteration (45_decompose R251): CUR has not passed END, PL is 1..FW, CUR is
aligned to MSK, and a block wider than one address ends before END. -/
structure WalkInv (endA : WideUint) (fw : Nat) (cur : WideUint) (pl : Nat) : Prop where
  fam : fw = 32 ∨ fw = 128
  endLt : endA.toNat < 2 ^ fw
  curLe : cur.toNat ≤ endA.toNat
  plPos : 1 ≤ pl
  plLe : pl ≤ fw
  aligned : 2 ^ (fw - pl) ∣ cur.toNat
  before : pl < fw → cur.toNat + 2 ^ (fw - pl) ≤ endA.toNat

/-- The walk ends within its bound, and its blocks are well formed, tile the addresses from CUR to END, and no two
neighbours fuse (45_decompose R251, R252, R254). -/
theorem walk_spec (fuel : Nat) (endA : WideUint) (fw : Nat) (cur : WideUint) (pl : Nat) (hI : WalkInv endA fw cur pl)
    (hfuel : (endA.toNat - cur.toNat) * (fw + 1) + pl < fuel) :
    ∃ l, walk endA fw fuel cur (maskAddress pl fw) pl = some l ∧ AllWF l ∧ Tiles fw l cur.toNat (endA.toNat + 1) ∧
      l.IsChain fun a b => fuses a b = false := by
  induction fuel generalizing cur pl with
  | zero => omega
  | succ fuel ih =>
    obtain ⟨fam, endLt, curLe, plPos, plLe, aligned, before⟩ := hI
    have hwid : shl1 (maskAddress pl fw) = maskAddress (pl - 1) fw := shl1_maskAddress plPos plLe
    have hpow : (2 : Nat) ^ (fw - (pl - 1)) = 2 ^ (fw - pl) + 2 ^ (fw - pl) := by
      rw [show fw - (pl - 1) = fw - pl + 1 by omega, pow_succ]; omega
    have hpos := Nat.two_pow_pos (fw - pl)
    have hcurLt : cur.toNat < 2 ^ fw := lt_of_le_of_lt curLe endLt
    have hwf : (block cur pl fw).wellFormed = true := block_wellFormed fam plLe hcurLt aligned
    have hstop : (block cur pl fw).stop = cur.toNat + 2 ^ (fw - pl) := block_stop fam plLe
    have hendThis := rangeEnd_of_aligned (cur := cur) (pl := pl) fam aligned
    have hthis : cur.toNat + 2 ^ (fw - pl) ≤ endA.toNat + 1 := by
      by_cases h : pl < fw
      · have := before h; omega
      · have : fw - pl = 0 := by omega
        rw [this]; omega
    -- what the emit branches leave (R250)
    have emit : ∀ hblocked : ¬(2 ^ (fw - (pl - 1)) ∣ cur.toNat ∧ cur.toNat + 2 ^ (fw - (pl - 1)) ≤ endA.toNat + 1),
        ∃ l, (if rangeEnd cur (maskAddress pl fw) = endA then some [block cur pl fw]
          else (walk endA fw fuel (nextBegin cur (maskAddress pl fw)) allOnes fw).map (block cur pl fw :: ·)) = some l ∧
        AllWF l ∧ Tiles fw l cur.toNat (endA.toNat + 1) ∧ l.IsChain fun a b => fuses a b = false := by
      intro hblocked
      by_cases he : rangeEnd cur (maskAddress pl fw) = endA
      · rw [if_pos he]
        rw [he] at hendThis
        refine ⟨_, rfl, by simp [AllWF, hwf], ⟨block_fw fam, rfl, ?_⟩, .singleton _⟩
        show (block cur pl fw).stop = endA.toNat + 1
        rw [hstop, ← hendThis]
      · rw [if_neg he]
        have hne : (rangeEnd cur (maskAddress pl fw)).toNat ≠ endA.toNat := fun h => he (BitVec.eq_of_toNat_eq h)
        have hlt : cur.toNat + 2 ^ (fw - pl) ≤ endA.toNat := by omega
        have hnext := nextBegin_of_aligned (cur := cur) (pl := pl) fam aligned
          (lt_of_le_of_lt hlt endA.isLt)
        have hI' : WalkInv endA fw (nextBegin cur (maskAddress pl fw)) fw :=
          ⟨fam, endLt, by omega, by omega, le_refl _, by simp, by omega⟩
        have hmeas : (endA.toNat - (nextBegin cur (maskAddress pl fw)).toNat) * (fw + 1) + fw < fuel := by
          rw [hnext]
          have h1 : (endA.toNat - (cur.toNat + 2 ^ (fw - pl)) + 1) * (fw + 1) ≤ (endA.toNat - cur.toNat) * (fw + 1) :=
            Nat.mul_le_mul_right _ (by omega)
          rw [Nat.add_mul, Nat.one_mul] at h1
          omega
        obtain ⟨l, h1, h2, h3, h4⟩ := ih _ _ hI' hmeas
        rw [maskAddress_self] at h1
        rw [h1]
        refine ⟨block cur pl fw :: l, rfl, allWF_cons.mpr ⟨hwf, h2⟩, ⟨block_fw fam, rfl, ?_⟩, ?_⟩
        · rw [hstop, ← hnext]; exact h3
        · cases l with
          | nil => exact .singleton _
          | cons y ys =>
            refine List.isChain_cons_cons.mpr ⟨?_, h4⟩
            by_contra hf
            have hf' : fuses (block cur pl fw) y = true := by simpa using hf
            have hb : Before (block cur pl fw) y := by
              right; rw [block_fw fam, h3.1, h3.2.1, hnext, hstop]; exact ⟨rfl, le_refl _⟩
            obtain ⟨g1, _, _, _, _, g6, _, g8⟩ := fuses_spec hwf (allWF_cons.mp h2).1 hb hf'
            have hyend : y.stop ≤ endA.toNat + 1 := h3.2.2.le
            refine hblocked ⟨?_, ?_⟩
            · unfold fuses at hf'
              rw [Bool.and_eq_true, Bool.and_eq_true, widen_of_ne_zero g1, block_fw fam, block_plen fam plLe] at hf'
              by_contra hnd
              have hnd' : ¬2 ^ (fw - (pl - 1)) ∣ (block cur pl fw).base.toNat := hnd
              rw [if_neg hnd'] at hf'
              simp at hf'
            · unfold Subnet.stop at hyend
              rw [g8, block_exponent fam plLe, g6, hstop] at hyend
              omega
    unfold walk
    dsimp only
    rw [hwid]
    by_cases hal : 2 ^ (fw - (pl - 1)) ∣ cur.toNat
    · have hbig := rangeEnd_of_aligned (cur := cur) (pl := pl - 1) fam hal
      have hal' : cur &&& maskAddress (pl - 1) fw = cur := (and_maskAddress_eq_self_iff ..).mpr hal
      rcases Nat.lt_trichotomy (rangeEnd cur (maskAddress (pl - 1) fw)).toNat endA.toNat with h | h | h
      · -- grow (R247)
        rw [if_pos ⟨hal', BitVec.lt_def.mpr h⟩]
        have hpl : 2 ≤ pl := by
          by_contra hc
          have h1 : fw - (pl - 1) = fw := by omega
          rw [h1] at hbig
          omega
        refine ih cur (pl - 1) ⟨fam, endLt, curLe, by omega, by omega, hal, fun _ => by omega⟩ (by omega)
      · -- exact (R249)
        have heq : rangeEnd cur (maskAddress (pl - 1) fw) = endA := BitVec.eq_of_toNat_eq h
        rw [if_neg (by rw [BitVec.lt_def]; omega), if_pos ⟨hal', heq⟩]
        have hple : pl - 1 ≤ fw := by omega
        refine ⟨_, rfl, by simp [AllWF, block_wellFormed fam hple hcurLt hal], ⟨block_fw fam, rfl, ?_⟩, .singleton _⟩
        show (block cur (pl - 1) fw).stop = endA.toNat + 1
        rw [block_stop fam hple]; omega
      · -- overshoot (R248)
        rw [if_neg (by rw [BitVec.lt_def]; omega), if_neg (by rintro ⟨_, h2⟩; rw [h2] at h; omega)]
        exact emit (by omega)
    · -- unaligned (R245)
      have hal' : ¬cur &&& maskAddress (pl - 1) fw = cur := fun h => hal ((and_maskAddress_eq_self_iff ..).mp h)
      rw [if_neg (fun h => hal' h.1), if_neg (fun h => hal' h.1)]
      exact emit (fun h => hal h.1)

/-- `decomposeRange` on a range of one family always answers: well-formed blocks that tile the range, no two neighbours of
which fuse (45_decompose R240, R242, R254). -/
theorem decompose_spec {b e : WideUint} {fw : Nat} (hf : fw = 32 ∨ fw = 128) (he : e.toNat < 2 ^ fw)
    (hbe : b.toNat ≤ e.toNat) :
    ∃ l, decompose b e fw = some l ∧ AllWF l ∧ Tiles fw l b.toNat (e.toNat + 1) ∧
      l.IsChain fun x y => fuses x y = false := by
  unfold decompose
  by_cases h : b = e
  · rw [if_pos h]
    subst h
    have h0 : (2 : Nat) ^ (fw - fw) = 1 := by simp
    refine ⟨_, rfl, ?_, ⟨block_fw hf, rfl, ?_⟩, .singleton _⟩
    · have := block_wellFormed (cur := b) hf (le_refl fw) he (by rw [h0]; exact one_dvd _)
      simp [AllWF, this]
    · show (block b fw fw).stop = b.toNat + 1
      rw [block_stop hf (le_refl _), h0]
  · rw [if_neg h, ← maskAddress_self fw]
    refine walk_spec _ e fw b fw ⟨hf, he, hbe, by omega, le_refl _, by simp, by omega⟩ ?_
    rw [Nat.add_mul, Nat.one_mul]; omega

end Sys2Proof.Machine
end

