-- ==== Sys2Proof/Laws/Canonical.lean ====
section
/-! SUPPORT. Canonical lists of blocks: well formed, each wholly before the next, no neighbours that fuse. Every block whose
addresses a canonical list covers lies inside one entry, so a canonical list is determined by what it covers and is the
shortest list that covers it (the fact 44_merge R216 (f) rests on). -/

namespace Sys2Proof.Machine

/-- A canonical list of blocks. -/
structure Canon (m : ListMem) : Prop where
  wf : AllWF m
  chain : m.IsChain Before
  nofuse : m.IsChain fun a b => fuses a b = false

/-- What MERGE makes of a list of well-formed Subnets is canonical and covers the same addresses. -/
theorem canon_of_mergeList {l m : ListMem} {p : Nat} (hw : AllWF l) (h : mergeList l = some (m, p)) :
    Canon m ∧ ∀ w a, Covered m w a ↔ Covered l w a := by
  obtain ⟨a, b, c, d⟩ := mergeList_spec hw h
  exact ⟨⟨a, b, d⟩, c⟩

/-- What the walker makes of a range is canonical. -/
theorem canon_of_tiles {w : Nat} {l : ListMem} {lo hi : Nat} (hw : AllWF l) (ht : Tiles w l lo hi)
    (hf : l.IsChain fun x y => fuses x y = false) : Canon l := ⟨hw, ht.isChain, hf⟩

/-- Of two different entries of a canonical list one comes wholly before the other. -/
theorem Canon.before_or_before {m : ListMem} (hc : Canon m) {x z : Subnet} (hx : x ∈ m) (hz : z ∈ m) (hne : x ≠ z) :
    Before x z ∨ Before z x := by
  have hp := pairwise_before_of_isChain hc.chain
  clear hc
  induction m with
  | nil => cases hx
  | cons y ys ih =>
    obtain ⟨h1, h2⟩ := List.pairwise_cons.mp hp
    rcases List.mem_cons.mp hx with rfl | hx'
    · rcases List.mem_cons.mp hz with rfl | hz'
      · exact absurd rfl hne
      · exact .inl (h1 z hz')
    · rcases List.mem_cons.mp hz with rfl | hz'
      · exact .inr (h1 x hx')
      · exact ih hx' hz' h2

theorem Canon.nodup {m : ListMem} (hc : Canon m) : m.Nodup :=
  (pairwise_before_of_isChain hc.chain).imp fun {a b} hb e => by
    subst e; have := a.base_lt_stop; unfold Before at hb; omega

/-- No canonical list holds both halves of a block. -/
theorem Canon.no_halves {m : ListMem} (hc : Canon m) {r x : Subnet} (hr : r ∈ m) (hx : x ∈ m) (hf : r.fw = x.fw) (hp : r.plen = x.plen)
    (h0 : r.plen ≠ 0) (hd : 2 ^ (r.exponent + 1) ∣ r.base.toNat) (hb : x.base.toNat = r.stop) : False := by
  have hpw := pairwise_before_of_isChain hc.chain
  obtain ⟨wf, chain, nofuse⟩ := hc
  have hrw := wf r hr
  have hxw := wf x hx
  induction m with
  | nil => simp at hr
  | cons y ys ih =>
    rw [List.pairwise_cons] at hpw
    have hne : r.base.toNat < x.base.toNat := by rw [hb]; exact r.base_lt_stop
    rcases List.mem_cons.mp hr with rfl | hr'
    · rcases List.mem_cons.mp hx with rfl | hx'
      · omega
      · cases ys with
        | nil => simp at hx'
        | cons z zs =>
          have hrz := hpw.1 z (by simp)
          have hzx : z = x := by
            rcases List.mem_cons.mp hx' with rfl | hx''
            · rfl
            · have hzx := (List.pairwise_cons.mp hpw.2).1 x hx''
              have := z.base_lt_stop
              unfold Before at *
              rw [hb] at hzx
              have : r.fw.toNat = x.fw.toNat := by rw [hf]
              omega
          subst hzx
          have hnf := (List.isChain_cons_cons.mp nofuse).1
          obtain ⟨e1, e2⟩ := toNat_plen_pred h0
          have wr := (Subnet.wellFormed_iff r).mp hrw
          have hex : r.exponent + 1 = r.fw.toNat - (r.plen.toNat - 1) := by unfold Subnet.exponent; omega
          rw [hex] at hd
          have hw : widen r = ({ r with plen := r.plen - 1 }, true) := by rw [widen_of_ne_zero h0, if_pos hd]
          have hwf := (widen_ok hrw h0 (by rw [hw])).1
          have hex2 := (widen_ok hrw h0 (by rw [hw])).2.2.2
          rw [hw] at hwf hex2
          unfold fuses at hnf
          rw [hw] at hnf
          simp only [Bool.true_and, hp, beq_self_eq_true] at hnf
          have : includes { r with plen := r.plen - 1 } z = true := by
            rw [includes_iff hwf]
            refine ⟨by simp [hf], by show r.base.toNat ≤ z.base.toNat; omega, ?_⟩
            rw [hb]; unfold Subnet.stop; rw [hex2, pow_succ]
            have hpos := Nat.two_pow_pos r.exponent
            show r.base.toNat + 2 ^ r.exponent < r.base.toNat + 2 ^ r.exponent * 2
            omega
          rw [← hp] at hnf
          rw [this] at hnf; simp at hnf
    · rcases List.mem_cons.mp hx with rfl | hx'
      · have := hpw.1 r hr'
        have hr1 := r.base_lt_stop
        have hx1 := x.base_lt_stop
        unfold Before at this; rw [hf] at this; omega
      · cases ys with
        | nil => simp at hr'
        | cons z zs =>
          exact ih hr' hx' hpw.2 (allWF_cons.mp wf).2 (List.isChain_cons_cons.mp chain).2 (List.isChain_cons_cons.mp nofuse).2

/-- An aligned block of 2^k addresses that a canonical list covers lies inside one entry. -/
theorem Canon.inside_entry {m : ListMem} (hc : Canon m) {w : Nat} (hw : w = 32 ∨ w = 128) (k : Nat) (b : Nat) (hk : k ≤ w) (hd : 2 ^ k ∣ b)
    (hcov : ∀ a, b ≤ a → a < b + 2 ^ k → Covered m w a) : ∃ x ∈ m, x.fw.toNat = w ∧ x.base.toNat ≤ b ∧ b + 2 ^ k ≤ x.stop := by
  induction k generalizing b with
  | zero =>
    obtain ⟨x, hx, h1, h2, h3⟩ := hcov b (le_refl _) (by simp)
    exact ⟨x, hx, h1, h2, by simp; omega⟩
  | succ k ih =>
    have hpos := Nat.two_pow_pos k
    have hpow : 2 ^ (k+1) = 2 ^ k + 2 ^ k := by rw [pow_succ]; omega
    have hdk : 2 ^ k ∣ b := dvd_trans (pow_dvd_pow 2 (by omega)) hd
    obtain ⟨x0, hx0, f0, l0, u0⟩ := ih b (by omega) hdk (fun a h1 h2 => hcov a h1 (by omega))
    obtain ⟨x1, hx1, f1, l1, u1⟩ := ih (b + 2^k) (by omega) (Dvd.dvd.add hdk (dvd_refl _)) (fun a h1 h2 => hcov a (by omega) (by omega))
    have w0 := (Subnet.wellFormed_iff x0).mp (hc.wf x0 hx0)
    have w1 := (Subnet.wellFormed_iff x1).mp (hc.wf x1 hx1)
    by_cases h0 : b + 2 ^ (k+1) ≤ x0.stop
    · exact ⟨x0, hx0, f0, l0, h0⟩
    by_cases h1 : x1.base.toNat ≤ b
    · exact ⟨x1, hx1, f1, h1, by omega⟩
    exfalso
    have e0 : x0.exponent ≤ k := by
      by_contra hcon
      have : 2 ^ (k+1) ∣ x0.base.toNat + 2 ^ x0.exponent :=
        Dvd.dvd.add (dvd_trans (pow_dvd_pow 2 (by omega)) w0.2.2.2) (pow_dvd_pow 2 (by omega))
      have h3 := Nat.dvd_sub this hd
      have h4 : x0.stop = x0.base.toNat + 2 ^ x0.exponent := rfl
      have := Nat.le_of_dvd (by omega) h3
      omega
    have e1 : x1.exponent ≤ k := by
      by_contra hcon
      have : 2 ^ (k+1) ∣ x1.base.toNat := dvd_trans (pow_dvd_pow 2 (by omega)) w1.2.2.2
      have h3 := Nat.dvd_sub this hd
      have := Nat.le_of_dvd (by omega) h3
      omega
    have p0 : 2 ^ x0.exponent ≤ 2 ^ k := Nat.pow_le_pow_right (by omega) e0
    have p1 : 2 ^ x1.exponent ≤ 2 ^ k := Nat.pow_le_pow_right (by omega) e1
    have s0 : x0.stop = x0.base.toNat + 2 ^ x0.exponent := rfl
    have s1 : x1.stop = x1.base.toNat + 2 ^ x1.exponent := rfl
    have b0 : x0.base.toNat = b := by omega
    have b1 : x1.base.toNat = b + 2 ^ k := by omega
    have q0 : 2 ^ x0.exponent = 2 ^ k := by omega
    have q1 : 2 ^ x1.exponent = 2 ^ k := by omega
    have r0 := Nat.pow_right_injective (le_refl 2) q0
    have r1 := Nat.pow_right_injective (le_refl 2) q1
    refine hc.no_halves hx0 hx1 (BitVec.eq_of_toNat_eq (by omega)) (BitVec.eq_of_toNat_eq ?_) ?_ ?_ (by omega)
    · unfold Subnet.exponent at r0 r1; omega
    · intro h; have : x0.plen.toNat = 0 := by rw [h]; rfl
      unfold Subnet.exponent at r0; omega
    · rw [r0, b0]; exact hd

/-- A well-formed Subnet that a canonical list covers lies inside one entry. -/
theorem Canon.block_in_entry {m : ListMem} (hc : Canon m) {y : Subnet} (hy : y.wellFormed = true)
    (hcov : ∀ a, y.base.toNat ≤ a → a < y.stop → Covered m y.fw.toNat a) : ∃ x ∈ m, x.fw.toNat = y.fw.toNat ∧ x.base.toNat ≤ y.base.toNat ∧ y.stop ≤ x.stop := by
  have wy := (Subnet.wellFormed_iff y).mp hy
  exact hc.inside_entry wy.1 y.exponent y.base.toNat (by unfold Subnet.exponent; omega) wy.2.2.2 hcov

/-- An entry of a canonical list that lies inside another is that other. -/
theorem Canon.eq_of_inside {m : ListMem} (hc : Canon m) {x z : Subnet} (hx : x ∈ m) (hz : z ∈ m)
    (hf : z.fw.toNat = x.fw.toNat) (h1 : z.base.toNat ≤ x.base.toNat) (h2 : x.stop ≤ z.stop) : x = z := by
  by_contra hne
  have hb := hc.before_or_before hx hz hne
  have := x.base_lt_stop
  have := z.base_lt_stop
  unfold Before at hb; omega

/-- Canonical lists that cover the same addresses are equal. -/
theorem canon_unique {m m' : ListMem} (hc : Canon m) (hc' : Canon m') (hcov : ∀ w a, Covered m w a ↔ Covered m' w a) : m = m' := by
  have sub : ∀ (m m' : ListMem), Canon m → Canon m' → (∀ w a, Covered m w a ↔ Covered m' w a) → ∀ x ∈ m, x ∈ m' := by
    intro m m' hc hc' hcov x hx
    have hxw := hc.wf x hx
    obtain ⟨y, hy, f1, l1, u1⟩ := hc'.block_in_entry hxw (fun a h1 h2 => (hcov _ _).mp ⟨x, hx, rfl, h1, h2⟩)
    obtain ⟨z, hz, f2, l2, u2⟩ := hc.block_in_entry (hc'.wf y hy) (fun a h1 h2 => (hcov _ _).mpr ⟨y, hy, rfl, h1, h2⟩)
    have := hc.eq_of_inside hx hz (by omega) (by omega) (by omega)
    subst this
    have hst : x.stop = y.stop := by omega
    have hba : x.base.toNat = y.base.toNat := by omega
    have : x = y := by
      refine Subnet.eq_of_block hxw (hc'.wf y hy) (by omega) hba ?_
      unfold Subnet.stop at hst
      have : 2 ^ x.exponent = 2 ^ y.exponent := by omega
      exact Nat.pow_right_injective (le_refl 2) this
    exact this ▸ hy
  have hp := pairwise_before_of_isChain hc.chain
  have hp' := pairwise_before_of_isChain hc'.chain
  have hperm : m.Perm m' := (List.perm_ext_iff_of_nodup hc.nodup hc'.nodup).mpr (fun x => ⟨sub m m' hc hc' hcov x, sub m' m hc' hc (fun w a => (hcov w a).symm) x⟩)
  exact eq_of_perm_of_pairwise hperm (hp.imp fun h => lessThan_asymm h.lessThan) (hp'.imp fun h => lessThan_asymm h.lessThan)

/-- A canonical list is the shortest that covers its addresses. -/
theorem canon_shortest {m l : ListMem} (hc : Canon m) (hl : AllWF l) (hcov : ∀ w a, Covered l w a ↔ Covered m w a) : m.length ≤ l.length := by
  classical
  have hin : ∀ y ∈ l, ∃ x ∈ m, x.fw.toNat = y.fw.toNat ∧ x.base.toNat ≤ y.base.toNat ∧ y.stop ≤ x.stop :=
    fun y hy => hc.block_in_entry (hl y hy) (fun a h1 h2 => (hcov _ _).mp ⟨y, hy, rfl, h1, h2⟩)
  let f : Subnet → Subnet := fun y => if h : ∃ x ∈ m, x.fw.toNat = y.fw.toNat ∧ x.base.toNat ≤ y.base.toNat ∧ y.stop ≤ x.stop then h.choose else y
  have hsub : m ⊆ l.map f := by
    intro x hx
    obtain ⟨y, hy, h1, h2, h3⟩ := (hcov x.fw.toNat x.base.toNat).mpr ⟨x, hx, rfl, le_refl _, x.base_lt_stop⟩
    refine List.mem_map.mpr ⟨y, hy, ?_⟩
    have h := hin y hy
    have hfy : f y = h.choose := by simp only [f, dif_pos h]
    obtain ⟨c1, c2, c3, c4⟩ := h.choose_spec
    rw [hfy]
    by_contra hne
    have hbb := hc.before_or_before c1 hx hne
    have a1 := x.base_lt_stop
    have a2 := h.choose.base_lt_stop
    unfold Before at hbb; omega
  calc m.length ≤ (l.map f).length := (hc.nodup.subperm hsub).length_le
    _ = l.length := by simp

end Sys2Proof.Machine
end

