-- ==== Sys2Proof/Laws/Decode.lean ====
section
/-! SUPPORT. The opcode map's rows are disjoint, the fields of each head word, and what the decoder answers. -/

namespace Sys2Proof

/-! ### The opcode map (30_encoding R100) -/

theorem mem_opcodeMap (o : Op) : o ∈ opcodeMap := by cases o <;> decide

/-- Every mask includes 0xFF000000: the row a head word selects has the head word's op. -/
theorem fieldOp_of_selectedBy {h : Word} {o : Op} (hs : o.selectedBy h = true) : fieldOp h = fieldOp o.matchWord := by
  have hm : h &&& o.maskWord = o.matchWord := by simpa [Op.selectedBy] using hs
  rw [← hm, fieldOp, fieldOp, BitVec.extractLsb'_and, show o.maskWord.extractLsb' 24 8 = BitVec.allOnes 8 by cases o <;> decide,
    BitVec.and_allOnes]

/-- Each row has an op value of its own. -/
theorem op_injective {o o' : Op} (h : fieldOp o.matchWord = fieldOp o'.matchWord) : o = o' := by
  revert h; cases o <;> cases o' <;> decide

/-- The rows are disjoint. -/
theorem selectedBy_unique {h : Word} {o o' : Op} (h1 : o.selectedBy h = true) (h2 : o'.selectedBy h = true) : o = o' :=
  op_injective ((fieldOp_of_selectedBy h1).symm.trans (fieldOp_of_selectedBy h2))

/-- A head word selects exactly the row whose match and mask it meets. -/
theorem findOp_eq_some_iff (h : Word) (o : Op) : findOp h = some o ↔ o.selectedBy h = true := by
  constructor
  · intro hf; simpa using List.find?_some hf
  · intro hs
    unfold findOp
    cases hf : opcodeMap.find? (Op.selectedBy h) with
    | none => exact absurd hs (by simpa using List.find?_eq_none.mp hf o (mem_opcodeMap o))
    | some o' => rw [selectedBy_unique hs (by simpa using List.find?_some hf)]

/-- A head word is illegal exactly when it meets no row. -/
theorem findOp_eq_none_iff (h : Word) : findOp h = none ↔ ∀ o : Op, o.selectedBy h = false := by
  constructor
  · intro hf o
    by_contra hc
    rw [(findOp_eq_some_iff h o).mpr (by simpa using hc)] at hf
    cases hf
  · intro hall
    cases hf : findOp h with
    | none => rfl
    | some o => rw [findOp_eq_some_iff, hall o] at hf; cases hf


/-! ### The fields of each head word (R91 to R95, R98) -/

theorem extractOp_headR (op : BitVec 8) (rd rs1 rs2 : Fin 16) : (headR op rd rs1 rs2).extractLsb' 24 8 = op := by
  ext i hi
  simp only [headR, BitVec.getElem_extractLsb', BitVec.getLsbD_append]
  interval_cases i <;> simp

@[simp] theorem fieldOp_headR (op : BitVec 8) (rd rs1 rs2 : Fin 16) : fieldOp (headR op rd rs1 rs2) = op := extractOp_headR ..

theorem extractRd_headR (op : BitVec 8) (rd rs1 rs2 : Fin 16) : (headR op rd rs1 rs2).extractLsb' 20 4 = BitVec.ofFin (w := 4) rd := by
  ext i hi
  simp only [headR, BitVec.getElem_extractLsb', BitVec.getLsbD_append]
  interval_cases i <;> simp

@[simp] theorem fieldRd_headR (op : BitVec 8) (rd rs1 rs2 : Fin 16) : fieldRd (headR op rd rs1 rs2) = rd := by
  rw [fieldRd, extractRd_headR]

theorem extractRs1_headR (op : BitVec 8) (rd rs1 rs2 : Fin 16) : (headR op rd rs1 rs2).extractLsb' 16 4 = BitVec.ofFin (w := 4) rs1 := by
  ext i hi
  simp only [headR, BitVec.getElem_extractLsb', BitVec.getLsbD_append]
  interval_cases i <;> simp

@[simp] theorem fieldRs1_headR (op : BitVec 8) (rd rs1 rs2 : Fin 16) : fieldRs1 (headR op rd rs1 rs2) = rs1 := by
  rw [fieldRs1, extractRs1_headR]

theorem extractRs2_headR (op : BitVec 8) (rd rs1 rs2 : Fin 16) : (headR op rd rs1 rs2).extractLsb' 12 4 = BitVec.ofFin (w := 4) rs2 := by
  ext i hi
  simp only [headR, BitVec.getElem_extractLsb', BitVec.getLsbD_append]
  interval_cases i <;> simp

@[simp] theorem fieldRs2_headR (op : BitVec 8) (rd rs1 rs2 : Fin 16) : fieldRs2 (headR op rd rs1 rs2) = rs2 := by
  rw [fieldRs2, extractRs2_headR]

theorem extractOp_headP (op : BitVec 8) (rd rs1 : Fin 16) (plen fw : Nat) : (headP op rd rs1 plen fw).extractLsb' 24 8 = op := by
  ext i hi
  simp only [headP, BitVec.getElem_extractLsb', BitVec.getLsbD_append]
  interval_cases i <;> simp

@[simp] theorem fieldOp_headP (op : BitVec 8) (rd rs1 : Fin 16) (plen fw : Nat) : fieldOp (headP op rd rs1 plen fw) = op := extractOp_headP ..

theorem extractRd_headP (op : BitVec 8) (rd rs1 : Fin 16) (plen fw : Nat) : (headP op rd rs1 plen fw).extractLsb' 20 4 = BitVec.ofFin (w := 4) rd := by
  ext i hi
  simp only [headP, BitVec.getElem_extractLsb', BitVec.getLsbD_append]
  interval_cases i <;> simp

@[simp] theorem fieldRd_headP (op : BitVec 8) (rd rs1 : Fin 16) (plen fw : Nat) : fieldRd (headP op rd rs1 plen fw) = rd := by
  rw [fieldRd, extractRd_headP]

theorem extractRs1_headP (op : BitVec 8) (rd rs1 : Fin 16) (plen fw : Nat) : (headP op rd rs1 plen fw).extractLsb' 16 4 = BitVec.ofFin (w := 4) rs1 := by
  ext i hi
  simp only [headP, BitVec.getElem_extractLsb', BitVec.getLsbD_append]
  interval_cases i <;> simp

@[simp] theorem fieldRs1_headP (op : BitVec 8) (rd rs1 : Fin 16) (plen fw : Nat) : fieldRs1 (headP op rd rs1 plen fw) = rs1 := by
  rw [fieldRs1, extractRs1_headP]

theorem extractHi8_headP (op : BitVec 8) (rd rs1 : Fin 16) (plen fw : Nat) : (headP op rd rs1 plen fw).extractLsb' 8 8 = BitVec.ofNat 8 plen := by
  ext i hi
  simp only [headP, BitVec.getElem_extractLsb', BitVec.getLsbD_append]
  interval_cases i <;> simp

theorem fieldHi8_headP (op : BitVec 8) (rd rs1 : Fin 16) (plen fw : Nat) (h : plen < 256) : fieldHi8 (headP op rd rs1 plen fw) = plen := by
  rw [fieldHi8, extractHi8_headP, BitVec.toNat_ofNat]; omega

theorem extractLo8_headP (op : BitVec 8) (rd rs1 : Fin 16) (plen fw : Nat) : (headP op rd rs1 plen fw).extractLsb' 0 8 = BitVec.ofNat 8 fw := by
  ext i hi
  simp only [headP, BitVec.getElem_extractLsb', BitVec.getLsbD_append]
  interval_cases i <;> simp

theorem fieldLo8_headP (op : BitVec 8) (rd rs1 : Fin 16) (plen fw : Nat) (h : fw < 256) : fieldLo8 (headP op rd rs1 plen fw) = fw := by
  rw [fieldLo8, extractLo8_headP, BitVec.toNat_ofNat]; omega

theorem extractOp_headM (op : BitVec 8) (rd rs1 : Fin 16) (max : Nat) : (headM op rd rs1 max).extractLsb' 24 8 = op := by
  ext i hi
  simp only [headM, BitVec.getElem_extractLsb', BitVec.getLsbD_append]
  interval_cases i <;> simp

@[simp] theorem fieldOp_headM (op : BitVec 8) (rd rs1 : Fin 16) (max : Nat) : fieldOp (headM op rd rs1 max) = op := extractOp_headM ..

theorem extractRd_headM (op : BitVec 8) (rd rs1 : Fin 16) (max : Nat) : (headM op rd rs1 max).extractLsb' 20 4 = BitVec.ofFin (w := 4) rd := by
  ext i hi
  simp only [headM, BitVec.getElem_extractLsb', BitVec.getLsbD_append]
  interval_cases i <;> simp

@[simp] theorem fieldRd_headM (op : BitVec 8) (rd rs1 : Fin 16) (max : Nat) : fieldRd (headM op rd rs1 max) = rd := by
  rw [fieldRd, extractRd_headM]

theorem extractRs1_headM (op : BitVec 8) (rd rs1 : Fin 16) (max : Nat) : (headM op rd rs1 max).extractLsb' 16 4 = BitVec.ofFin (w := 4) rs1 := by
  ext i hi
  simp only [headM, BitVec.getElem_extractLsb', BitVec.getLsbD_append]
  interval_cases i <;> simp

@[simp] theorem fieldRs1_headM (op : BitVec 8) (rd rs1 : Fin 16) (max : Nat) : fieldRs1 (headM op rd rs1 max) = rs1 := by
  rw [fieldRs1, extractRs1_headM]

theorem extractHi8_headM (op : BitVec 8) (rd rs1 : Fin 16) (max : Nat) : (headM op rd rs1 max).extractLsb' 8 8 = BitVec.ofNat 8 max := by
  ext i hi
  simp only [headM, BitVec.getElem_extractLsb', BitVec.getLsbD_append]
  interval_cases i <;> simp

theorem fieldHi8_headM (op : BitVec 8) (rd rs1 : Fin 16) (max : Nat) (h : max < 256) : fieldHi8 (headM op rd rs1 max) = max := by
  rw [fieldHi8, extractHi8_headM, BitVec.toNat_ofNat]; omega

theorem extractOp_headI (op : BitVec 8) (rd : Fin 16) (imm16 : Nat) : (headI op rd imm16).extractLsb' 24 8 = op := by
  ext i hi
  simp only [headI, BitVec.getElem_extractLsb', BitVec.getLsbD_append]
  interval_cases i <;> simp

@[simp] theorem fieldOp_headI (op : BitVec 8) (rd : Fin 16) (imm16 : Nat) : fieldOp (headI op rd imm16) = op := extractOp_headI ..

theorem extractRd_headI (op : BitVec 8) (rd : Fin 16) (imm16 : Nat) : (headI op rd imm16).extractLsb' 20 4 = BitVec.ofFin (w := 4) rd := by
  ext i hi
  simp only [headI, BitVec.getElem_extractLsb', BitVec.getLsbD_append]
  interval_cases i <;> simp

@[simp] theorem fieldRd_headI (op : BitVec 8) (rd : Fin 16) (imm16 : Nat) : fieldRd (headI op rd imm16) = rd := by
  rw [fieldRd, extractRd_headI]

theorem extractImm16_headI (op : BitVec 8) (rd : Fin 16) (imm16 : Nat) : (headI op rd imm16).extractLsb' 0 16 = BitVec.ofNat 16 imm16 := by
  ext i hi
  simp only [headI, BitVec.getElem_extractLsb', BitVec.getLsbD_append]
  interval_cases i <;> simp

theorem fieldImm16_headI (op : BitVec 8) (rd : Fin 16) (imm16 : Nat) (h : imm16 < 65536) : fieldImm16 (headI op rd imm16) = imm16 := by
  rw [fieldImm16, extractImm16_headI, BitVec.toNat_ofNat]; omega

theorem extractOp_headD (op : BitVec 8) (rs1 rs2 : Fin 16) (fw : Nat) : (headD op rs1 rs2 fw).extractLsb' 24 8 = op := by
  ext i hi
  simp only [headD, BitVec.getElem_extractLsb', BitVec.getLsbD_append]
  interval_cases i <;> simp

@[simp] theorem fieldOp_headD (op : BitVec 8) (rs1 rs2 : Fin 16) (fw : Nat) : fieldOp (headD op rs1 rs2 fw) = op := extractOp_headD ..

theorem extractRs1_headD (op : BitVec 8) (rs1 rs2 : Fin 16) (fw : Nat) : (headD op rs1 rs2 fw).extractLsb' 16 4 = BitVec.ofFin (w := 4) rs1 := by
  ext i hi
  simp only [headD, BitVec.getElem_extractLsb', BitVec.getLsbD_append]
  interval_cases i <;> simp

@[simp] theorem fieldRs1_headD (op : BitVec 8) (rs1 rs2 : Fin 16) (fw : Nat) : fieldRs1 (headD op rs1 rs2 fw) = rs1 := by
  rw [fieldRs1, extractRs1_headD]

theorem extractRs2_headD (op : BitVec 8) (rs1 rs2 : Fin 16) (fw : Nat) : (headD op rs1 rs2 fw).extractLsb' 12 4 = BitVec.ofFin (w := 4) rs2 := by
  ext i hi
  simp only [headD, BitVec.getElem_extractLsb', BitVec.getLsbD_append]
  interval_cases i <;> simp

@[simp] theorem fieldRs2_headD (op : BitVec 8) (rs1 rs2 : Fin 16) (fw : Nat) : fieldRs2 (headD op rs1 rs2 fw) = rs2 := by
  rw [fieldRs2, extractRs2_headD]

theorem extractLo8_headD (op : BitVec 8) (rs1 rs2 : Fin 16) (fw : Nat) : (headD op rs1 rs2 fw).extractLsb' 0 8 = BitVec.ofNat 8 fw := by
  ext i hi
  simp only [headD, BitVec.getElem_extractLsb', BitVec.getLsbD_append]
  interval_cases i <;> simp

theorem fieldLo8_headD (op : BitVec 8) (rs1 rs2 : Fin 16) (fw : Nat) (h : fw < 256) : fieldLo8 (headD op rs1 rs2 fw) = fw := by
  rw [fieldLo8, extractLo8_headD, BitVec.toNat_ofNat]; omega

/-! ### The must-be-zero bits of each format (R101) -/

section
variable (op : BitVec 8) (rd rs1 rs2 : Fin 16) (a b : Nat)

theorem mask_rd : headR op rd 0 0 &&& 0xFF0FFFFF = op ++ (0 : BitVec 24) := by
  ext i hi
  simp only [headR, BitVec.getElem_and, BitVec.getElem_append]
  interval_cases i <;> simp

theorem mask_rd_rs1 : headR op rd rs1 0 &&& 0xFF00FFFF = op ++ (0 : BitVec 24) := by
  ext i hi
  simp only [headR, BitVec.getElem_and, BitVec.getElem_append]
  interval_cases i <;> simp

theorem mask_rd_rs1_rs2 : headR op rd rs1 rs2 &&& 0xFF000FFF = op ++ (0 : BitVec 24) := by
  ext i hi
  simp only [headR, BitVec.getElem_and, BitVec.getElem_append]
  interval_cases i <;> simp

theorem mask_rs1_rs2 : headR op 0 rs1 rs2 &&& 0xFFF00FFF = op ++ (0 : BitVec 24) := by
  ext i hi
  simp only [headR, BitVec.getElem_and, BitVec.getElem_append]
  interval_cases i <;> simp

theorem mask_rs1 : headR op 0 rs1 0 &&& 0xFFF0FFFF = op ++ (0 : BitVec 24) := by
  ext i hi
  simp only [headR, BitVec.getElem_and, BitVec.getElem_append]
  interval_cases i <;> simp

theorem mask_none : headR op 0 0 0 &&& 0xFFFFFFFF = op ++ (0 : BitVec 24) := by
  ext i hi
  simp only [headR, BitVec.getElem_and, BitVec.getElem_append]
  interval_cases i <;> simp

theorem mask_max : headM op rd rs1 a &&& 0xFF0000FF = op ++ (0 : BitVec 24) := by
  ext i hi
  simp only [headM, BitVec.getElem_and, BitVec.getElem_append]
  interval_cases i <;> simp

theorem mask_rd_plen_fw : headP op rd 0 a b &&& 0xFF0F0000 = op ++ (0 : BitVec 24) := by
  ext i hi
  simp only [headP, BitVec.getElem_and, BitVec.getElem_append]
  interval_cases i <;> simp

theorem mask_rd_rs1_plen_fw : headP op rd rs1 a b &&& 0xFF000000 = op ++ (0 : BitVec 24) := by
  ext i hi
  simp only [headP, BitVec.getElem_and, BitVec.getElem_append]
  interval_cases i <;> simp

theorem mask_rd_imm16 : headI op rd a &&& 0xFF0F0000 = op ++ (0 : BitVec 24) := by
  ext i hi
  simp only [headI, BitVec.getElem_and, BitVec.getElem_append]
  interval_cases i <;> simp

theorem mask_imm16 : headI op 0 a &&& 0xFFFF0000 = op ++ (0 : BitVec 24) := by
  ext i hi
  simp only [headI, BitVec.getElem_and, BitVec.getElem_append]
  interval_cases i <;> simp

theorem mask_range : headD op rs1 rs2 a &&& 0xFFF00F00 = op ++ (0 : BitVec 24) := by
  ext i hi
  simp only [headD, BitVec.getElem_and, BitVec.getElem_append]
  interval_cases i <;> simp

end

/-! ### The decoder's answers (R104) -/

@[simp] theorem decode_nil : decode [] = .incomplete := rfl

/-- The decoder on a head word that selects the row `o`. -/
theorem decode_cons {h : Word} {o : Op} (hs : findOp h = some o) (rest : List Word) :
    decode (h :: rest) = if rest.length < o.payloadWords then .incomplete
      else .command (o.command h rest) (rest.drop o.payloadWords) := by
  simp only [decode, hs]

/-- The decoder on an illegal head word. -/
theorem decode_illegal {h : Word} (hs : findOp h = none) (rest : List Word) : decode (h :: rest) = .illegal h rest := by
  simp only [decode, hs]

/-- What each answer of the decoder says of the words. -/
theorem decode_cases (ws : List Word) :
    (ws = [] ∧ decode ws = .incomplete) ∨
    (∃ h rest, ws = h :: rest ∧ findOp h = none ∧ decode ws = .illegal h rest) ∨
    (∃ h rest o, ws = h :: rest ∧ findOp h = some o ∧ rest.length < o.payloadWords ∧ decode ws = .incomplete) ∨
    (∃ h rest o, ws = h :: rest ∧ findOp h = some o ∧ o.payloadWords ≤ rest.length ∧
      decode ws = .command (o.command h rest) (rest.drop o.payloadWords)) := by
  cases ws with
  | nil => exact .inl ⟨rfl, rfl⟩
  | cons h rest =>
    cases hf : findOp h with
    | none => exact .inr (.inl ⟨h, rest, rfl, hf, decode_illegal hf rest⟩)
    | some o =>
      by_cases hl : rest.length < o.payloadWords
      · exact .inr (.inr (.inl ⟨h, rest, o, rfl, hf, hl, by rw [decode_cons hf, if_pos hl]⟩))
      · exact .inr (.inr (.inr ⟨h, rest, o, rfl, hf, Nat.not_lt.mp hl, by rw [decode_cons hf, if_neg hl]⟩))

/-- A row meets the head word h when the must-be-zero bits of h are zero and its op is the row's. -/
theorem findOp_of_mask {h : Word} {o : Op} {op : BitVec 8} (hm : h &&& o.maskWord = op ++ (0 : BitVec 24))
    (ho : o.matchWord = op ++ (0 : BitVec 24)) : findOp h = some o := by
  rw [findOp_eq_some_iff, Op.selectedBy, hm, ho]; exact beq_self_eq_true _

/-- Joining the four words of a literal gives it back (R99). -/
theorem literal128_extract (v : WideUint) :
    literal128 (v.extractLsb' 96 32) (v.extractLsb' 64 32) (v.extractLsb' 32 32) (v.extractLsb' 0 32) = v := by
  unfold literal128
  ext i hi
  simp only [BitVec.getElem_append]
  interval_cases i <;> simp

end Sys2Proof
end

