-- ==== Sys2Proof/Laws/Encoding.lean ====
section
/-! SUPPORT. Head words by the spec's own formula (30_encoding R91 to R95: op in bits 31:24, then each field shifted to its
place), the mask table by the formula of 41_masktable R150, and the header word of an N record. -/

namespace Sys2Proof.Machine

theorem getLsbD_fieldAt (v k i : Nat) :
    (fieldAt v k).getLsbD i = (decide (i < 32) && (decide (k ≤ i) && v.testBit (i - k))) := by
  simp [fieldAt, BitVec.getLsbD_ofNat, Nat.testBit_mul_two_pow]

theorem fieldAt_zero (k : Nat) : fieldAt 0 k = 0 := by simp [fieldAt]
theorem fieldAt_at_zero (v : Nat) : fieldAt v 0 = BitVec.ofNat 32 v := by simp [fieldAt]

theorem getLsbD_ofFin4 (r : Fin 16) (i : Nat) : (BitVec.ofFin (w := 4) r).getLsbD i = r.val.testBit i := rfl

/-- A number below 2^n has no bit at n or above. -/
theorem testBit_of_lt {v n : Nat} (hv : v < 2 ^ n) {i : Nat} (h : n ≤ i) : v.testBit i = false :=
  Nat.testBit_lt_two_pow (lt_of_lt_of_le hv (Nat.pow_le_pow_right (by decide) h))

theorem headR_eq (op : BitVec 8) (rd rs1 rs2 : Fin 16) :
    headR op rd rs1 rs2 = (op ++ (0 : BitVec 24)) ||| fieldAt rd.val 20 ||| fieldAt rs1.val 16 ||| fieldAt rs2.val 12 := by
  have h1 := fun i => testBit_of_lt (n := 4) rd.isLt (i := i)
  have h2 := fun i => testBit_of_lt (n := 4) rs1.isLt (i := i)
  have h3 := fun i => testBit_of_lt (n := 4) rs2.isLt (i := i)
  apply BitVec.eq_of_getLsbD_eq
  intro i hi
  simp only [headR, BitVec.getLsbD_append, BitVec.getLsbD_or, getLsbD_fieldAt, getLsbD_ofFin4, BitVec.getLsbD_zero]
  interval_cases i <;> simp [h1, h2, h3]

theorem headP_eq (op : BitVec 8) (rd rs1 : Fin 16) {plen fw : Nat} (hp : plen < 256) (hw : fw < 256) :
    headP op rd rs1 plen fw =
      (op ++ (0 : BitVec 24)) ||| fieldAt rd.val 20 ||| fieldAt rs1.val 16 ||| fieldAt plen 8 ||| fieldAt fw 0 := by
  have h1 := fun i => testBit_of_lt (n := 4) rd.isLt (i := i)
  have h2 := fun i => testBit_of_lt (n := 4) rs1.isLt (i := i)
  have h3 := fun i => testBit_of_lt (n := 8) hp (i := i)
  have h4 := fun i => testBit_of_lt (n := 8) hw (i := i)
  apply BitVec.eq_of_getLsbD_eq
  intro i hi
  simp only [headP, BitVec.getLsbD_append, BitVec.getLsbD_or, getLsbD_fieldAt, getLsbD_ofFin4, BitVec.getLsbD_zero,
    BitVec.getLsbD_ofNat]
  interval_cases i <;> simp [h1, h2, h3, h4]

theorem headM_eq (op : BitVec 8) (rd rs1 : Fin 16) {max : Nat} (hm : max < 256) :
    headM op rd rs1 max = (op ++ (0 : BitVec 24)) ||| fieldAt rd.val 20 ||| fieldAt rs1.val 16 ||| fieldAt max 8 := by
  have h1 := fun i => testBit_of_lt (n := 4) rd.isLt (i := i)
  have h2 := fun i => testBit_of_lt (n := 4) rs1.isLt (i := i)
  have h3 := fun i => testBit_of_lt (n := 8) hm (i := i)
  apply BitVec.eq_of_getLsbD_eq
  intro i hi
  simp only [headM, BitVec.getLsbD_append, BitVec.getLsbD_or, getLsbD_fieldAt, getLsbD_ofFin4, BitVec.getLsbD_zero,
    BitVec.getLsbD_ofNat]
  interval_cases i <;> simp [h1, h2, h3]

theorem headI_eq (op : BitVec 8) (rd : Fin 16) {imm16 : Nat} (hk : imm16 < 65536) :
    headI op rd imm16 = (op ++ (0 : BitVec 24)) ||| fieldAt rd.val 20 ||| fieldAt imm16 0 := by
  have h1 := fun i => testBit_of_lt (n := 4) rd.isLt (i := i)
  have h2 := fun i => testBit_of_lt (n := 16) hk (i := i)
  apply BitVec.eq_of_getLsbD_eq
  intro i hi
  simp only [headI, BitVec.getLsbD_append, BitVec.getLsbD_or, getLsbD_fieldAt, getLsbD_ofFin4, BitVec.getLsbD_zero,
    BitVec.getLsbD_ofNat]
  interval_cases i <;> simp [h1, h2]

theorem headD_eq (op : BitVec 8) (rs1 rs2 : Fin 16) {fw : Nat} (hw : fw < 256) :
    headD op rs1 rs2 fw = (op ++ (0 : BitVec 24)) ||| fieldAt rs1.val 16 ||| fieldAt rs2.val 12 ||| fieldAt fw 0 := by
  have h1 := fun i => testBit_of_lt (n := 4) rs1.isLt (i := i)
  have h2 := fun i => testBit_of_lt (n := 4) rs2.isLt (i := i)
  have h3 := fun i => testBit_of_lt (n := 8) hw (i := i)
  apply BitVec.eq_of_getLsbD_eq
  intro i hi
  simp only [headD, BitVec.getLsbD_append, BitVec.getLsbD_or, getLsbD_fieldAt, getLsbD_ofFin4, BitVec.getLsbD_zero,
    BitVec.getLsbD_ofNat]
  interval_cases i <;> simp [h1, h2, h3]

theorem maskAddress_eq_formula (p w : Nat) : maskAddress p w = maskFormula p w := by
  apply BitVec.eq_of_toNat_eq
  simp [maskAddress, Nat.shiftLeft_eq, maskFormula]

theorem maskSize_eq_ofNat (p w : Nat) : maskSize p w = BitVec.ofNat 129 (2 ^ (w - p)) := by
  apply BitVec.eq_of_toNat_eq
  simp [maskSize, Nat.shiftLeft_eq]

theorem subnetHeader_eq (x : Subnet) : subnetHeader x = fieldAt x.fw.toNat 8 ||| fieldAt x.plen.toNat 0 := by
  apply BitVec.eq_of_getLsbD_eq
  intro i hi
  simp only [subnetHeader, BitVec.getLsbD_append, BitVec.getLsbD_or, getLsbD_fieldAt, BitVec.testBit_toNat]
  by_cases h1 : i < 8
  · simp [h1, hi]
  · by_cases h2 : i < 16
    · simp [h1, hi, BitVec.getLsbD_of_ge x.plen i (by omega), show 8 ≤ i by omega, show i - 8 < 8 by omega]
    · simp [h1, hi, show ¬i - 8 < 8 by omega, BitVec.getLsbD_of_ge x.plen i (by omega),
        BitVec.getLsbD_of_ge x.fw (i - 8) (by omega)]

end Sys2Proof.Machine
end

