-- ==== Sys2Proof/Laws/State.lean ====
section
/-! SUPPORT. One lemma per field and accessor per state update, all true by unfolding, so that no later proof unfolds a
record update; and the read-after-write lemmas of the register files. -/

namespace Sys2Proof.Machine.State


/-! ### setW -/

@[simp] theorem setW_w (s : State) (r : WReg) (v : WideUint) : (s.setW r v).w = s.w.set r.val v := rfl
@[simp] theorem setW_z (s : State) (r : WReg) (v : WideUint) : (s.setW r v).z = s.z := rfl
@[simp] theorem setW_n (s : State) (r : WReg) (v : WideUint) : (s.setW r v).n = s.n := rfl
@[simp] theorem setW_t (s : State) (r : WReg) (v : WideUint) : (s.setW r v).t = s.t := rfl
@[simp] theorem setW_c (s : State) (r : WReg) (v : WideUint) : (s.setW r v).c = s.c := rfl
@[simp] theorem setW_cmp (s : State) (r : WReg) (v : WideUint) : (s.setW r v).cmp = s.cmp := rfl
@[simp] theorem setW_halted (s : State) (r : WReg) (v : WideUint) : (s.setW r v).halted = s.halted := rfl
@[simp] theorem setW_rerr (s : State) (r : WReg) (v : WideUint) : (s.setW r v).rerr = s.rerr := rfl
@[simp] theorem setW_cause (s : State) (r : WReg) (v : WideUint) : (s.setW r v).cause = s.cause := rfl
@[simp] theorem setW_epc (s : State) (r : WReg) (v : WideUint) : (s.setW r v).epc = s.epc := rfl
@[simp] theorem setW_einfo (s : State) (r : WReg) (v : WideUint) : (s.setW r v).einfo = s.einfo := rfl
@[simp] theorem setW_list (s : State) (r : WReg) (v : WideUint) : (s.setW r v).list = s.list := rfl
@[simp] theorem setW_passes (s : State) (r : WReg) (v : WideUint) : (s.setW r v).passes = s.passes := rfl
@[simp] theorem setW_cmdcnt (s : State) (r : WReg) (v : WideUint) : (s.setW r v).cmdcnt = s.cmdcnt := rfl
@[simp] theorem setW_pending (s : State) (r : WReg) (v : WideUint) : (s.setW r v).pending = s.pending := rfl
@[simp] theorem setW_cmd (s : State) (r : WReg) (v : WideUint) : (s.setW r v).cmd = s.cmd := rfl
@[simp] theorem setW_res (s : State) (r : WReg) (v : WideUint) : (s.setW r v).res = s.res := rfl
@[simp] theorem setW_getZ (s : State) (r : WReg) (v : WideUint) (q : ZReg) : (s.setW r v).getZ q = s.getZ q := rfl
@[simp] theorem setW_getN (s : State) (r : WReg) (v : WideUint) (q : NReg) : (s.setW r v).getN q = s.getN q := rfl
@[simp] theorem setW_llen (s : State) (r : WReg) (v : WideUint) : (s.setW r v).llen = s.llen := rfl
@[simp] theorem setW_entry (s : State) (r : WReg) (v : WideUint) (k : Nat) : (s.setW r v).entry k = s.entry k := rfl
@[simp] theorem setW_llenWord (s : State) (r : WReg) (v : WideUint) : (s.setW r v).llenWord = s.llenWord := rfl
@[simp] theorem setW_flagsWord (s : State) (r : WReg) (v : WideUint) : (s.setW r v).flagsWord = s.flagsWord := rfl
@[simp] theorem setW_statusWord (s : State) (r : WReg) (v : WideUint) : (s.setW r v).statusWord = s.statusWord := rfl
@[simp] theorem setW_causeWord (s : State) (r : WReg) (v : WideUint) : (s.setW r v).causeWord = s.causeWord := rfl

/-! ### setZ -/

@[simp] theorem setZ_w (s : State) (r : ZReg) (v : Counter) : (s.setZ r v).w = s.w := rfl
@[simp] theorem setZ_z (s : State) (r : ZReg) (v : Counter) : (s.setZ r v).z = s.z.set r.val v := rfl
@[simp] theorem setZ_n (s : State) (r : ZReg) (v : Counter) : (s.setZ r v).n = s.n := rfl
@[simp] theorem setZ_t (s : State) (r : ZReg) (v : Counter) : (s.setZ r v).t = s.t := rfl
@[simp] theorem setZ_c (s : State) (r : ZReg) (v : Counter) : (s.setZ r v).c = s.c := rfl
@[simp] theorem setZ_cmp (s : State) (r : ZReg) (v : Counter) : (s.setZ r v).cmp = s.cmp := rfl
@[simp] theorem setZ_halted (s : State) (r : ZReg) (v : Counter) : (s.setZ r v).halted = s.halted := rfl
@[simp] theorem setZ_rerr (s : State) (r : ZReg) (v : Counter) : (s.setZ r v).rerr = s.rerr := rfl
@[simp] theorem setZ_cause (s : State) (r : ZReg) (v : Counter) : (s.setZ r v).cause = s.cause := rfl
@[simp] theorem setZ_epc (s : State) (r : ZReg) (v : Counter) : (s.setZ r v).epc = s.epc := rfl
@[simp] theorem setZ_einfo (s : State) (r : ZReg) (v : Counter) : (s.setZ r v).einfo = s.einfo := rfl
@[simp] theorem setZ_list (s : State) (r : ZReg) (v : Counter) : (s.setZ r v).list = s.list := rfl
@[simp] theorem setZ_passes (s : State) (r : ZReg) (v : Counter) : (s.setZ r v).passes = s.passes := rfl
@[simp] theorem setZ_cmdcnt (s : State) (r : ZReg) (v : Counter) : (s.setZ r v).cmdcnt = s.cmdcnt := rfl
@[simp] theorem setZ_pending (s : State) (r : ZReg) (v : Counter) : (s.setZ r v).pending = s.pending := rfl
@[simp] theorem setZ_cmd (s : State) (r : ZReg) (v : Counter) : (s.setZ r v).cmd = s.cmd := rfl
@[simp] theorem setZ_res (s : State) (r : ZReg) (v : Counter) : (s.setZ r v).res = s.res := rfl
@[simp] theorem setZ_getW (s : State) (r : ZReg) (v : Counter) (q : WReg) : (s.setZ r v).getW q = s.getW q := rfl
@[simp] theorem setZ_getN (s : State) (r : ZReg) (v : Counter) (q : NReg) : (s.setZ r v).getN q = s.getN q := rfl
@[simp] theorem setZ_llen (s : State) (r : ZReg) (v : Counter) : (s.setZ r v).llen = s.llen := rfl
@[simp] theorem setZ_entry (s : State) (r : ZReg) (v : Counter) (k : Nat) : (s.setZ r v).entry k = s.entry k := rfl
@[simp] theorem setZ_llenWord (s : State) (r : ZReg) (v : Counter) : (s.setZ r v).llenWord = s.llenWord := rfl
@[simp] theorem setZ_flagsWord (s : State) (r : ZReg) (v : Counter) : (s.setZ r v).flagsWord = s.flagsWord := rfl
@[simp] theorem setZ_statusWord (s : State) (r : ZReg) (v : Counter) : (s.setZ r v).statusWord = s.statusWord := rfl
@[simp] theorem setZ_causeWord (s : State) (r : ZReg) (v : Counter) : (s.setZ r v).causeWord = s.causeWord := rfl

/-! ### setN -/

@[simp] theorem setN_w (s : State) (r : NReg) (v : Subnet) : (s.setN r v).w = s.w := rfl
@[simp] theorem setN_z (s : State) (r : NReg) (v : Subnet) : (s.setN r v).z = s.z := rfl
@[simp] theorem setN_n (s : State) (r : NReg) (v : Subnet) : (s.setN r v).n = s.n.set r.val v := rfl
@[simp] theorem setN_t (s : State) (r : NReg) (v : Subnet) : (s.setN r v).t = s.t := rfl
@[simp] theorem setN_c (s : State) (r : NReg) (v : Subnet) : (s.setN r v).c = s.c := rfl
@[simp] theorem setN_cmp (s : State) (r : NReg) (v : Subnet) : (s.setN r v).cmp = s.cmp := rfl
@[simp] theorem setN_halted (s : State) (r : NReg) (v : Subnet) : (s.setN r v).halted = s.halted := rfl
@[simp] theorem setN_rerr (s : State) (r : NReg) (v : Subnet) : (s.setN r v).rerr = s.rerr := rfl
@[simp] theorem setN_cause (s : State) (r : NReg) (v : Subnet) : (s.setN r v).cause = s.cause := rfl
@[simp] theorem setN_epc (s : State) (r : NReg) (v : Subnet) : (s.setN r v).epc = s.epc := rfl
@[simp] theorem setN_einfo (s : State) (r : NReg) (v : Subnet) : (s.setN r v).einfo = s.einfo := rfl
@[simp] theorem setN_list (s : State) (r : NReg) (v : Subnet) : (s.setN r v).list = s.list := rfl
@[simp] theorem setN_passes (s : State) (r : NReg) (v : Subnet) : (s.setN r v).passes = s.passes := rfl
@[simp] theorem setN_cmdcnt (s : State) (r : NReg) (v : Subnet) : (s.setN r v).cmdcnt = s.cmdcnt := rfl
@[simp] theorem setN_pending (s : State) (r : NReg) (v : Subnet) : (s.setN r v).pending = s.pending := rfl
@[simp] theorem setN_cmd (s : State) (r : NReg) (v : Subnet) : (s.setN r v).cmd = s.cmd := rfl
@[simp] theorem setN_res (s : State) (r : NReg) (v : Subnet) : (s.setN r v).res = s.res := rfl
@[simp] theorem setN_getW (s : State) (r : NReg) (v : Subnet) (q : WReg) : (s.setN r v).getW q = s.getW q := rfl
@[simp] theorem setN_getZ (s : State) (r : NReg) (v : Subnet) (q : ZReg) : (s.setN r v).getZ q = s.getZ q := rfl
@[simp] theorem setN_llen (s : State) (r : NReg) (v : Subnet) : (s.setN r v).llen = s.llen := rfl
@[simp] theorem setN_entry (s : State) (r : NReg) (v : Subnet) (k : Nat) : (s.setN r v).entry k = s.entry k := rfl
@[simp] theorem setN_llenWord (s : State) (r : NReg) (v : Subnet) : (s.setN r v).llenWord = s.llenWord := rfl
@[simp] theorem setN_flagsWord (s : State) (r : NReg) (v : Subnet) : (s.setN r v).flagsWord = s.flagsWord := rfl
@[simp] theorem setN_statusWord (s : State) (r : NReg) (v : Subnet) : (s.setN r v).statusWord = s.statusWord := rfl
@[simp] theorem setN_causeWord (s : State) (r : NReg) (v : Subnet) : (s.setN r v).causeWord = s.causeWord := rfl

/-! ### setT -/

@[simp] theorem setT_w (s : State) (b : Bool) : (s.setT b).w = s.w := rfl
@[simp] theorem setT_z (s : State) (b : Bool) : (s.setT b).z = s.z := rfl
@[simp] theorem setT_n (s : State) (b : Bool) : (s.setT b).n = s.n := rfl
@[simp] theorem setT_t (s : State) (b : Bool) : (s.setT b).t = b := rfl
@[simp] theorem setT_c (s : State) (b : Bool) : (s.setT b).c = s.c := rfl
@[simp] theorem setT_cmp (s : State) (b : Bool) : (s.setT b).cmp = s.cmp := rfl
@[simp] theorem setT_halted (s : State) (b : Bool) : (s.setT b).halted = s.halted := rfl
@[simp] theorem setT_rerr (s : State) (b : Bool) : (s.setT b).rerr = s.rerr := rfl
@[simp] theorem setT_cause (s : State) (b : Bool) : (s.setT b).cause = s.cause := rfl
@[simp] theorem setT_epc (s : State) (b : Bool) : (s.setT b).epc = s.epc := rfl
@[simp] theorem setT_einfo (s : State) (b : Bool) : (s.setT b).einfo = s.einfo := rfl
@[simp] theorem setT_list (s : State) (b : Bool) : (s.setT b).list = s.list := rfl
@[simp] theorem setT_passes (s : State) (b : Bool) : (s.setT b).passes = s.passes := rfl
@[simp] theorem setT_cmdcnt (s : State) (b : Bool) : (s.setT b).cmdcnt = s.cmdcnt := rfl
@[simp] theorem setT_pending (s : State) (b : Bool) : (s.setT b).pending = s.pending := rfl
@[simp] theorem setT_cmd (s : State) (b : Bool) : (s.setT b).cmd = s.cmd := rfl
@[simp] theorem setT_res (s : State) (b : Bool) : (s.setT b).res = s.res := rfl
@[simp] theorem setT_getW (s : State) (b : Bool) (q : WReg) : (s.setT b).getW q = s.getW q := rfl
@[simp] theorem setT_getZ (s : State) (b : Bool) (q : ZReg) : (s.setT b).getZ q = s.getZ q := rfl
@[simp] theorem setT_getN (s : State) (b : Bool) (q : NReg) : (s.setT b).getN q = s.getN q := rfl
@[simp] theorem setT_llen (s : State) (b : Bool) : (s.setT b).llen = s.llen := rfl
@[simp] theorem setT_entry (s : State) (b : Bool) (k : Nat) : (s.setT b).entry k = s.entry k := rfl
@[simp] theorem setT_llenWord (s : State) (b : Bool) : (s.setT b).llenWord = s.llenWord := rfl
@[simp] theorem setT_statusWord (s : State) (b : Bool) : (s.setT b).statusWord = s.statusWord := rfl
@[simp] theorem setT_causeWord (s : State) (b : Bool) : (s.setT b).causeWord = s.causeWord := rfl

/-! ### setC -/

@[simp] theorem setC_w (s : State) (b : Bool) : (s.setC b).w = s.w := rfl
@[simp] theorem setC_z (s : State) (b : Bool) : (s.setC b).z = s.z := rfl
@[simp] theorem setC_n (s : State) (b : Bool) : (s.setC b).n = s.n := rfl
@[simp] theorem setC_t (s : State) (b : Bool) : (s.setC b).t = s.t := rfl
@[simp] theorem setC_c (s : State) (b : Bool) : (s.setC b).c = b := rfl
@[simp] theorem setC_cmp (s : State) (b : Bool) : (s.setC b).cmp = s.cmp := rfl
@[simp] theorem setC_halted (s : State) (b : Bool) : (s.setC b).halted = s.halted := rfl
@[simp] theorem setC_rerr (s : State) (b : Bool) : (s.setC b).rerr = s.rerr := rfl
@[simp] theorem setC_cause (s : State) (b : Bool) : (s.setC b).cause = s.cause := rfl
@[simp] theorem setC_epc (s : State) (b : Bool) : (s.setC b).epc = s.epc := rfl
@[simp] theorem setC_einfo (s : State) (b : Bool) : (s.setC b).einfo = s.einfo := rfl
@[simp] theorem setC_list (s : State) (b : Bool) : (s.setC b).list = s.list := rfl
@[simp] theorem setC_passes (s : State) (b : Bool) : (s.setC b).passes = s.passes := rfl
@[simp] theorem setC_cmdcnt (s : State) (b : Bool) : (s.setC b).cmdcnt = s.cmdcnt := rfl
@[simp] theorem setC_pending (s : State) (b : Bool) : (s.setC b).pending = s.pending := rfl
@[simp] theorem setC_cmd (s : State) (b : Bool) : (s.setC b).cmd = s.cmd := rfl
@[simp] theorem setC_res (s : State) (b : Bool) : (s.setC b).res = s.res := rfl
@[simp] theorem setC_getW (s : State) (b : Bool) (q : WReg) : (s.setC b).getW q = s.getW q := rfl
@[simp] theorem setC_getZ (s : State) (b : Bool) (q : ZReg) : (s.setC b).getZ q = s.getZ q := rfl
@[simp] theorem setC_getN (s : State) (b : Bool) (q : NReg) : (s.setC b).getN q = s.getN q := rfl
@[simp] theorem setC_llen (s : State) (b : Bool) : (s.setC b).llen = s.llen := rfl
@[simp] theorem setC_entry (s : State) (b : Bool) (k : Nat) : (s.setC b).entry k = s.entry k := rfl
@[simp] theorem setC_llenWord (s : State) (b : Bool) : (s.setC b).llenWord = s.llenWord := rfl
@[simp] theorem setC_statusWord (s : State) (b : Bool) : (s.setC b).statusWord = s.statusWord := rfl
@[simp] theorem setC_causeWord (s : State) (b : Bool) : (s.setC b).causeWord = s.causeWord := rfl

/-! ### setCmp -/

@[simp] theorem setCmp_w (s : State) (v : Cmp) : (s.setCmp v).w = s.w := rfl
@[simp] theorem setCmp_z (s : State) (v : Cmp) : (s.setCmp v).z = s.z := rfl
@[simp] theorem setCmp_n (s : State) (v : Cmp) : (s.setCmp v).n = s.n := rfl
@[simp] theorem setCmp_t (s : State) (v : Cmp) : (s.setCmp v).t = s.t := rfl
@[simp] theorem setCmp_c (s : State) (v : Cmp) : (s.setCmp v).c = s.c := rfl
@[simp] theorem setCmp_cmp (s : State) (v : Cmp) : (s.setCmp v).cmp = v := rfl
@[simp] theorem setCmp_halted (s : State) (v : Cmp) : (s.setCmp v).halted = s.halted := rfl
@[simp] theorem setCmp_rerr (s : State) (v : Cmp) : (s.setCmp v).rerr = s.rerr := rfl
@[simp] theorem setCmp_cause (s : State) (v : Cmp) : (s.setCmp v).cause = s.cause := rfl
@[simp] theorem setCmp_epc (s : State) (v : Cmp) : (s.setCmp v).epc = s.epc := rfl
@[simp] theorem setCmp_einfo (s : State) (v : Cmp) : (s.setCmp v).einfo = s.einfo := rfl
@[simp] theorem setCmp_list (s : State) (v : Cmp) : (s.setCmp v).list = s.list := rfl
@[simp] theorem setCmp_passes (s : State) (v : Cmp) : (s.setCmp v).passes = s.passes := rfl
@[simp] theorem setCmp_cmdcnt (s : State) (v : Cmp) : (s.setCmp v).cmdcnt = s.cmdcnt := rfl
@[simp] theorem setCmp_pending (s : State) (v : Cmp) : (s.setCmp v).pending = s.pending := rfl
@[simp] theorem setCmp_cmd (s : State) (v : Cmp) : (s.setCmp v).cmd = s.cmd := rfl
@[simp] theorem setCmp_res (s : State) (v : Cmp) : (s.setCmp v).res = s.res := rfl
@[simp] theorem setCmp_getW (s : State) (v : Cmp) (q : WReg) : (s.setCmp v).getW q = s.getW q := rfl
@[simp] theorem setCmp_getZ (s : State) (v : Cmp) (q : ZReg) : (s.setCmp v).getZ q = s.getZ q := rfl
@[simp] theorem setCmp_getN (s : State) (v : Cmp) (q : NReg) : (s.setCmp v).getN q = s.getN q := rfl
@[simp] theorem setCmp_llen (s : State) (v : Cmp) : (s.setCmp v).llen = s.llen := rfl
@[simp] theorem setCmp_entry (s : State) (v : Cmp) (k : Nat) : (s.setCmp v).entry k = s.entry k := rfl
@[simp] theorem setCmp_llenWord (s : State) (v : Cmp) : (s.setCmp v).llenWord = s.llenWord := rfl
@[simp] theorem setCmp_statusWord (s : State) (v : Cmp) : (s.setCmp v).statusWord = s.statusWord := rfl
@[simp] theorem setCmp_causeWord (s : State) (v : Cmp) : (s.setCmp v).causeWord = s.causeWord := rfl

/-! ### setList -/

@[simp] theorem setList_w (s : State) (l : ListMem) : (s.setList l).w = s.w := rfl
@[simp] theorem setList_z (s : State) (l : ListMem) : (s.setList l).z = s.z := rfl
@[simp] theorem setList_n (s : State) (l : ListMem) : (s.setList l).n = s.n := rfl
@[simp] theorem setList_t (s : State) (l : ListMem) : (s.setList l).t = s.t := rfl
@[simp] theorem setList_c (s : State) (l : ListMem) : (s.setList l).c = s.c := rfl
@[simp] theorem setList_cmp (s : State) (l : ListMem) : (s.setList l).cmp = s.cmp := rfl
@[simp] theorem setList_halted (s : State) (l : ListMem) : (s.setList l).halted = s.halted := rfl
@[simp] theorem setList_rerr (s : State) (l : ListMem) : (s.setList l).rerr = s.rerr := rfl
@[simp] theorem setList_cause (s : State) (l : ListMem) : (s.setList l).cause = s.cause := rfl
@[simp] theorem setList_epc (s : State) (l : ListMem) : (s.setList l).epc = s.epc := rfl
@[simp] theorem setList_einfo (s : State) (l : ListMem) : (s.setList l).einfo = s.einfo := rfl
@[simp] theorem setList_list (s : State) (l : ListMem) : (s.setList l).list = l := rfl
@[simp] theorem setList_passes (s : State) (l : ListMem) : (s.setList l).passes = s.passes := rfl
@[simp] theorem setList_cmdcnt (s : State) (l : ListMem) : (s.setList l).cmdcnt = s.cmdcnt := rfl
@[simp] theorem setList_pending (s : State) (l : ListMem) : (s.setList l).pending = s.pending := rfl
@[simp] theorem setList_cmd (s : State) (l : ListMem) : (s.setList l).cmd = s.cmd := rfl
@[simp] theorem setList_res (s : State) (l : ListMem) : (s.setList l).res = s.res := rfl
@[simp] theorem setList_getW (s : State) (l : ListMem) (q : WReg) : (s.setList l).getW q = s.getW q := rfl
@[simp] theorem setList_getZ (s : State) (l : ListMem) (q : ZReg) : (s.setList l).getZ q = s.getZ q := rfl
@[simp] theorem setList_getN (s : State) (l : ListMem) (q : NReg) : (s.setList l).getN q = s.getN q := rfl
@[simp] theorem setList_flagsWord (s : State) (l : ListMem) : (s.setList l).flagsWord = s.flagsWord := rfl
@[simp] theorem setList_statusWord (s : State) (l : ListMem) : (s.setList l).statusWord = s.statusWord := rfl
@[simp] theorem setList_causeWord (s : State) (l : ListMem) : (s.setList l).causeWord = s.causeWord := rfl

/-! ### appendEntries -/

@[simp] theorem appendEntries_w (s : State) (l : ListMem) : (s.appendEntries l).w = s.w := rfl
@[simp] theorem appendEntries_z (s : State) (l : ListMem) : (s.appendEntries l).z = s.z := rfl
@[simp] theorem appendEntries_n (s : State) (l : ListMem) : (s.appendEntries l).n = s.n := rfl
@[simp] theorem appendEntries_t (s : State) (l : ListMem) : (s.appendEntries l).t = s.t := rfl
@[simp] theorem appendEntries_c (s : State) (l : ListMem) : (s.appendEntries l).c = s.c := rfl
@[simp] theorem appendEntries_cmp (s : State) (l : ListMem) : (s.appendEntries l).cmp = s.cmp := rfl
@[simp] theorem appendEntries_halted (s : State) (l : ListMem) : (s.appendEntries l).halted = s.halted := rfl
@[simp] theorem appendEntries_rerr (s : State) (l : ListMem) : (s.appendEntries l).rerr = s.rerr := rfl
@[simp] theorem appendEntries_cause (s : State) (l : ListMem) : (s.appendEntries l).cause = s.cause := rfl
@[simp] theorem appendEntries_epc (s : State) (l : ListMem) : (s.appendEntries l).epc = s.epc := rfl
@[simp] theorem appendEntries_einfo (s : State) (l : ListMem) : (s.appendEntries l).einfo = s.einfo := rfl
@[simp] theorem appendEntries_list (s : State) (l : ListMem) : (s.appendEntries l).list = s.list ++ l := rfl
@[simp] theorem appendEntries_passes (s : State) (l : ListMem) : (s.appendEntries l).passes = s.passes := rfl
@[simp] theorem appendEntries_cmdcnt (s : State) (l : ListMem) : (s.appendEntries l).cmdcnt = s.cmdcnt := rfl
@[simp] theorem appendEntries_pending (s : State) (l : ListMem) : (s.appendEntries l).pending = s.pending := rfl
@[simp] theorem appendEntries_cmd (s : State) (l : ListMem) : (s.appendEntries l).cmd = s.cmd := rfl
@[simp] theorem appendEntries_res (s : State) (l : ListMem) : (s.appendEntries l).res = s.res := rfl
@[simp] theorem appendEntries_getW (s : State) (l : ListMem) (q : WReg) : (s.appendEntries l).getW q = s.getW q := rfl
@[simp] theorem appendEntries_getZ (s : State) (l : ListMem) (q : ZReg) : (s.appendEntries l).getZ q = s.getZ q := rfl
@[simp] theorem appendEntries_getN (s : State) (l : ListMem) (q : NReg) : (s.appendEntries l).getN q = s.getN q := rfl
@[simp] theorem appendEntries_flagsWord (s : State) (l : ListMem) : (s.appendEntries l).flagsWord = s.flagsWord := rfl
@[simp] theorem appendEntries_statusWord (s : State) (l : ListMem) : (s.appendEntries l).statusWord = s.statusWord := rfl
@[simp] theorem appendEntries_causeWord (s : State) (l : ListMem) : (s.appendEntries l).causeWord = s.causeWord := rfl

/-! ### setPasses -/

@[simp] theorem setPasses_w (s : State) (v : Word) : (s.setPasses v).w = s.w := rfl
@[simp] theorem setPasses_z (s : State) (v : Word) : (s.setPasses v).z = s.z := rfl
@[simp] theorem setPasses_n (s : State) (v : Word) : (s.setPasses v).n = s.n := rfl
@[simp] theorem setPasses_t (s : State) (v : Word) : (s.setPasses v).t = s.t := rfl
@[simp] theorem setPasses_c (s : State) (v : Word) : (s.setPasses v).c = s.c := rfl
@[simp] theorem setPasses_cmp (s : State) (v : Word) : (s.setPasses v).cmp = s.cmp := rfl
@[simp] theorem setPasses_halted (s : State) (v : Word) : (s.setPasses v).halted = s.halted := rfl
@[simp] theorem setPasses_rerr (s : State) (v : Word) : (s.setPasses v).rerr = s.rerr := rfl
@[simp] theorem setPasses_cause (s : State) (v : Word) : (s.setPasses v).cause = s.cause := rfl
@[simp] theorem setPasses_epc (s : State) (v : Word) : (s.setPasses v).epc = s.epc := rfl
@[simp] theorem setPasses_einfo (s : State) (v : Word) : (s.setPasses v).einfo = s.einfo := rfl
@[simp] theorem setPasses_list (s : State) (v : Word) : (s.setPasses v).list = s.list := rfl
@[simp] theorem setPasses_passes (s : State) (v : Word) : (s.setPasses v).passes = v := rfl
@[simp] theorem setPasses_cmdcnt (s : State) (v : Word) : (s.setPasses v).cmdcnt = s.cmdcnt := rfl
@[simp] theorem setPasses_pending (s : State) (v : Word) : (s.setPasses v).pending = s.pending := rfl
@[simp] theorem setPasses_cmd (s : State) (v : Word) : (s.setPasses v).cmd = s.cmd := rfl
@[simp] theorem setPasses_res (s : State) (v : Word) : (s.setPasses v).res = s.res := rfl
@[simp] theorem setPasses_getW (s : State) (v : Word) (q : WReg) : (s.setPasses v).getW q = s.getW q := rfl
@[simp] theorem setPasses_getZ (s : State) (v : Word) (q : ZReg) : (s.setPasses v).getZ q = s.getZ q := rfl
@[simp] theorem setPasses_getN (s : State) (v : Word) (q : NReg) : (s.setPasses v).getN q = s.getN q := rfl
@[simp] theorem setPasses_llen (s : State) (v : Word) : (s.setPasses v).llen = s.llen := rfl
@[simp] theorem setPasses_entry (s : State) (v : Word) (k : Nat) : (s.setPasses v).entry k = s.entry k := rfl
@[simp] theorem setPasses_llenWord (s : State) (v : Word) : (s.setPasses v).llenWord = s.llenWord := rfl
@[simp] theorem setPasses_flagsWord (s : State) (v : Word) : (s.setPasses v).flagsWord = s.flagsWord := rfl
@[simp] theorem setPasses_statusWord (s : State) (v : Word) : (s.setPasses v).statusWord = s.statusWord := rfl
@[simp] theorem setPasses_causeWord (s : State) (v : Word) : (s.setPasses v).causeWord = s.causeWord := rfl

/-! ### emit -/

@[simp] theorem emit_w (s : State) (ws : List Word) : (s.emit ws).w = s.w := rfl
@[simp] theorem emit_z (s : State) (ws : List Word) : (s.emit ws).z = s.z := rfl
@[simp] theorem emit_n (s : State) (ws : List Word) : (s.emit ws).n = s.n := rfl
@[simp] theorem emit_t (s : State) (ws : List Word) : (s.emit ws).t = s.t := rfl
@[simp] theorem emit_c (s : State) (ws : List Word) : (s.emit ws).c = s.c := rfl
@[simp] theorem emit_cmp (s : State) (ws : List Word) : (s.emit ws).cmp = s.cmp := rfl
@[simp] theorem emit_halted (s : State) (ws : List Word) : (s.emit ws).halted = s.halted := rfl
@[simp] theorem emit_rerr (s : State) (ws : List Word) : (s.emit ws).rerr = s.rerr := rfl
@[simp] theorem emit_cause (s : State) (ws : List Word) : (s.emit ws).cause = s.cause := rfl
@[simp] theorem emit_epc (s : State) (ws : List Word) : (s.emit ws).epc = s.epc := rfl
@[simp] theorem emit_einfo (s : State) (ws : List Word) : (s.emit ws).einfo = s.einfo := rfl
@[simp] theorem emit_list (s : State) (ws : List Word) : (s.emit ws).list = s.list := rfl
@[simp] theorem emit_passes (s : State) (ws : List Word) : (s.emit ws).passes = s.passes := rfl
@[simp] theorem emit_cmdcnt (s : State) (ws : List Word) : (s.emit ws).cmdcnt = s.cmdcnt := rfl
@[simp] theorem emit_pending (s : State) (ws : List Word) : (s.emit ws).pending = s.pending := rfl
@[simp] theorem emit_cmd (s : State) (ws : List Word) : (s.emit ws).cmd = s.cmd := rfl
@[simp] theorem emit_res (s : State) (ws : List Word) : (s.emit ws).res = s.res ++ ws := rfl
@[simp] theorem emit_getW (s : State) (ws : List Word) (q : WReg) : (s.emit ws).getW q = s.getW q := rfl
@[simp] theorem emit_getZ (s : State) (ws : List Word) (q : ZReg) : (s.emit ws).getZ q = s.getZ q := rfl
@[simp] theorem emit_getN (s : State) (ws : List Word) (q : NReg) : (s.emit ws).getN q = s.getN q := rfl
@[simp] theorem emit_llen (s : State) (ws : List Word) : (s.emit ws).llen = s.llen := rfl
@[simp] theorem emit_entry (s : State) (ws : List Word) (k : Nat) : (s.emit ws).entry k = s.entry k := rfl
@[simp] theorem emit_llenWord (s : State) (ws : List Word) : (s.emit ws).llenWord = s.llenWord := rfl
@[simp] theorem emit_flagsWord (s : State) (ws : List Word) : (s.emit ws).flagsWord = s.flagsWord := rfl
@[simp] theorem emit_statusWord (s : State) (ws : List Word) : (s.emit ws).statusWord = s.statusWord := rfl
@[simp] theorem emit_causeWord (s : State) (ws : List Word) : (s.emit ws).causeWord = s.causeWord := rfl

/-! ### takeWords -/

@[simp] theorem takeWords_w (s : State) (ws : List Word) : (s.takeWords ws).w = s.w := rfl
@[simp] theorem takeWords_z (s : State) (ws : List Word) : (s.takeWords ws).z = s.z := rfl
@[simp] theorem takeWords_n (s : State) (ws : List Word) : (s.takeWords ws).n = s.n := rfl
@[simp] theorem takeWords_t (s : State) (ws : List Word) : (s.takeWords ws).t = s.t := rfl
@[simp] theorem takeWords_c (s : State) (ws : List Word) : (s.takeWords ws).c = s.c := rfl
@[simp] theorem takeWords_cmp (s : State) (ws : List Word) : (s.takeWords ws).cmp = s.cmp := rfl
@[simp] theorem takeWords_halted (s : State) (ws : List Word) : (s.takeWords ws).halted = s.halted := rfl
@[simp] theorem takeWords_rerr (s : State) (ws : List Word) : (s.takeWords ws).rerr = s.rerr := rfl
@[simp] theorem takeWords_cause (s : State) (ws : List Word) : (s.takeWords ws).cause = s.cause := rfl
@[simp] theorem takeWords_epc (s : State) (ws : List Word) : (s.takeWords ws).epc = s.epc := rfl
@[simp] theorem takeWords_einfo (s : State) (ws : List Word) : (s.takeWords ws).einfo = s.einfo := rfl
@[simp] theorem takeWords_list (s : State) (ws : List Word) : (s.takeWords ws).list = s.list := rfl
@[simp] theorem takeWords_passes (s : State) (ws : List Word) : (s.takeWords ws).passes = s.passes := rfl
@[simp] theorem takeWords_cmdcnt (s : State) (ws : List Word) : (s.takeWords ws).cmdcnt = s.cmdcnt := rfl
@[simp] theorem takeWords_pending (s : State) (ws : List Word) : (s.takeWords ws).pending = [] := rfl
@[simp] theorem takeWords_cmd (s : State) (ws : List Word) : (s.takeWords ws).cmd = ws := rfl
@[simp] theorem takeWords_res (s : State) (ws : List Word) : (s.takeWords ws).res = s.res := rfl
@[simp] theorem takeWords_getW (s : State) (ws : List Word) (q : WReg) : (s.takeWords ws).getW q = s.getW q := rfl
@[simp] theorem takeWords_getZ (s : State) (ws : List Word) (q : ZReg) : (s.takeWords ws).getZ q = s.getZ q := rfl
@[simp] theorem takeWords_getN (s : State) (ws : List Word) (q : NReg) : (s.takeWords ws).getN q = s.getN q := rfl
@[simp] theorem takeWords_llen (s : State) (ws : List Word) : (s.takeWords ws).llen = s.llen := rfl
@[simp] theorem takeWords_entry (s : State) (ws : List Word) (k : Nat) : (s.takeWords ws).entry k = s.entry k := rfl
@[simp] theorem takeWords_llenWord (s : State) (ws : List Word) : (s.takeWords ws).llenWord = s.llenWord := rfl
@[simp] theorem takeWords_flagsWord (s : State) (ws : List Word) : (s.takeWords ws).flagsWord = s.flagsWord := rfl
@[simp] theorem takeWords_statusWord (s : State) (ws : List Word) : (s.takeWords ws).statusWord = s.statusWord := rfl
@[simp] theorem takeWords_causeWord (s : State) (ws : List Word) : (s.takeWords ws).causeWord = s.causeWord := rfl

/-! ### holdWords -/

@[simp] theorem holdWords_w (s : State) : (s.holdWords).w = s.w := rfl
@[simp] theorem holdWords_z (s : State) : (s.holdWords).z = s.z := rfl
@[simp] theorem holdWords_n (s : State) : (s.holdWords).n = s.n := rfl
@[simp] theorem holdWords_t (s : State) : (s.holdWords).t = s.t := rfl
@[simp] theorem holdWords_c (s : State) : (s.holdWords).c = s.c := rfl
@[simp] theorem holdWords_cmp (s : State) : (s.holdWords).cmp = s.cmp := rfl
@[simp] theorem holdWords_halted (s : State) : (s.holdWords).halted = s.halted := rfl
@[simp] theorem holdWords_rerr (s : State) : (s.holdWords).rerr = s.rerr := rfl
@[simp] theorem holdWords_cause (s : State) : (s.holdWords).cause = s.cause := rfl
@[simp] theorem holdWords_epc (s : State) : (s.holdWords).epc = s.epc := rfl
@[simp] theorem holdWords_einfo (s : State) : (s.holdWords).einfo = s.einfo := rfl
@[simp] theorem holdWords_list (s : State) : (s.holdWords).list = s.list := rfl
@[simp] theorem holdWords_passes (s : State) : (s.holdWords).passes = s.passes := rfl
@[simp] theorem holdWords_cmdcnt (s : State) : (s.holdWords).cmdcnt = s.cmdcnt := rfl
@[simp] theorem holdWords_pending (s : State) : (s.holdWords).pending = s.pending ++ s.cmd := rfl
@[simp] theorem holdWords_cmd (s : State) : (s.holdWords).cmd = [] := rfl
@[simp] theorem holdWords_res (s : State) : (s.holdWords).res = s.res := rfl
@[simp] theorem holdWords_getW (s : State) (q : WReg) : (s.holdWords).getW q = s.getW q := rfl
@[simp] theorem holdWords_getZ (s : State) (q : ZReg) : (s.holdWords).getZ q = s.getZ q := rfl
@[simp] theorem holdWords_getN (s : State) (q : NReg) : (s.holdWords).getN q = s.getN q := rfl
@[simp] theorem holdWords_llen (s : State) : (s.holdWords).llen = s.llen := rfl
@[simp] theorem holdWords_entry (s : State) (k : Nat) : (s.holdWords).entry k = s.entry k := rfl
@[simp] theorem holdWords_llenWord (s : State) : (s.holdWords).llenWord = s.llenWord := rfl
@[simp] theorem holdWords_flagsWord (s : State) : (s.holdWords).flagsWord = s.flagsWord := rfl
@[simp] theorem holdWords_statusWord (s : State) : (s.holdWords).statusWord = s.statusWord := rfl
@[simp] theorem holdWords_causeWord (s : State) : (s.holdWords).causeWord = s.causeWord := rfl

/-! ### retire -/

@[simp] theorem retire_w (s : State) : (s.retire).w = s.w := rfl
@[simp] theorem retire_z (s : State) : (s.retire).z = s.z := rfl
@[simp] theorem retire_n (s : State) : (s.retire).n = s.n := rfl
@[simp] theorem retire_t (s : State) : (s.retire).t = s.t := rfl
@[simp] theorem retire_c (s : State) : (s.retire).c = s.c := rfl
@[simp] theorem retire_cmp (s : State) : (s.retire).cmp = s.cmp := rfl
@[simp] theorem retire_halted (s : State) : (s.retire).halted = s.halted := rfl
@[simp] theorem retire_rerr (s : State) : (s.retire).rerr = s.rerr := rfl
@[simp] theorem retire_cause (s : State) : (s.retire).cause = s.cause := rfl
@[simp] theorem retire_epc (s : State) : (s.retire).epc = s.epc := rfl
@[simp] theorem retire_einfo (s : State) : (s.retire).einfo = s.einfo := rfl
@[simp] theorem retire_list (s : State) : (s.retire).list = s.list := rfl
@[simp] theorem retire_passes (s : State) : (s.retire).passes = s.passes := rfl
@[simp] theorem retire_cmdcnt (s : State) : (s.retire).cmdcnt = s.cmdcnt + 1 := rfl
@[simp] theorem retire_pending (s : State) : (s.retire).pending = s.pending := rfl
@[simp] theorem retire_cmd (s : State) : (s.retire).cmd = s.cmd := rfl
@[simp] theorem retire_res (s : State) : (s.retire).res = s.res := rfl
@[simp] theorem retire_getW (s : State) (q : WReg) : (s.retire).getW q = s.getW q := rfl
@[simp] theorem retire_getZ (s : State) (q : ZReg) : (s.retire).getZ q = s.getZ q := rfl
@[simp] theorem retire_getN (s : State) (q : NReg) : (s.retire).getN q = s.getN q := rfl
@[simp] theorem retire_llen (s : State) : (s.retire).llen = s.llen := rfl
@[simp] theorem retire_entry (s : State) (k : Nat) : (s.retire).entry k = s.entry k := rfl
@[simp] theorem retire_llenWord (s : State) : (s.retire).llenWord = s.llenWord := rfl
@[simp] theorem retire_flagsWord (s : State) : (s.retire).flagsWord = s.flagsWord := rfl
@[simp] theorem retire_statusWord (s : State) : (s.retire).statusWord = s.statusWord := rfl
@[simp] theorem retire_causeWord (s : State) : (s.retire).causeWord = s.causeWord := rfl

/-! ### record -/

@[simp] theorem record_w (s : State) (e : Exn) : (s.record e).w = s.w := rfl
@[simp] theorem record_z (s : State) (e : Exn) : (s.record e).z = s.z := rfl
@[simp] theorem record_n (s : State) (e : Exn) : (s.record e).n = s.n := rfl
@[simp] theorem record_t (s : State) (e : Exn) : (s.record e).t = s.t := rfl
@[simp] theorem record_c (s : State) (e : Exn) : (s.record e).c = s.c := rfl
@[simp] theorem record_cmp (s : State) (e : Exn) : (s.record e).cmp = s.cmp := rfl
@[simp] theorem record_halted (s : State) (e : Exn) : (s.record e).halted = s.halted := rfl
@[simp] theorem record_rerr (s : State) (e : Exn) : (s.record e).rerr = s.rerr := rfl
@[simp] theorem record_cause (s : State) (e : Exn) : (s.record e).cause = e.cause.code := rfl
@[simp] theorem record_epc (s : State) (e : Exn) : (s.record e).epc = s.cmdcnt := rfl
@[simp] theorem record_einfo (s : State) (e : Exn) : (s.record e).einfo = e.info := rfl
@[simp] theorem record_list (s : State) (e : Exn) : (s.record e).list = s.list := rfl
@[simp] theorem record_passes (s : State) (e : Exn) : (s.record e).passes = s.passes := rfl
@[simp] theorem record_cmdcnt (s : State) (e : Exn) : (s.record e).cmdcnt = s.cmdcnt := rfl
@[simp] theorem record_pending (s : State) (e : Exn) : (s.record e).pending = s.pending := rfl
@[simp] theorem record_cmd (s : State) (e : Exn) : (s.record e).cmd = s.cmd := rfl
@[simp] theorem record_res (s : State) (e : Exn) : (s.record e).res = s.res := rfl
@[simp] theorem record_getW (s : State) (e : Exn) (q : WReg) : (s.record e).getW q = s.getW q := rfl
@[simp] theorem record_getZ (s : State) (e : Exn) (q : ZReg) : (s.record e).getZ q = s.getZ q := rfl
@[simp] theorem record_getN (s : State) (e : Exn) (q : NReg) : (s.record e).getN q = s.getN q := rfl
@[simp] theorem record_llen (s : State) (e : Exn) : (s.record e).llen = s.llen := rfl
@[simp] theorem record_entry (s : State) (e : Exn) (k : Nat) : (s.record e).entry k = s.entry k := rfl
@[simp] theorem record_llenWord (s : State) (e : Exn) : (s.record e).llenWord = s.llenWord := rfl
@[simp] theorem record_flagsWord (s : State) (e : Exn) : (s.record e).flagsWord = s.flagsWord := rfl
@[simp] theorem record_statusWord (s : State) (e : Exn) : (s.record e).statusWord = s.statusWord := rfl

/-! ### takeFatal -/

@[simp] theorem takeFatal_w (s : State) (e : Exn) : (s.takeFatal e).w = s.w := rfl
@[simp] theorem takeFatal_z (s : State) (e : Exn) : (s.takeFatal e).z = s.z := rfl
@[simp] theorem takeFatal_n (s : State) (e : Exn) : (s.takeFatal e).n = s.n := rfl
@[simp] theorem takeFatal_t (s : State) (e : Exn) : (s.takeFatal e).t = s.t := rfl
@[simp] theorem takeFatal_c (s : State) (e : Exn) : (s.takeFatal e).c = s.c := rfl
@[simp] theorem takeFatal_cmp (s : State) (e : Exn) : (s.takeFatal e).cmp = s.cmp := rfl
@[simp] theorem takeFatal_halted (s : State) (e : Exn) : (s.takeFatal e).halted = true := rfl
@[simp] theorem takeFatal_rerr (s : State) (e : Exn) : (s.takeFatal e).rerr = s.rerr := rfl
@[simp] theorem takeFatal_cause (s : State) (e : Exn) : (s.takeFatal e).cause = e.cause.code := rfl
@[simp] theorem takeFatal_epc (s : State) (e : Exn) : (s.takeFatal e).epc = s.cmdcnt := rfl
@[simp] theorem takeFatal_einfo (s : State) (e : Exn) : (s.takeFatal e).einfo = e.info := rfl
@[simp] theorem takeFatal_list (s : State) (e : Exn) : (s.takeFatal e).list = s.list := rfl
@[simp] theorem takeFatal_passes (s : State) (e : Exn) : (s.takeFatal e).passes = s.passes := rfl
@[simp] theorem takeFatal_cmdcnt (s : State) (e : Exn) : (s.takeFatal e).cmdcnt = s.cmdcnt := rfl
@[simp] theorem takeFatal_pending (s : State) (e : Exn) : (s.takeFatal e).pending = s.pending := rfl
@[simp] theorem takeFatal_cmd (s : State) (e : Exn) : (s.takeFatal e).cmd = s.cmd := rfl
@[simp] theorem takeFatal_res (s : State) (e : Exn) : (s.takeFatal e).res = s.res := rfl
@[simp] theorem takeFatal_getW (s : State) (e : Exn) (q : WReg) : (s.takeFatal e).getW q = s.getW q := rfl
@[simp] theorem takeFatal_getZ (s : State) (e : Exn) (q : ZReg) : (s.takeFatal e).getZ q = s.getZ q := rfl
@[simp] theorem takeFatal_getN (s : State) (e : Exn) (q : NReg) : (s.takeFatal e).getN q = s.getN q := rfl
@[simp] theorem takeFatal_llen (s : State) (e : Exn) : (s.takeFatal e).llen = s.llen := rfl
@[simp] theorem takeFatal_entry (s : State) (e : Exn) (k : Nat) : (s.takeFatal e).entry k = s.entry k := rfl
@[simp] theorem takeFatal_llenWord (s : State) (e : Exn) : (s.takeFatal e).llenWord = s.llenWord := rfl
@[simp] theorem takeFatal_flagsWord (s : State) (e : Exn) : (s.takeFatal e).flagsWord = s.flagsWord := rfl

/-! ### acknowledge -/

@[simp] theorem acknowledge_w (s : State) : (s.acknowledge).w = s.w := rfl
@[simp] theorem acknowledge_z (s : State) : (s.acknowledge).z = s.z := rfl
@[simp] theorem acknowledge_n (s : State) : (s.acknowledge).n = s.n := rfl
@[simp] theorem acknowledge_t (s : State) : (s.acknowledge).t = s.t := rfl
@[simp] theorem acknowledge_c (s : State) : (s.acknowledge).c = s.c := rfl
@[simp] theorem acknowledge_cmp (s : State) : (s.acknowledge).cmp = s.cmp := rfl
@[simp] theorem acknowledge_halted (s : State) : (s.acknowledge).halted = s.halted := rfl
@[simp] theorem acknowledge_rerr (s : State) : (s.acknowledge).rerr = false := rfl
@[simp] theorem acknowledge_cause (s : State) : (s.acknowledge).cause = 0 := rfl
@[simp] theorem acknowledge_epc (s : State) : (s.acknowledge).epc = 0 := rfl
@[simp] theorem acknowledge_einfo (s : State) : (s.acknowledge).einfo = 0 := rfl
@[simp] theorem acknowledge_list (s : State) : (s.acknowledge).list = s.list := rfl
@[simp] theorem acknowledge_passes (s : State) : (s.acknowledge).passes = s.passes := rfl
@[simp] theorem acknowledge_cmdcnt (s : State) : (s.acknowledge).cmdcnt = s.cmdcnt := rfl
@[simp] theorem acknowledge_pending (s : State) : (s.acknowledge).pending = s.pending := rfl
@[simp] theorem acknowledge_cmd (s : State) : (s.acknowledge).cmd = s.cmd := rfl
@[simp] theorem acknowledge_res (s : State) : (s.acknowledge).res = s.res := rfl
@[simp] theorem acknowledge_getW (s : State) (q : WReg) : (s.acknowledge).getW q = s.getW q := rfl
@[simp] theorem acknowledge_getZ (s : State) (q : ZReg) : (s.acknowledge).getZ q = s.getZ q := rfl
@[simp] theorem acknowledge_getN (s : State) (q : NReg) : (s.acknowledge).getN q = s.getN q := rfl
@[simp] theorem acknowledge_llen (s : State) : (s.acknowledge).llen = s.llen := rfl
@[simp] theorem acknowledge_entry (s : State) (k : Nat) : (s.acknowledge).entry k = s.entry k := rfl
@[simp] theorem acknowledge_llenWord (s : State) : (s.acknowledge).llenWord = s.llenWord := rfl
@[simp] theorem acknowledge_flagsWord (s : State) : (s.acknowledge).flagsWord = s.flagsWord := rfl

/-! ### presentNext -/

@[simp] theorem presentNext_w (s : State) (ws : List Word) : (s.presentNext ws).w = s.w := rfl
@[simp] theorem presentNext_z (s : State) (ws : List Word) : (s.presentNext ws).z = s.z := rfl
@[simp] theorem presentNext_n (s : State) (ws : List Word) : (s.presentNext ws).n = s.n := rfl
@[simp] theorem presentNext_t (s : State) (ws : List Word) : (s.presentNext ws).t = s.t := rfl
@[simp] theorem presentNext_c (s : State) (ws : List Word) : (s.presentNext ws).c = s.c := rfl
@[simp] theorem presentNext_cmp (s : State) (ws : List Word) : (s.presentNext ws).cmp = s.cmp := rfl
@[simp] theorem presentNext_halted (s : State) (ws : List Word) : (s.presentNext ws).halted = false := rfl
@[simp] theorem presentNext_rerr (s : State) (ws : List Word) : (s.presentNext ws).rerr = s.rerr := rfl
@[simp] theorem presentNext_cause (s : State) (ws : List Word) : (s.presentNext ws).cause = s.cause := rfl
@[simp] theorem presentNext_epc (s : State) (ws : List Word) : (s.presentNext ws).epc = s.epc := rfl
@[simp] theorem presentNext_einfo (s : State) (ws : List Word) : (s.presentNext ws).einfo = s.einfo := rfl
@[simp] theorem presentNext_list (s : State) (ws : List Word) : (s.presentNext ws).list = s.list := rfl
@[simp] theorem presentNext_passes (s : State) (ws : List Word) : (s.presentNext ws).passes = s.passes := rfl
@[simp] theorem presentNext_cmdcnt (s : State) (ws : List Word) : (s.presentNext ws).cmdcnt = s.cmdcnt := rfl
@[simp] theorem presentNext_pending (s : State) (ws : List Word) : (s.presentNext ws).pending = [] := rfl
@[simp] theorem presentNext_cmd (s : State) (ws : List Word) : (s.presentNext ws).cmd = ws ++ s.cmd := rfl
@[simp] theorem presentNext_res (s : State) (ws : List Word) : (s.presentNext ws).res = s.res := rfl
@[simp] theorem presentNext_getW (s : State) (ws : List Word) (q : WReg) : (s.presentNext ws).getW q = s.getW q := rfl
@[simp] theorem presentNext_getZ (s : State) (ws : List Word) (q : ZReg) : (s.presentNext ws).getZ q = s.getZ q := rfl
@[simp] theorem presentNext_getN (s : State) (ws : List Word) (q : NReg) : (s.presentNext ws).getN q = s.getN q := rfl
@[simp] theorem presentNext_llen (s : State) (ws : List Word) : (s.presentNext ws).llen = s.llen := rfl
@[simp] theorem presentNext_entry (s : State) (ws : List Word) (k : Nat) : (s.presentNext ws).entry k = s.entry k := rfl
@[simp] theorem presentNext_llenWord (s : State) (ws : List Word) : (s.presentNext ws).llenWord = s.llenWord := rfl
@[simp] theorem presentNext_flagsWord (s : State) (ws : List Word) : (s.presentNext ws).flagsWord = s.flagsWord := rfl
@[simp] theorem presentNext_causeWord (s : State) (ws : List Word) : (s.presentNext ws).causeWord = s.causeWord := rfl

/-! ### present -/

@[simp] theorem present_w (s : State) (ws : List Word) : (s.present ws).w = s.w := rfl
@[simp] theorem present_z (s : State) (ws : List Word) : (s.present ws).z = s.z := rfl
@[simp] theorem present_n (s : State) (ws : List Word) : (s.present ws).n = s.n := rfl
@[simp] theorem present_t (s : State) (ws : List Word) : (s.present ws).t = s.t := rfl
@[simp] theorem present_c (s : State) (ws : List Word) : (s.present ws).c = s.c := rfl
@[simp] theorem present_cmp (s : State) (ws : List Word) : (s.present ws).cmp = s.cmp := rfl
@[simp] theorem present_halted (s : State) (ws : List Word) : (s.present ws).halted = s.halted := rfl
@[simp] theorem present_rerr (s : State) (ws : List Word) : (s.present ws).rerr = s.rerr := rfl
@[simp] theorem present_cause (s : State) (ws : List Word) : (s.present ws).cause = s.cause := rfl
@[simp] theorem present_epc (s : State) (ws : List Word) : (s.present ws).epc = s.epc := rfl
@[simp] theorem present_einfo (s : State) (ws : List Word) : (s.present ws).einfo = s.einfo := rfl
@[simp] theorem present_list (s : State) (ws : List Word) : (s.present ws).list = s.list := rfl
@[simp] theorem present_passes (s : State) (ws : List Word) : (s.present ws).passes = s.passes := rfl
@[simp] theorem present_cmdcnt (s : State) (ws : List Word) : (s.present ws).cmdcnt = s.cmdcnt := rfl
@[simp] theorem present_pending (s : State) (ws : List Word) : (s.present ws).pending = s.pending := rfl
@[simp] theorem present_cmd (s : State) (ws : List Word) : (s.present ws).cmd = s.cmd ++ ws := rfl
@[simp] theorem present_res (s : State) (ws : List Word) : (s.present ws).res = s.res := rfl
@[simp] theorem present_getW (s : State) (ws : List Word) (q : WReg) : (s.present ws).getW q = s.getW q := rfl
@[simp] theorem present_getZ (s : State) (ws : List Word) (q : ZReg) : (s.present ws).getZ q = s.getZ q := rfl
@[simp] theorem present_getN (s : State) (ws : List Word) (q : NReg) : (s.present ws).getN q = s.getN q := rfl
@[simp] theorem present_llen (s : State) (ws : List Word) : (s.present ws).llen = s.llen := rfl
@[simp] theorem present_entry (s : State) (ws : List Word) (k : Nat) : (s.present ws).entry k = s.entry k := rfl
@[simp] theorem present_llenWord (s : State) (ws : List Word) : (s.present ws).llenWord = s.llenWord := rfl
@[simp] theorem present_flagsWord (s : State) (ws : List Word) : (s.present ws).flagsWord = s.flagsWord := rfl
@[simp] theorem present_statusWord (s : State) (ws : List Word) : (s.present ws).statusWord = s.statusWord := rfl
@[simp] theorem present_causeWord (s : State) (ws : List Word) : (s.present ws).causeWord = s.causeWord := rfl

/-! ### Read after write -/

theorem getW_setW (s : State) (r q : WReg) (v : WideUint) : (s.setW r v).getW q = if q = r then v else s.getW q := by
  simp only [getW, setW, Vector.get_eq_getElem, Vector.getElem_set, Fin.ext_iff, eq_comm]
theorem getZ_setZ (s : State) (r q : ZReg) (v : Counter) : (s.setZ r v).getZ q = if q = r then v else s.getZ q := by
  simp only [getZ, setZ, Vector.get_eq_getElem, Vector.getElem_set, Fin.ext_iff, eq_comm]
theorem getN_setN (s : State) (r q : NReg) (v : Subnet) : (s.setN r v).getN q = if q = r then v else s.getN q := by
  simp only [getN, setN, Vector.get_eq_getElem, Vector.getElem_set, Fin.ext_iff, eq_comm]

@[simp] theorem getW_setW_self (s : State) (r : WReg) (v : WideUint) : (s.setW r v).getW r = v := by simp [getW_setW]
@[simp] theorem getZ_setZ_self (s : State) (r : ZReg) (v : Counter) : (s.setZ r v).getZ r = v := by simp [getZ_setZ]
@[simp] theorem getN_setN_self (s : State) (r : NReg) (v : Subnet) : (s.setN r v).getN r = v := by simp [getN_setN]
theorem getW_setW_of_ne {s : State} {r q : WReg} {v : WideUint} (h : q ≠ r) : (s.setW r v).getW q = s.getW q := by
  simp [getW_setW, h]
theorem getZ_setZ_of_ne {s : State} {r q : ZReg} {v : Counter} (h : q ≠ r) : (s.setZ r v).getZ q = s.getZ q := by
  simp [getZ_setZ, h]
theorem getN_setN_of_ne {s : State} {r q : NReg} {v : Subnet} (h : q ≠ r) : (s.setN r v).getN q = s.getN q := by
  simp [getN_setN, h]

/-! ### Two register files agree when every register reads the same -/

theorem w_ext {s t : State} (h : ∀ r, t.getW r = s.getW r) : t.w = s.w :=
  Vector.ext fun i hi => by simpa [getW, Vector.get_eq_getElem] using h ⟨i, hi⟩
theorem z_ext {s t : State} (h : ∀ r, t.getZ r = s.getZ r) : t.z = s.z :=
  Vector.ext fun i hi => by simpa [getZ, Vector.get_eq_getElem] using h ⟨i, hi⟩
theorem n_ext {s t : State} (h : ∀ r, t.getN r = s.getN r) : t.n = s.n :=
  Vector.ext fun i hi => by simpa [getN, Vector.get_eq_getElem] using h ⟨i, hi⟩

/-! ### Reset -/

@[simp] theorem reset_getW (r : WReg) : reset.getW r = 0 := by simp [getW, reset, Vector.get_eq_getElem]
@[simp] theorem reset_getZ (r : ZReg) : reset.getZ r = 0 := by simp [getZ, reset, Vector.get_eq_getElem]
@[simp] theorem reset_getN (r : NReg) : reset.getN r = Subnet.empty := by simp [getN, reset, Vector.get_eq_getElem]

/-! ### The list memory -/

@[simp] theorem llen_setList (s : State) (l : ListMem) : (s.setList l).llen = l.length := rfl
@[simp] theorem entry_setList (s : State) (l : ListMem) (k : Nat) : (s.setList l).entry k = l[k]? := rfl
@[simp] theorem llen_appendEntries (s : State) (l : ListMem) : (s.appendEntries l).llen = s.llen + l.length := by
  simp [llen, appendEntries]
theorem entry_appendEntries_old {s : State} {k : Nat} (l : ListMem) (h : k < s.llen) :
    (s.appendEntries l).entry k = s.entry k := by
  simp only [llen] at h; simp [entry, appendEntries, List.getElem?_append_left h]
theorem entry_appendEntries_new (s : State) (l : ListMem) (k : Nat) : (s.appendEntries l).entry (s.llen + k) = l[k]? := by
  simp [entry, appendEntries, llen, List.getElem?_append_right]
theorem entry_eq_none_iff (s : State) (k : Nat) : s.entry k = none ↔ s.llen ≤ k := by simp [entry, llen]
theorem entry_eq_some_of_lt {s : State} {k : Nat} (h : k < s.llen) : ∃ x, s.entry k = some x ∧ x ∈ s.list := by
  exact ⟨s.list[k]'h, by simp [entry, List.getElem?_eq_getElem h], List.getElem_mem _⟩

end Sys2Proof.Machine.State
end

