-- ==== Sys2Proof/Laws/Ops.lean ====
section
/-! SUPPORT. What each shared operation can do, said once: taking an exception, finishing a command, and each operand
check. -/

namespace Sys2Proof.Machine

/-! ### Taking an exception (60_exceptions R281, R283, R284) -/

namespace State

theorem takeException_fatal {s : State} {e : Exn} (h : e.cause.isFatal = true) : s.takeException e = s.takeFatal e := by
  simp [takeException, h]

theorem takeException_reportable {s : State} {e : Exn} (h : e.cause.isFatal = false) :
    s.takeException e = s.takeReportable e := by
  simp [takeException, h]

theorem takeReportable_recorded {s : State} {e : Exn} (h : s.rerr = true) : s.takeReportable e = s.retire := by
  simp [takeReportable, h]

theorem takeReportable_first {s : State} {e : Exn} (h : s.rerr = false) :
    s.takeReportable e = ({ s.record e with rerr := true } : State).retire := by
  simp [takeReportable, h]

/-- An exception leaves every register file, flag, list entry, PASSES, port and the result stream alone (R280). -/
theorem takeException_data (s : State) (e : Exn) :
    (s.takeException e).w = s.w ∧ (s.takeException e).z = s.z ∧ (s.takeException e).n = s.n ∧
    (s.takeException e).t = s.t ∧ (s.takeException e).c = s.c ∧ (s.takeException e).cmp = s.cmp ∧
    (s.takeException e).list = s.list ∧ (s.takeException e).passes = s.passes ∧
    (s.takeException e).pending = s.pending ∧ (s.takeException e).cmd = s.cmd ∧ (s.takeException e).res = s.res := by
  unfold takeException takeReportable
  split
  · simp
  · split <;> simp

@[simp] theorem takeException_w (s : State) (e : Exn) : (s.takeException e).w = s.w := (takeException_data s e).1
@[simp] theorem takeException_z (s : State) (e : Exn) : (s.takeException e).z = s.z := (takeException_data s e).2.1
@[simp] theorem takeException_n (s : State) (e : Exn) : (s.takeException e).n = s.n := (takeException_data s e).2.2.1
@[simp] theorem takeException_t (s : State) (e : Exn) : (s.takeException e).t = s.t := (takeException_data s e).2.2.2.1
@[simp] theorem takeException_c (s : State) (e : Exn) : (s.takeException e).c = s.c := (takeException_data s e).2.2.2.2.1
@[simp] theorem takeException_cmp (s : State) (e : Exn) : (s.takeException e).cmp = s.cmp :=
  (takeException_data s e).2.2.2.2.2.1
@[simp] theorem takeException_list (s : State) (e : Exn) : (s.takeException e).list = s.list :=
  (takeException_data s e).2.2.2.2.2.2.1
@[simp] theorem takeException_passes (s : State) (e : Exn) : (s.takeException e).passes = s.passes :=
  (takeException_data s e).2.2.2.2.2.2.2.1
@[simp] theorem takeException_pending (s : State) (e : Exn) : (s.takeException e).pending = s.pending :=
  (takeException_data s e).2.2.2.2.2.2.2.2.1
@[simp] theorem takeException_cmd (s : State) (e : Exn) : (s.takeException e).cmd = s.cmd :=
  (takeException_data s e).2.2.2.2.2.2.2.2.2.1
@[simp] theorem takeException_res (s : State) (e : Exn) : (s.takeException e).res = s.res :=
  (takeException_data s e).2.2.2.2.2.2.2.2.2.2

@[simp] theorem takeException_getW (s : State) (e : Exn) (r : WReg) : (s.takeException e).getW r = s.getW r := by
  simp [getW]
@[simp] theorem takeException_getZ (s : State) (e : Exn) (r : ZReg) : (s.takeException e).getZ r = s.getZ r := by
  simp [getZ]
@[simp] theorem takeException_getN (s : State) (e : Exn) (r : NReg) : (s.takeException e).getN r = s.getN r := by
  simp [getN]
@[simp] theorem takeException_llen (s : State) (e : Exn) : (s.takeException e).llen = s.llen := by simp [llen]
@[simp] theorem takeException_entry (s : State) (e : Exn) (k : Nat) : (s.takeException e).entry k = s.entry k := by
  simp [entry]

/-- The only commands that change anything of an exception record are its own: codes 1 to 7 are the fatal causes. -/
theorem fatal_code_range (c : Cause) (h : c.isFatal = true) : 1 ≤ c.code.toNat ∧ c.code.toNat ≤ 7 := by
  cases c <;> simp_all [Cause.isFatal, Cause.code]

end State

/-! ### Finishing a command (R279, R280) -/

@[simp] theorem finish_some (x : Exn) (t s : State) : finish (some x) t s = .next (s.takeException x) := rfl
@[simp] theorem finish_none (t s : State) : finish none t s = .next t.retire := rfl
@[simp] theorem complete_eq (t : State) : complete t = .next t.retire := rfl

/-- A checked command always answers a next state: the exception's entry, or its effect, retired. -/
theorem finish_cases {e : Option Exn} {t s u : State} (h : finish e t s = .next u) :
    (∃ x, e = some x ∧ u = s.takeException x) ∨ (e = none ∧ u = t.retire) := by
  cases e with
  | none => exact .inr ⟨rfl, by simpa using h.symm⟩
  | some x => exact .inl ⟨x, rfl, by simpa using h.symm⟩

theorem complete_cases {t u : State} (h : complete t = .next u) : u = t.retire := by simpa using h.symm

/-! ### The checks -/

theorem validWidth_iff (fw : Nat) : validWidth fw = true ↔ fw = 32 ∨ fw = 128 := by simp [validWidth]

theorem romIndex_iff (p w : Nat) : romIndex p w = true ↔ (w = 32 ∨ w = 128) ∧ p ≤ w := by simp [romIndex, validWidth]

theorem checkWidth_none {fw : Nat} (h : validWidth fw = true) : checkWidth fw = none := by simp [checkWidth, h]
theorem checkWidth_some {fw : Nat} (h : validWidth fw = false) :
    checkWidth fw = some { cause := .width, info := BitVec.ofNat 32 fw } := by simp [checkWidth, h]
theorem checkPlen_none {plen fw : Nat} (h : plen ≤ fw) : checkPlen plen fw = none := by simp [checkPlen, h]
theorem checkPlen_some {plen fw : Nat} (h : fw < plen) :
    checkPlen plen fw = some { cause := .plen, info := BitVec.ofNat 32 plen } := by
  simp [checkPlen, Nat.not_le.mpr h]

/-- The checks of a ROM index pass exactly on an index of the ROM. -/
theorem checkIndex_eq_none_iff (plen fw : Nat) : checkIndex plen fw = none ↔ romIndex plen fw = true := by
  unfold checkIndex checkWidth checkPlen romIndex
  by_cases hw : validWidth fw = true <;> by_cases hp : plen ≤ fw <;> simp [hw, hp]
theorem checkIndex_width {plen fw : Nat} (h : validWidth fw = false) :
    checkIndex plen fw = some { cause := .width, info := BitVec.ofNat 32 fw } := by
  simp [checkIndex, checkWidth_some h]
theorem checkIndex_plen {plen fw : Nat} (h : validWidth fw = true) (hp : fw < plen) :
    checkIndex plen fw = some { cause := .plen, info := BitVec.ofNat 32 plen } := by
  simp [checkIndex, checkWidth_none h, checkPlen_some hp]

theorem checkFamily_eq_none_iff (r : WReg) (fw : Nat) (s : State) :
    checkFamily r fw s = none ↔ (fw = 32 → inFamily (s.getW r) 32 = true) := by
  unfold checkFamily
  by_cases h : fw = 32 <;> cases hf : inFamily (s.getW r) 32 <;> simp [h]
theorem checkFamily_some {r : WReg} {s : State} (h : inFamily (s.getW r) 32 = false) :
    checkFamily r 32 s = some { cause := .family, info := BitVec.ofNat 32 r.val } := by simp [checkFamily, h]

theorem checkSubnet_eq_none_iff (r : NReg) (s : State) :
    checkSubnet r s = none ↔ validWidth (s.getN r).fw.toNat = true := by
  unfold checkSubnet checkWidth
  split <;> simp_all
theorem checkSubnet_some {r : NReg} {s : State} (h : validWidth (s.getN r).fw.toNat = false) :
    checkSubnet r s = some { cause := .width, info := BitVec.ofNat 32 (s.getN r).fw.toNat } := checkWidth_some h

theorem checkUnderflow_eq_none_iff (a b : Counter) : checkUnderflow a b = none ↔ b ≤ a := by
  unfold checkUnderflow
  split
  · simp_all
  · simp_all
theorem checkEntry_eq_none_iff (idx : Nat) (s : State) : checkEntry idx s = none ↔ idx < s.llen := by
  unfold checkEntry; split <;> simp_all
theorem checkOrder_eq_none_iff (b e : WideUint) : checkOrder b e = none ↔ b ≤ e := by
  unfold checkOrder; split <;> simp_all
theorem checkCapacity_eq_none_iff (k : Nat) (s : State) : checkCapacity k s = none ↔ s.llen + k ≤ Config.listDepth := by
  unfold checkCapacity; split <;> simp_all

/-- Two checks in order pass exactly when both do. -/
theorem orElse_eq_none_iff {α : Type} (a b : Option α) : (a <|> b) = none ↔ a = none ∧ b = none := by
  cases a <;> simp

/-- The checks of DECOMP pass exactly on a range request of one family with begin <= end (45_decompose R241). -/
theorem checkRange_eq_none_iff (rs1 rs2 : WReg) (fw : Nat) (s : State) :
    checkRange rs1 rs2 fw s = none ↔
      validWidth fw = true ∧ (fw = 32 → inFamily (s.getW rs1) 32 = true) ∧ (fw = 32 → inFamily (s.getW rs2) 32 = true) ∧
      s.getW rs1 ≤ s.getW rs2 := by
  unfold checkRange
  rw [orElse_eq_none_iff, orElse_eq_none_iff, orElse_eq_none_iff, checkFamily_eq_none_iff, checkFamily_eq_none_iff,
    checkOrder_eq_none_iff]
  unfold checkWidth
  by_cases h : validWidth fw = true <;> simp [h]

end Sys2Proof.Machine
end

