-- ==== Sys2Proof/Laws/Memory.lean ====
section
/-! SUPPORT. Every operation on the list memory keeps its form `ListMem.wf`, and the memory at reset has it (spec 10_state
R25, R35, 44_merge R200). -/

namespace Sys2Proof.Machine

theorem ListMem.wf_iff (l : ListMem) : l.wf = true ↔ l.length ≤ Config.listDepth ∧ AllWF l := by
  simp [ListMem.wf, AllWF]

/-- LIST at reset (70_reset_and_hazards R311). -/
theorem wf_reset : State.reset.list.wf = true := by
  rw [ListMem.wf_iff]; exact ⟨Nat.zero_le _, by simp [AllWF, State.reset]⟩

/-- LCLR (44_merge R201). -/
theorem wf_nil : ListMem.wf [] = true := by
  rw [ListMem.wf_iff]; exact ⟨Nat.zero_le _, by simp [AllWF]⟩

/-- LPUSH and DECOMP: appending well-formed Subnets that the capacity check lets through (44_merge R202, 45_decompose
R253). -/
theorem wf_append {l m : ListMem} (hl : l.wf = true) (hm : AllWF m) (hc : l.length + m.length ≤ Config.listDepth) :
    (l ++ m).wf = true := by
  rw [ListMem.wf_iff] at *
  refine ⟨by simpa using hc, fun x hx => ?_⟩
  rcases List.mem_append.mp hx with h | h
  · exact hl.2 x h
  · exact hm x h

/-- An N register that passes the check of 43_subnet R180 is well formed where the invariant of 10_state R25 holds. -/
theorem wellFormed_of_checkSubnet {s : State} {r : NReg} (hI : (s.getN r).isEmptyOrWellFormed = true)
    (h : checkSubnet r s = none) : (s.getN r).wellFormed = true := by
  rw [checkSubnet_eq_none_iff, validWidth_iff] at h
  unfold Subnet.isEmptyOrWellFormed at hI
  rw [Bool.or_eq_true, beq_iff_eq] at hI
  rcases hI with he | hw
  · rw [he] at h; simp [Subnet.empty] at h
  · exact hw

/-- MERGE (44_merge R216 (b); LLEN never grows, R215). -/
theorem wf_merge {l m : ListMem} {p : Nat} (hl : l.wf = true) (h : mergeList l = some (m, p)) : m.wf = true := by
  rw [ListMem.wf_iff] at *
  obtain ⟨m', p', h', _, _, hlen⟩ := mergeList_isSome l
  rw [h] at h'
  obtain ⟨rfl, rfl⟩ : m = m' ∧ p = p' := by simpa using h'
  exact ⟨le_trans hlen hl.1, (mergeList_spec hl.2 h).1⟩

/-- PASSES after MERGE stays within LIST_DEPTH (44_merge R215). -/
theorem passes_le_of_merge {l m : ListMem} {p : Nat} (hl : l.length ≤ Config.listDepth) (h : mergeList l = some (m, p)) :
    1 ≤ p ∧ p ≤ Config.listDepth := by
  obtain ⟨m', p', h', h1, h2, _⟩ := mergeList_isSome l
  rw [h] at h'
  obtain ⟨rfl, rfl⟩ : m = m' ∧ p = p' := by simpa using h'
  have hd : (dedupList (sortList l)).length ≤ l.length :=
    le_trans (dedupList_length _) (le_of_eq (sortList_perm l).length_eq)
  have := Config.one_le_listDepth
  exact ⟨h1, by omega⟩

/-- The command DECOMP always answers a next state: an exception of its checks, or its blocks appended, or E_CAPACITY
(45_decompose R240, R241, R253). -/
theorem execDecomp_eq (rs1 rs2 : WReg) (fw : Nat) (s : State) :
    (∃ x, checkRange rs1 rs2 fw s = some x ∧ execDecomp rs1 rs2 fw s = .next (s.takeException x)) ∨
    (checkRange rs1 rs2 fw s = none ∧ ∃ l, decompose (s.getW rs1) (s.getW rs2) fw = some l ∧ AllWF l ∧
      Tiles fw l (s.getW rs1).toNat ((s.getW rs2).toNat + 1) ∧ (l.IsChain fun x y => fuses x y = false) ∧
      execDecomp rs1 rs2 fw s = finish (checkCapacity l.length s) (s.appendEntries l) s) := by
  cases hc : checkRange rs1 rs2 fw s with
  | some x => exact .inl ⟨x, rfl, by simp [execDecomp, hc]⟩
  | none =>
    refine .inr ⟨rfl, ?_⟩
    obtain ⟨h1, _, h3, h4⟩ := (checkRange_eq_none_iff rs1 rs2 fw s).mp hc
    have hf := (validWidth_iff fw).mp h1
    have he : (s.getW rs2).toNat < 2 ^ fw := by
      rcases hf with rfl | rfl
      · exact (inFamily_iff _ _).mp (h3 rfl)
      · exact (s.getW rs2).isLt
    obtain ⟨l, g1, g2, g3, g4⟩ := decompose_spec hf he (BitVec.le_def.mp h4)
    exact ⟨l, g1, g2, g3, g4, by simp [execDecomp, hc, g1]⟩

end Sys2Proof.Machine
end

