-- ==== Sys2Proof/Laws/PerInstr.lean ====
section
/-! SUPPORT. Statements made per command: decoding the encoding of a well-formed command gives the command back and the
words after it. -/

set_option Elab.async false

namespace Sys2Proof.Laws.RoundTrip

/-- Decoding the words of a well-formed command, whatever words follow, gives that command and those words. -/
def Statement (i : Instr) : Prop := i.wellFormed = true → ∀ rest, decode (encode i ++ rest) = .command i rest

/-- The round trip of a command whose head word selects the row `o`, from its operands alone. -/
theorem of_row {i : Instr} {o : Op} (hf : findOp (headWord i) = some o) (hp : o.payloadWords = (payload i).length)
    (hc : ∀ rest, o.command (headWord i) (payload i ++ rest) = i) (rest : List Word) :
    decode (encode i ++ rest) = .command i rest := by
  rw [encode, List.cons_append, decode_cons hf, if_neg (by rw [hp, List.length_append]; omega), hc, hp, List.drop_left]

theorem wli (rd : WReg) (literal : WideUint) : Statement (.wli rd literal) := fun _ rest => by
  exact of_row (findOp_of_mask (h := headWord (.wli rd literal)) (o := .wli) (op := 0x01) (mask_rd ..) (by decide)) rfl
    (fun _ => by simp [Op.command, headWord, payload, literal128_extract]) rest

theorem wli4 (rd : WReg) (literal : Word) : Statement (.wli4 rd literal) := fun _ rest => by
  exact of_row (findOp_of_mask (h := headWord (.wli4 rd literal)) (o := .wli4) (op := 0x02) (mask_rd ..) (by decide)) rfl
    (fun _ => by simp [Op.command, headWord, payload]) rest

theorem wcmp (rs1 rs2 : WReg) : Statement (.wcmp rs1 rs2) := fun _ rest => by
  exact of_row (findOp_of_mask (h := headWord (.wcmp rs1 rs2)) (o := .wcmp) (op := 0x10) (mask_rs1_rs2 ..) (by decide)) rfl
    (fun _ => by simp [Op.command, headWord]) rest

theorem wnot (rd rs1 : WReg) : Statement (.wnot rd rs1) := fun _ rest => by
  exact of_row (findOp_of_mask (h := headWord (.wnot rd rs1)) (o := .wnot) (op := 0x11) (mask_rd_rs1 ..) (by decide)) rfl
    (fun _ => by simp [Op.command, headWord]) rest

theorem wand (rd rs1 rs2 : WReg) : Statement (.wand rd rs1 rs2) := fun _ rest => by
  exact of_row (findOp_of_mask (h := headWord (.wand rd rs1 rs2)) (o := .wand) (op := 0x12) (mask_rd_rs1_rs2 ..) (by decide)) rfl
    (fun _ => by simp [Op.command, headWord]) rest

theorem wshl (rd rs1 : WReg) : Statement (.wshl rd rs1) := fun _ rest => by
  exact of_row (findOp_of_mask (h := headWord (.wshl rd rs1)) (o := .wshl) (op := 0x13) (mask_rd_rs1 ..) (by decide)) rfl
    (fun _ => by simp [Op.command, headWord]) rest

theorem wnext (rd rs1 rs2 : WReg) : Statement (.wnext rd rs1 rs2) := fun _ rest => by
  exact of_row (findOp_of_mask (h := headWord (.wnext rd rs1 rs2)) (o := .wnext) (op := 0x14) (mask_rd_rs1_rs2 ..) (by decide)) rfl
    (fun _ => by simp [Op.command, headWord]) rest

theorem wrend (rd rs1 rs2 : WReg) : Statement (.wrend rd rs1 rs2) := fun _ rest => by
  exact of_row (findOp_of_mask (h := headWord (.wrend rd rs1 rs2)) (o := .wrend) (op := 0x15) (mask_rd_rs1_rs2 ..) (by decide)) rfl
    (fun _ => by simp [Op.command, headWord]) rest

theorem wjump (rd rs1 rs2 : WReg) : Statement (.wjump rd rs1 rs2) := fun _ rest => by
  exact of_row (findOp_of_mask (h := headWord (.wjump rd rs1 rs2)) (o := .wjump) (op := 0x16) (mask_rd_rs1_rs2 ..) (by decide)) rfl
    (fun _ => by simp [Op.command, headWord]) rest

theorem wcto (rd rs1 : WReg) (max : Nat) : Statement (.wcto rd rs1 max) := fun hw rest => by
  simp only [Instr.wellFormed, fitsImm8, decide_eq_true_eq] at hw
  exact of_row (findOp_of_mask (h := headWord (.wcto rd rs1 max)) (o := .wcto) (op := 0x17) (mask_max ..) (by decide)) rfl
    (fun _ => by simp [Op.command, headWord, fieldHi8_headM _ _ _ _ hw]) rest

theorem wout (rs1 : WReg) : Statement (.wout rs1) := fun _ rest => by
  exact of_row (findOp_of_mask (h := headWord (.wout rs1)) (o := .wout) (op := 0x18) (mask_rs1 ..) (by decide)) rfl
    (fun _ => by simp [Op.command, headWord]) rest

theorem maska (rd : WReg) (plen fw : Nat) : Statement (.maska rd plen fw) := fun hw rest => by
  simp only [Instr.wellFormed, fitsImm8, Bool.and_eq_true, decide_eq_true_eq] at hw
  exact of_row (findOp_of_mask (h := headWord (.maska rd plen fw)) (o := .maska) (op := 0x20) (mask_rd_plen_fw ..) (by decide)) rfl
    (fun _ => by simp [Op.command, headWord, fieldHi8_headP _ _ _ _ _ hw.1, fieldLo8_headP _ _ _ _ _ hw.2]) rest

theorem masks (rd : ZReg) (plen fw : Nat) : Statement (.masks rd plen fw) := fun hw rest => by
  simp only [Instr.wellFormed, fitsImm8, Bool.and_eq_true, decide_eq_true_eq] at hw
  exact of_row (findOp_of_mask (h := headWord (.masks rd plen fw)) (o := .masks) (op := 0x21) (mask_rd_plen_fw ..) (by decide)) rfl
    (fun _ => by simp [Op.command, headWord, fieldHi8_headP _ _ _ _ _ hw.1, fieldLo8_headP _ _ _ _ _ hw.2]) rest

theorem zsub (rd rs1 rs2 : ZReg) : Statement (.zsub rd rs1 rs2) := fun _ rest => by
  exact of_row (findOp_of_mask (h := headWord (.zsub rd rs1 rs2)) (o := .zsub) (op := 0x28) (mask_rd_rs1_rs2 ..) (by decide)) rfl
    (fun _ => by simp [Op.command, headWord]) rest

theorem zisz (rs1 : ZReg) : Statement (.zisz rs1) := fun _ rest => by
  exact of_row (findOp_of_mask (h := headWord (.zisz rs1)) (o := .zisz) (op := 0x29) (mask_rs1 ..) (by decide)) rfl
    (fun _ => by simp [Op.command, headWord]) rest

theorem zsetb (rd rs1 : ZReg) (plen fw : Nat) : Statement (.zsetb rd rs1 plen fw) := fun hw rest => by
  simp only [Instr.wellFormed, fitsImm8, Bool.and_eq_true, decide_eq_true_eq] at hw
  exact of_row (findOp_of_mask (h := headWord (.zsetb rd rs1 plen fw)) (o := .zsetb) (op := 0x2A) (mask_rd_rs1_plen_fw ..) (by decide)) rfl
    (fun _ => by simp [Op.command, headWord, fieldHi8_headP _ _ _ _ _ hw.1, fieldLo8_headP _ _ _ _ _ hw.2]) rest

theorem zout (rs1 : ZReg) : Statement (.zout rs1) := fun _ rest => by
  exact of_row (findOp_of_mask (h := headWord (.zout rs1)) (o := .zout) (op := 0x2B) (mask_rs1 ..) (by decide)) rfl
    (fun _ => by simp [Op.command, headWord]) rest

theorem nmake (rd : NReg) (rs1 : WReg) (plen fw : Nat) : Statement (.nmake rd rs1 plen fw) := fun hw rest => by
  simp only [Instr.wellFormed, fitsImm8, Bool.and_eq_true, decide_eq_true_eq] at hw
  exact of_row (findOp_of_mask (h := headWord (.nmake rd rs1 plen fw)) (o := .nmake) (op := 0x30) (mask_rd_rs1_plen_fw ..) (by decide)) rfl
    (fun _ => by simp [Op.command, headWord, fieldHi8_headP _ _ _ _ _ hw.1, fieldLo8_headP _ _ _ _ _ hw.2]) rest

theorem nbase (rd : WReg) (rs1 : NReg) : Statement (.nbase rd rs1) := fun _ rest => by
  exact of_row (findOp_of_mask (h := headWord (.nbase rd rs1)) (o := .nbase) (op := 0x31) (mask_rd_rs1 ..) (by decide)) rfl
    (fun _ => by simp [Op.command, headWord]) rest

theorem nmask (rd : WReg) (rs1 : NReg) : Statement (.nmask rd rs1) := fun _ rest => by
  exact of_row (findOp_of_mask (h := headWord (.nmask rd rs1)) (o := .nmask) (op := 0x32) (mask_rd_rs1 ..) (by decide)) rfl
    (fun _ => by simp [Op.command, headWord]) rest

theorem nincl (rs1 rs2 : NReg) : Statement (.nincl rs1 rs2) := fun _ rest => by
  exact of_row (findOp_of_mask (h := headWord (.nincl rs1 rs2)) (o := .nincl) (op := 0x33) (mask_rs1_rs2 ..) (by decide)) rfl
    (fun _ => by simp [Op.command, headWord]) rest

theorem nlt (rs1 rs2 : NReg) : Statement (.nlt rs1 rs2) := fun _ rest => by
  exact of_row (findOp_of_mask (h := headWord (.nlt rs1 rs2)) (o := .nlt) (op := 0x34) (mask_rs1_rs2 ..) (by decide)) rfl
    (fun _ => by simp [Op.command, headWord]) rest

theorem nwiden (rd rs1 : NReg) : Statement (.nwiden rd rs1) := fun _ rest => by
  exact of_row (findOp_of_mask (h := headWord (.nwiden rd rs1)) (o := .nwiden) (op := 0x35) (mask_rd_rs1 ..) (by decide)) rfl
    (fun _ => by simp [Op.command, headWord]) rest

theorem nout (rs1 : NReg) : Statement (.nout rs1) := fun _ rest => by
  exact of_row (findOp_of_mask (h := headWord (.nout rs1)) (o := .nout) (op := 0x36) (mask_rs1 ..) (by decide)) rfl
    (fun _ => by simp [Op.command, headWord]) rest

theorem lclr : Statement (.lclr) := fun _ rest => by
  exact of_row (findOp_of_mask (h := headWord (.lclr)) (o := .lclr) (op := 0x40) (mask_none ..) (by decide)) rfl
    (fun _ => by simp [Op.command]) rest

theorem lpush (rs1 : NReg) : Statement (.lpush rs1) := fun _ rest => by
  exact of_row (findOp_of_mask (h := headWord (.lpush rs1)) (o := .lpush) (op := 0x41) (mask_rs1 ..) (by decide)) rfl
    (fun _ => by simp [Op.command, headWord]) rest

theorem lget (rd : NReg) (idx : Nat) : Statement (.lget rd idx) := fun hw rest => by
  simp only [Instr.wellFormed, fitsImm16, decide_eq_true_eq] at hw
  exact of_row (findOp_of_mask (h := headWord (.lget rd idx)) (o := .lget) (op := 0x42) (mask_rd_imm16 ..) (by decide)) rfl
    (fun _ => by simp [Op.command, headWord, fieldImm16_headI _ _ _ hw]) rest

theorem lout : Statement (.lout) := fun _ rest => by
  exact of_row (findOp_of_mask (h := headWord (.lout)) (o := .lout) (op := 0x43) (mask_none ..) (by decide)) rfl
    (fun _ => by simp [Op.command, headWord]) rest

theorem merge : Statement (.merge) := fun _ rest => by
  exact of_row (findOp_of_mask (h := headWord (.merge)) (o := .merge) (op := 0x48) (mask_none ..) (by decide)) rfl
    (fun _ => by simp [Op.command, headWord]) rest

theorem decomp (rs1 rs2 : WReg) (fw : Nat) : Statement (.decomp rs1 rs2 fw) := fun hw rest => by
  simp only [Instr.wellFormed, fitsImm8, decide_eq_true_eq] at hw
  exact of_row (findOp_of_mask (h := headWord (.decomp rs1 rs2 fw)) (o := .decomp) (op := 0x49) (mask_range ..) (by decide)) rfl
    (fun _ => by simp [Op.command, headWord, fieldLo8_headD _ _ _ _ hw]) rest

theorem csrout (csr : Nat) : Statement (.csrout csr) := fun hw rest => by
  simp only [Instr.wellFormed, fitsImm16, decide_eq_true_eq] at hw
  exact of_row (findOp_of_mask (h := headWord (.csrout csr)) (o := .csrout) (op := 0x50) (mask_imm16 ..) (by decide)) rfl
    (fun _ => by simp [Op.command, headWord, fieldImm16_headI _ _ _ hw]) rest

theorem clrerr : Statement (.clrerr) := fun _ rest => by
  exact of_row (findOp_of_mask (h := headWord (.clrerr)) (o := .clrerr) (op := 0x51) (mask_none ..) (by decide)) rfl
    (fun _ => by simp [Op.command, headWord]) rest

end Sys2Proof.Laws.RoundTrip
end

