-- ==== Sys2Proof/Laws/Step.lean ====
section
/-! SUPPORT. What a step can do, said once; runs of several steps; and words presented after the ones being read. -/

namespace Sys2Proof.Machine

/-- Everything a step can do: a halted unit stays as it is; a whole command runs in the state in which its words have been
taken; an illegal head word is rejected; an unfinished literal, or no word, is held. -/
theorem step_cases (s : State) :
    (s.halted = true ∧ step s = .next s) ∨
    (s.halted = false ∧ ∃ i rest, s.fetch = .command i rest ∧ step s = exec i (s.takeWords rest)) ∨
    (s.halted = false ∧ ∃ h rest, s.fetch = .illegal h rest ∧ step s = .next ((s.takeWords rest).rejectHead h)) ∨
    (s.halted = false ∧ s.fetch = .incomplete ∧ step s = .next s.holdWords) := by
  unfold step
  cases hh : s.halted
  · cases hf : s.fetch with
    | command i rest => exact .inr (.inl ⟨rfl, i, rest, rfl, by simp⟩)
    | illegal h rest => exact .inr (.inr (.inl ⟨rfl, h, rest, rfl, by simp⟩))
    | incomplete => exact .inr (.inr (.inr ⟨rfl, rfl, by simp⟩))
  · exact .inl ⟨rfl, by simp⟩

/-- No step: the run is where it was. -/
theorem run_zero (s : State) : core.run 0 s = .next s := rfl

/-- One step that answers a next state, then k more. -/
theorem run_succ_of_next {s t : State} (h : step s = .next t) (k : Nat) : core.run (k + 1) s = core.run k t := by
  have key : ∀ (M : Host.Core) (a b : M.State), M.step a = .next b → M.run (k + 1) a = M.run k b := by
    intro M a b hab
    rw [Host.Core.run, hab]
  exact key core s t h

/-- The operands are in the head word and the row's own payload words. -/
theorem command_append {o : Op} {h : Word} {tl : List Word} (hl : o.payloadWords ≤ tl.length) (more : List Word) :
    o.command h (tl ++ more) = o.command h tl := by
  have key : ∀ k, k < o.payloadWords → (tl ++ more).getD k 0 = tl.getD k 0 := by
    intro k hk
    rw [List.getD_eq_getElem?_getD, List.getD_eq_getElem?_getD, List.getElem?_append_left (by omega)]
  cases o
  case wli => simp only [Op.command, key 0 (by decide), key 1 (by decide), key 2 (by decide), key 3 (by decide)]
  case wli4 => simp only [Op.command, key 0 (by decide)]
  all_goals rfl

/-- What the decoder reads does not depend on words presented after a whole command. -/
theorem decode_append_of_command {ws rest : List Word} {i : Instr} (h : decode ws = .command i rest) (more : List Word) :
    decode (ws ++ more) = .command i (rest ++ more) := by
  cases ws with
  | nil => simp [decode] at h
  | cons w tl =>
    simp only [List.cons_append, decode] at h ⊢
    cases hf : findOp w with
    | none => rw [hf] at h; simp at h
    | some o =>
      rw [hf] at h
      simp only at h ⊢
      split at h
      · cases h
      · rename_i hlt
        simp only [Decoded.command.injEq] at h
        obtain ⟨rfl, rfl⟩ := h
        rw [if_neg (by simp only [List.length_append]; omega)]
        have hd : (tl ++ more).drop o.payloadWords = tl.drop o.payloadWords ++ more := by
          rw [List.drop_append_of_le_length (by omega)]
        rw [hd, command_append (by omega)]

/-- Nor does it depend on words presented after an illegal head word. -/
theorem decode_append_of_illegal {ws rest : List Word} {h : Word} (hd : decode ws = .illegal h rest) (more : List Word) :
    decode (ws ++ more) = .illegal h (rest ++ more) := by
  cases ws with
  | nil => simp [decode] at hd
  | cons w tl =>
    simp only [List.cons_append, decode] at hd ⊢
    cases hf : findOp w with
    | none =>
      rw [hf] at hd
      simp only [Decoded.illegal.injEq] at hd ⊢
      exact ⟨hd.1, by rw [hd.2]⟩
    | some o => rw [hf] at hd; simp only at hd; split at hd <;> cases hd

end Sys2Proof.Machine
end

