-- ==== Sys2Proof/Machine/Assembly.lean ====
section
/-! DEFINITION. The assembler syntax of a command as text (spec 30_encoding R105). Nothing of the machine rests on it. -/

namespace Sys2Proof

/-- The n low hexadecimal digits of v, most significant first. -/
def hexDigits : Nat → Nat → String
  | 0, _ => ""
  | n + 1, v => hexDigits n (v / 16) ++ String.singleton (Nat.digitChar (v % 16))

/-- A register name. -/
def wName (r : WReg) : String := "W" ++ toString r.val
/-- A register name. -/
def zName (r : ZReg) : String := "Z" ++ toString r.val
/-- A register name. -/
def nName (r : NReg) : String := "N" ++ toString r.val
/-- An immediate, in decimal. -/
def immText (v : Nat) : String := "#" ++ toString v

/-- The mnemonic (R100). -/
def Instr.mnemonic : Instr → String
  | .wli _ _ => "WLI"
  | .wli4 _ _ => "WLI4"
  | .wcmp _ _ => "WCMP"
  | .wnot _ _ => "WNOT"
  | .wand _ _ _ => "WAND"
  | .wshl _ _ => "WSHL"
  | .wnext _ _ _ => "WNEXT"
  | .wrend _ _ _ => "WREND"
  | .wjump _ _ _ => "WJUMP"
  | .wcto _ _ _ => "WCTO"
  | .wout _ => "WOUT"
  | .maska _ _ _ => "MASKA"
  | .masks _ _ _ => "MASKS"
  | .zsub _ _ _ => "ZSUB"
  | .zisz _ => "ZISZ"
  | .zsetb _ _ _ _ => "ZSETB"
  | .zout _ => "ZOUT"
  | .nmake _ _ _ _ => "NMAKE"
  | .nbase _ _ => "NBASE"
  | .nmask _ _ => "NMASK"
  | .nincl _ _ => "NINCL"
  | .nlt _ _ => "NLT"
  | .nwiden _ _ => "NWIDEN"
  | .nout _ => "NOUT"
  | .lclr => "LCLR"
  | .lpush _ => "LPUSH"
  | .lget _ _ => "LGET"
  | .lout => "LOUT"
  | .merge => "MERGE"
  | .decomp _ _ _ => "DECOMP"
  | .csrout _ => "CSROUT"
  | .clrerr => "CLRERR"

/-- The operands in the order of R100, the destination first. -/
def Instr.operands : Instr → List String
  | .wli rd v => [wName rd, "0x" ++ hexDigits 32 v.toNat]
  | .wli4 rd v => [wName rd, "0x" ++ hexDigits 8 v.toNat]
  | .wcmp a b => [wName a, wName b]
  | .wnot d a => [wName d, wName a]
  | .wand d a b => [wName d, wName a, wName b]
  | .wshl d a => [wName d, wName a]
  | .wnext d a b => [wName d, wName a, wName b]
  | .wrend d a b => [wName d, wName a, wName b]
  | .wjump d a b => [wName d, wName a, wName b]
  | .wcto d a m => [wName d, wName a, immText m]
  | .wout a => [wName a]
  | .maska d p w => [wName d, immText p, immText w]
  | .masks d p w => [zName d, immText p, immText w]
  | .zsub d a b => [zName d, zName a, zName b]
  | .zisz a => [zName a]
  | .zsetb d a p w => [zName d, zName a, immText p, immText w]
  | .zout a => [zName a]
  | .nmake d a p w => [nName d, wName a, immText p, immText w]
  | .nbase d a => [wName d, nName a]
  | .nmask d a => [wName d, nName a]
  | .nincl a b => [nName a, nName b]
  | .nlt a b => [nName a, nName b]
  | .nwiden d a => [nName d, nName a]
  | .nout a => [nName a]
  | .lclr => []
  | .lpush a => [nName a]
  | .lget d k => [nName d, immText k]
  | .lout => []
  | .merge => []
  | .decomp a b w => [wName a, wName b, immText w]
  | .csrout k => [immText k]
  | .clrerr => []

/-- The line `MNEMONIC operand, operand, ...` (R105). -/
def Instr.assembly (i : Instr) : String :=
  match i.operands with
  | [] => i.mnemonic
  | o :: os => i.mnemonic ++ " " ++ String.intercalate ", " (o :: os)

/-- The dotted quad a.b.c.d of WLI4's literal (R105, 00_scope R16). -/
def dottedQuad (a b c d : BitVec 8) : Word := a ++ b ++ c ++ d

end Sys2Proof
end

