-- ==== Sys2Proof/Tests/Slice0.lean ====
section
/-! SUPPORT. Small tests: one ill-formed command per check of WellFormed, one word written out from the spec per command,
single steps on the vectors of spec/95_test_vectors.md (or the table a comment names), and for every statement with
hypotheses a concrete case that meets them, at the bounds of each clause. -/

set_option Elab.async false

namespace Sys2Proof.Tests

open Sys2Proof Sys2Proof.Machine

/-! ### Helpers -/

/-- The next state, if the answer is one. -/
def nextOf : Host.Outcome State Fault Refusal → Option State
  | .next t => some t
  | _ => none

theorem exists_next {o : Host.Outcome State Fault Refusal} (h : (nextOf o).isSome = true) : ∃ t, o = .next t := by
  cases o with
  | next t => exact ⟨t, rfl⟩
  | fault _ => cases h
  | refused _ => cases h

/-- What `f` reads after the command `i` in state `s`. -/
def reads {α : Type} (i : Instr) (s : State) (f : State → α) : Option α := (nextOf (exec i s)).map f

/-- Reset, with W1 and W2. -/
def w12 (a b : WideUint) : State := (State.reset.setW 1 a).setW 2 b
/-- Reset, with Z1 and Z2. -/
def z12 (a b : Counter) : State := (State.reset.setZ 1 a).setZ 2 b
/-- Reset, with N1 and N2. -/
def n12 (a b : Subnet) : State := (State.reset.setN 1 a).setN 2 b
/-- Reset, with LIST. -/
def withList (l : ListMem) : State := State.reset.setList l
/-- A family-32 Subnet. -/
def v4 (base : WideUint) (plen : BitVec 8) : Subnet := { base := base, plen := plen, fw := 32 }
/-- A family-128 Subnet. -/
def v6 (base : WideUint) (plen : BitVec 8) : Subnet := { base := base, plen := plen, fw := 128 }
/-- HALTED, CAUSE, EPC, EINFO, CMDCNT. -/
def record (s : State) : Bool × BitVec 8 × Word × Word × Word := (s.halted, s.cause, s.epc, s.einfo, s.cmdcnt)

/-! ### WellFormed refuses an immediate that does not fit its field (30_encoding R92 to R98) -/

theorem test_wcto_max_256_refused : (Instr.wcto 0 0 256).wellFormed = false := by decide
theorem test_maska_plen_256_refused : (Instr.maska 0 256 32).wellFormed = false := by decide
theorem test_maska_fw_256_refused : (Instr.maska 0 0 256).wellFormed = false := by decide
theorem test_masks_plen_256_refused : (Instr.masks 0 256 32).wellFormed = false := by decide
theorem test_masks_fw_256_refused : (Instr.masks 0 0 256).wellFormed = false := by decide
theorem test_zsetb_plen_256_refused : (Instr.zsetb 0 0 256 32).wellFormed = false := by decide
theorem test_zsetb_fw_256_refused : (Instr.zsetb 0 0 0 256).wellFormed = false := by decide
theorem test_nmake_plen_256_refused : (Instr.nmake 0 0 256 32).wellFormed = false := by decide
theorem test_nmake_fw_256_refused : (Instr.nmake 0 0 0 256).wellFormed = false := by decide
theorem test_lget_idx_65536_refused : (Instr.lget 0 65536).wellFormed = false := by decide
theorem test_decomp_fw_256_refused : (Instr.decomp 0 0 256).wellFormed = false := by decide
theorem test_csrout_csr_65536_refused : (Instr.csrout 65536).wellFormed = false := by decide

/-! ### Every command's word, written out from 30_encoding R91 to R100 (most of them stand in 95_test_vectors) -/

theorem test_decode_wli : decode [0x01300000, 0x20010DB8, 0, 0xFFFFFFFF, 1] =
    .command (.wli 3 0x20010DB800000000FFFFFFFF00000001) [] := by decide
theorem test_decode_wli4 : decode [0x02100000, 0xC0A80007, 0x48000000] = .command (.wli4 1 0xC0A80007) [0x48000000] := by
  decide
theorem test_decode_wcmp : decode [0x10023000] = .command (.wcmp 2 3) [] := by decide
theorem test_decode_wnot : decode [0x11540000] = .command (.wnot 5 4) [] := by decide
theorem test_decode_wand : decode [0x12615000] = .command (.wand 6 1 5) [] := by decide
theorem test_decode_wshl : decode [0x13A40000] = .command (.wshl 10 4) [] := by decide
theorem test_decode_wnext : decode [0x14314000] = .command (.wnext 3 1 4) [] := by decide
theorem test_decode_wrend : decode [0x15214000] = .command (.wrend 2 1 4) [] := by decide
theorem test_decode_wjump : decode [0x16F1E000] = .command (.wjump 15 1 14) [] := by decide
theorem test_decode_wcto : decode [0x17322000] = .command (.wcto 3 2 32) [] := by decide
theorem test_decode_wout : decode [0x18060000] = .command (.wout 6) [] := by decide
theorem test_decode_maska : decode [0x20407880] = .command (.maska 4 120 128) [] := by decide
theorem test_decode_masks : decode [0x21107880] = .command (.masks 1 120 128) [] := by decide
theorem test_decode_zsub : decode [0x28312000] = .command (.zsub 3 1 2) [] := by decide
theorem test_decode_zisz : decode [0x29040000] = .command (.zisz 4) [] := by decide
theorem test_decode_zsetb : decode [0x2A211C20] = .command (.zsetb 2 1 28 32) [] := by decide
theorem test_decode_zout : decode [0x2B010000] = .command (.zout 1) [] := by decide
theorem test_decode_nmake : decode [0x30168080] = .command (.nmake 1 6 128 128) [] := by decide
theorem test_decode_nbase : decode [0x31320000] = .command (.nbase 3 2) [] := by decide
theorem test_decode_nmask : decode [0x32420000] = .command (.nmask 4 2) [] := by decide
theorem test_decode_nincl : decode [0x33012000] = .command (.nincl 1 2) [] := by decide
theorem test_decode_nlt : decode [0x34012000] = .command (.nlt 1 2) [] := by decide
theorem test_decode_nwiden : decode [0x35320000] = .command (.nwiden 3 2) [] := by decide
theorem test_decode_nout : decode [0x36030000] = .command (.nout 3) [] := by decide
theorem test_decode_lclr : decode [0x40000000] = .command .lclr [] := by decide
theorem test_decode_lpush : decode [0x41030000] = .command (.lpush 3) [] := by decide
theorem test_decode_lget : decode [0x42501234] = .command (.lget 5 0x1234) [] := by decide
theorem test_decode_lout : decode [0x43000000] = .command .lout [] := by decide
theorem test_decode_merge : decode [0x48000000] = .command .merge [] := by decide
theorem test_decode_decomp : decode [0x49021020] = .command (.decomp 2 1 32) [] := by decide
theorem test_decode_csrout : decode [0x50000009] = .command (.csrout 9) [] := by decide
theorem test_decode_clrerr : decode [0x51000000] = .command .clrerr [] := by decide

/-- The illegal words of 95_test_vectors 2.7. -/
theorem test_decode_illegal : ([0x00000000, 0xFFFFFFFF, 0x03000000, 0x05001000, 0x10100000, 0x17322001, 0x20410820,
    0x42510000, 0x48000001, 0x49112020, 0x49012120] : List Word).all (fun h => decode [h, 7] == .illegal h [7]) = true := by
  decide

/-- R105: the assembly of one command of P1 and of one with two immediates. -/
theorem test_assembly : (Instr.nmake 1 6 128 128).assembly = "NMAKE N1, W6, #128, #128" := by decide +kernel

/-! ### Single steps -/

/-- R121, R122 (95_test_vectors 2.1). -/
theorem test_wli : reads (.wli 3 0x20010DB8000000000000000000000001) State.reset (·.getW 3) =
    some 0x20010DB8000000000000000000000001 := by decide +kernel
theorem test_wli4 : reads (.wli4 1 0xC0A80007) (w12 allOnes 0) (·.getW 1) = some 0xC0A80007 := by decide +kernel
/-- R123: the high half decides; bit 127 is no sign. -/
theorem test_wcmp_high_half : reads (.wcmp 1 2) (w12 0x00000000000000010000000000000000 0x0000000000000000FFFFFFFFFFFFFFFF)
    (·.flagsWord) = some 0x4 := by decide +kernel
theorem test_wcmp_unsigned : reads (.wcmp 1 2) (w12 0x7FFFFFFFFFFFFFFFFFFFFFFFFFFFFFFF 0x80000000000000000000000000000000)
    (·.flagsWord) = some 0xC := by decide +kernel
theorem test_wnot : reads (.wnot 1 1) (w12 0xC0A80007 0) (·.getW 1) = some 0xFFFFFFFFFFFFFFFFFFFFFFFF3F57FFF8 := by
  decide +kernel
theorem test_wand : reads (.wand 3 1 2) (w12 0xC0A80007 0xFFFFFFFFFFFFFFFFFFFFFFFFFFFFFFF8) (·.getW 3) =
    some 0xC0A80000 := by decide +kernel
theorem test_wshl_split : reads (.wshl 3 1) (w12 0x8000000000000000 0) (fun t => (t.getW 3, t.c)) =
    some (0x10000000000000000, false) := by decide +kernel
theorem test_wshl_out : reads (.wshl 1 1) (w12 0x80000000000000000000000000000001 0) (fun t => (t.getW 1, t.c)) =
    some (2, true) := by decide +kernel
theorem test_wnext_split : reads (.wnext 3 1 2) (w12 0xFFFFFFFFFFFFFF00 0xFFFFFFFFFFFFFFFFFFFFFFFFFFFFFF00)
    (fun t => (t.getW 3, t.c)) = some (0x10000000000000000, false) := by decide +kernel
theorem test_wnext_wraps : reads (.wnext 3 1 2) (w12 5 0) (fun t => (t.getW 3, t.c)) = some (0, true) := by decide +kernel
theorem test_wrend : reads (.wrend 3 1 2) (w12 0x0A000000 0xFFFFFFFFFFFFFFFFFFFFFFFFFF000000) (·.getW 3) =
    some 0x0AFFFFFF := by decide +kernel
theorem test_wjump : reads (.wjump 3 1 2) (w12 0xC0A80010 0xFFFFFFFFFFFFFFFFFFFFFFFFFFFFFFFC) (fun t => (t.getW 3, t.c)) =
    some (0xC0A80014, false) := by decide +kernel
theorem test_wcto : reads (.wcto 3 1 32) (w12 0xFFFFFFFFFFFFFFFFFFFFFFFF3F57FFF7 0) (·.getW 3) = some 3 := by decide +kernel
theorem test_wcto_all_ones : reads (.wcto 3 1 255) (w12 allOnes 0) (·.getW 3) = some 128 := by decide +kernel
theorem test_wout : reads (.wout 1) (w12 0x20010DB8000000000000000000000001 0) (·.res) = some [0x20010DB8, 0, 0, 1] := by
  decide +kernel
/-- 95_test_vectors 2.2. -/
theorem test_maska : reads (.maska 3 65 128) State.reset (·.getW 3) = some 0xFFFFFFFFFFFFFFFF8000000000000000 := by
  decide +kernel
theorem test_maska_prefix : reads (.maska 3 33 32) State.reset record = some (true, 3, 0, 0x21, 0) := by decide +kernel
theorem test_masks : reads (.masks 3 0 128) State.reset (·.getZ 3) = some (0x100000000000000000000000000000000) := by
  decide +kernel
theorem test_masks_prefix : reads (.masks 0 129 128) State.reset record = some (true, 3, 0, 0x81, 0) := by decide +kernel
/-- 95_test_vectors 2.3. -/
theorem test_zsub : reads (.zsub 3 1 2) (z12 0x100000000000000000000000000000000 1) (·.getZ 3) =
    some 0xFFFFFFFFFFFFFFFFFFFFFFFFFFFFFFFF := by decide +kernel
theorem test_zsub_underflow : reads (.zsub 3 1 2) (z12 0 1) (fun t => (record t, t.getZ 3)) = some ((true, 5, 0, 0, 0), 0) := by
  decide +kernel
theorem test_zisz_bit_128 : reads (.zisz 1) (z12 0x100000000000000000000000000000000 0) (·.t) = some false := by
  decide +kernel
theorem test_zisz_zero : reads (.zisz 1) (z12 0 0) (·.t) = some true := by decide +kernel
theorem test_zsetb_top : reads (.zsetb 1 0 0 128) State.reset (·.getZ 1) = some 0x100000000000000000000000000000000 := by
  decide +kernel
theorem test_zsetb_keeps : reads (.zsetb 1 1 28 32) (z12 8 0) (·.getZ 1) = some 24 := by decide +kernel
theorem test_zout : reads (.zout 1) (z12 0x100000000000000000000000000000007 0) (·.res) = some [1, 0, 0, 0, 7] := by
  decide +kernel
/-- 95_test_vectors 2.4. -/
theorem test_nmake : reads (.nmake 2 1 29 32) (w12 0xC0A80007 0) (fun t => (t.getN 2, t.t)) =
    some (v4 0xC0A80000 29, false) := by decide +kernel
theorem test_nmake_width_first : reads (.nmake 2 1 40 64) (w12 5 0) record = some (true, 2, 0, 0x40, 0) := by decide +kernel
theorem test_nbase : reads (.nbase 3 2) (n12 Subnet.empty (v4 0xC0A80000 29)) (·.getW 3) = some 0xC0A80000 := by
  decide +kernel
theorem test_nmask : reads (.nmask 4 2) (n12 Subnet.empty (v4 0xC0A80000 29)) (·.getW 4) =
    some 0xFFFFFFFFFFFFFFFFFFFFFFFFFFFFFFF8 := by decide +kernel
theorem test_nincl : reads (.nincl 1 2) (n12 (v4 0xC0A80000 29) (v4 0xC0A80006 31)) (·.t) = some true := by decide +kernel
theorem test_nincl_swapped : reads (.nincl 2 1) (n12 (v4 0xC0A80000 29) (v4 0xC0A80006 31)) (·.t) = some false := by
  decide +kernel
theorem test_nlt_plen : reads (.nlt 1 2) (n12 (v4 0x0A000000 8) (v4 0x0A000000 24)) (·.t) = some true := by decide +kernel
theorem test_nlt_family : reads (.nlt 1 2) (n12 (v6 0 0) (v4 0xFFFFFFFF 32)) (·.t) = some false := by decide +kernel
theorem test_nwiden : reads (.nwiden 3 1) (n12 (v4 0x01020300 32) Subnet.empty) (fun t => (t.getN 3, t.t)) =
    some (v4 0x01020300 31, true) := by decide +kernel
theorem test_nwiden_upper_half : reads (.nwiden 2 1) (n12 (v6 0x80000000000000000000000000000000 1) (v4 7 32))
    (fun t => (t.getN 2, t.t)) = some (v4 7 32, false) := by decide +kernel
theorem test_nout : reads (.nout 2) (n12 Subnet.empty (v4 0xC0A80000 29)) (·.res) =
    some [0x0000201D, 0, 0, 0, 0xC0A80000] := by decide +kernel
theorem test_nout_empty : reads (.nout 2) State.reset record = some (true, 2, 0, 0, 0) := by decide +kernel
/-- 95_test_vectors 2.5. -/
theorem test_lclr : reads .lclr (withList [v4 0 0, v4 1 32]) (·.list) = some [] := by decide +kernel
theorem test_lpush : reads (.lpush 1) (n12 (v4 7 32) Subnet.empty) (·.list) = some [v4 7 32] := by decide +kernel
theorem test_lpush_empty : reads (.lpush 3) State.reset record = some (true, 2, 0, 0, 0) := by decide +kernel
theorem test_lget : reads (.lget 5 1) (withList [v4 0 0, v6 1 128]) (·.getN 5) = some (v6 1 128) := by decide +kernel
theorem test_lget_index : reads (.lget 5 0) State.reset record = some (true, 7, 0, 0, 0) := by decide +kernel
theorem test_lout : reads .lout (withList [v4 0x0A000000 23]) (·.res) = some [1, 0x00002017, 0, 0, 0, 0x0A000000] := by
  decide +kernel
/-- S3: six blocks become 1.2.3.0/27 in two passes. -/
theorem test_merge_s3 : reads .merge (withList [v4 0x01020300 32, v4 0x01020301 32, v4 0x01020302 31, v4 0x01020304 30,
    v4 0x01020308 29, v4 0x01020310 28]) (fun t => (t.list, t.passes)) = some ([v4 0x01020300 27], 2) := by decide +kernel
theorem test_merge_families : reads .merge (withList [v6 0 1, v6 0x80000000000000000000000000000000 1, v4 0 1,
    v4 0x80000000 1]) (fun t => (t.list, t.passes)) = some ([v4 0 0, v6 0 0], 2) := by decide +kernel
/-- S2: 192.168.0.7 to 192.168.0.22 (45_decompose R254). -/
theorem test_decompose_s2 : decompose 0xC0A80007 0xC0A80016 32 = some [v4 0xC0A80007 32, v4 0xC0A80008 29, v4 0xC0A80010 30,
    v4 0xC0A80014 31, v4 0xC0A80016 32] := by decide +kernel
/-- S1, and the exception order of 95_test_vectors 2.6. -/
theorem test_decomp_whole : reads (.decomp 1 2 32) (w12 0 0xFFFFFFFF) (·.list) = some [v4 0 0] := by decide +kernel
theorem test_decomp_order : reads (.decomp 1 2 128) (w12 5 1) (fun t => (record t, t.rerr)) =
    some ((false, 8, 0, 0, 1), true) := by decide +kernel
/-- 95_test_vectors 2.7, 46_system R261. -/
theorem test_csrout_flags : reads (.csrout 4) { State.reset with t := true, c := true, cmp := .less } (·.res) =
    some [0xF] := by decide +kernel
theorem test_csrout_reserved : reads (.csrout 9) State.reset record = some (true, 1, 0, 0x50000009, 0) := by decide +kernel
theorem test_clrerr : reads .clrerr { State.reset with rerr := true, cause := 8, epc := 2 } (fun t => (t.rerr, record t)) =
    some (false, false, 0, 0, 0, 1) := by decide +kernel
/-- A step takes exactly its command's words (R104). -/
theorem test_step_takes_words : (nextOf (step (State.reset.present [0x02100000, 7, 0x48000000]))).map
    (fun t => (t.getW 1, t.cmd)) = some (7, [0x48000000]) := by decide +kernel
/-- The word placed for the host is the next one run. -/
theorem test_withFetchWord : (nextOf (step (State.reset.withFetchWord 32 0x50000009))).map record =
    some (true, 1, 0, 0x50000009, 0) := by decide +kernel

/-! ### Witnesses: for each statement with hypotheses, cases that meet them all, at the bounds of each clause -/

/-- EncodeThenDecodeGivesTheCommand: immediates at their greatest. -/
theorem witness_wellFormed : (Instr.lget 15 65535).wellFormed = true ∧ (Instr.wcto 15 15 255).wellFormed = true ∧
    (Instr.nmake 15 15 255 255).wellFormed = true := by decide
/-- DecodedWordsAreTheCommandsOwn. -/
theorem witness_decode_command : decode [0x02F00000, 0xFFFFFFFF, 0x00000000] = .command (.wli4 15 0xFFFFFFFF) [0x00000000] := by
  decide
/-- MustBeZeroBitsMakeHeadIllegal: the lowest and the highest must-be-zero bit. -/
theorem witness_must_be_zero : (fieldOp 0x48000001 = fieldOp Op.merge.matchWord ∧
    (0x48000001 : Word) &&& (Op.merge.maskWord &&& 0x00FFFFFF) ≠ 0) ∧ fieldOp 0x10800000 = fieldOp Op.wcmp.matchWord ∧
    (0x10800000 : Word) &&& (Op.wcmp.maskWord &&& 0x00FFFFFF) ≠ 0 := by decide
/-- UnmatchedHeadWordsRaiseIllegal, first clause. -/
theorem witness_unmatched : (∀ o : Op, (0x03000000 : Word) &&& o.maskWord ≠ o.matchWord) ∧
    (State.reset.present [0x03000000, 5]).halted = false ∧ (State.reset.present [0x03000000, 5]).pending = [] ∧
    (State.reset.present [0x03000000, 5]).cmd = 0x03000000 :: [5] := ⟨fun o => by cases o <;> decide, rfl, rfl, rfl⟩
/-- UnmatchedHeadWordsRaiseIllegal, second clause: the bounds of the outermost and of an inner range. -/
theorem witness_unlisted_codes : ∀ h ∈ ([0x00000000, 0x00FFFFFF, 0x03000000, 0x0FFFFFFF, 0x52000000, 0xFFFFFFFF] : List Word),
    ∃ lo hi : Nat, (lo, hi) ∈ [(0x00, 0x00), (0x03, 0x0F), (0x19, 0x1F), (0x22, 0x27), (0x2C, 0x2F), (0x37, 0x3F),
      (0x44, 0x47), (0x4A, 0x4F), (0x52, 0xFF)] ∧ lo ≤ h.toNat / 2 ^ 24 ∧ h.toNat / 2 ^ 24 ≤ hi := by
  intro h hh
  simp only [List.mem_cons, List.not_mem_nil, or_false] at hh
  rcases hh with rfl | rfl | rfl | rfl | rfl | rfl
  · exact ⟨0, 0, by decide⟩
  · exact ⟨0, 0, by decide⟩
  · exact ⟨0x03, 0x0F, by decide⟩
  · exact ⟨0x03, 0x0F, by decide⟩
  · exact ⟨0x52, 0xFF, by decide⟩
  · exact ⟨0x52, 0xFF, by decide⟩
/-- StepRunsTheDecodedCommand: with a literal's first words already taken. -/
theorem witness_step_runs : (Instr.wli4 3 9).wellFormed = true ∧ ({ State.reset with pending := [0x02300000], cmd := [9, 1] } : State).halted = false ∧
    [0x02300000] ++ [9, 1] = encode (.wli4 3 9) ++ [1] := by decide
/-- NoLookAheadBeyondTheCommand. -/
theorem witness_no_look_ahead : (State.reset.present [0x40000000]).halted = false ∧
    (State.reset.present [0x40000000]).fetch ≠ .incomplete ∧ ∃ t, step (State.reset.present [0x40000000]) = .next t :=
  ⟨rfl, by decide, exists_next (by decide +kernel)⟩
/-- UnfinishedLiteralWaits: no payload word yet, and one short. -/
theorem witness_unfinished : (0x02100000 : Word) &&& Op.wli4.maskWord = Op.wli4.matchWord ∧
    ([] : List Word).length < Op.wli4.payloadWords ∧ (0x01F00000 : Word) &&& Op.wli.maskWord = Op.wli.matchWord ∧
    ([1, 2, 3] : List Word).length < Op.wli.payloadWords ∧
    ({ State.reset with pending := [0x01F00000, 1], cmd := [2, 3] } : State).halted = false := by decide
/-- TrailingOnesAreCounted. -/
theorem witness_wcto_max : 255 < 256 ∧ 0 < 256 := by decide
/-- MaskTableReads, CounterSetBitFromTop: the clauses at prefix lengths 0 and fw, at the widths beside the two, and one past
the width. -/
theorem witness_mask_index : (isWidth 32 ∧ 0 ≤ 32 ∧ 32 ≤ 32 ∧ isWidth 128 ∧ 128 ≤ 128) ∧
    (¬isWidth 0 ∧ ¬isWidth 31 ∧ ¬isWidth 33 ∧ ¬isWidth 127 ∧ ¬isWidth 129 ∧ ¬isWidth 255) ∧
    (32 < 33 ∧ 128 < 129 ∧ 33 < 256 ∧ 129 < 256 ∧ 128 < 255) := by unfold isWidth; decide
/-- MaskIdentities: 1 ≤ p ≤ q ≤ w at both ends. -/
theorem witness_mask_identities : isWidth 32 ∧ 1 ≤ 32 ∧ 32 ≤ 32 ∧ isWidth 128 ∧ 0 ≤ 128 ∧ 1 ≤ 128 ∧
    (0xFFFFFFFF : WideUint).toNat < 2 ^ 32 := by unfold isWidth; decide
/-- CounterSubtractionIsExact: equal operands, the greatest counters, and an underflow by one. -/
theorem witness_zsub : ((z12 5 5).getZ 2).toNat ≤ ((z12 5 5).getZ 1).toNat ∧
    ((z12 (allOnes.setWidth 129) 1).getZ 2).toNat ≤ ((z12 (allOnes.setWidth 129) 1).getZ 1).toNat ∧
    ((z12 0 1).getZ 1).toNat < ((z12 0 1).getZ 2).toNat := by decide +kernel
/-- MakeSubnetNormalises: the greatest family-32 address, and the least that is none. -/
theorem witness_nmake : (isWidth 32 ∧ 32 ≤ 32 ∧ ((w12 0xFFFFFFFF 0).getW 1).toNat < 2 ^ 32) ∧
    (isWidth 128 ∧ 0 ≤ 128) ∧ 2 ^ 32 ≤ ((w12 0x100000000 0).getW 1).toNat := by unfold isWidth; decide +kernel
/-- SubnetFieldsAreRead, SubnetPredicatesSetT, WidenOneStep, ClearAndPush: N registers of each family, and an empty one. -/
theorem witness_subnet_registers : isWidth ((n12 (v4 0 32) (v6 0 0)).getN 1).fw.toNat ∧
    isWidth ((n12 (v4 0 32) (v6 0 0)).getN 2).fw.toNat ∧ ¬isWidth ((n12 (v4 0 32) (v6 0 0)).getN 3).fw.toNat := by
  unfold isWidth; decide +kernel
/-- WidenOneStep: prefix length 0, the lower half of a parent, the upper half. -/
theorem witness_widen : ((n12 (v4 0 0) (v4 2 32)).getN 1).plen = 0 ∧
    (((n12 (v4 0 0) (v4 2 32)).getN 2).plen ≠ 0 ∧ ((2 : WideUint) &&& maskFormula (32 - 1) 32 = 2)) ∧
    (((n12 (v4 3 32) (v4 2 32)).getN 1).plen ≠ 0 ∧ ((3 : WideUint) &&& maskFormula (32 - 1) 32 ≠ 3)) := by decide +kernel
/-- CanonicalOrderIsStrictTotal: a chain of three, and two neither of which is less. -/
theorem witness_order : lessThan (v4 7 31) (v4 7 32) = true ∧ lessThan (v4 7 32) (v6 0 0) = true ∧
    lessThan (v4 7 32) (v4 7 32) = false := by decide +kernel
/-- IncludesIsContainment: equal prefix lengths, the inner one wider, two families. -/
theorem witness_includes : (v4 0x0A000000 8).wellFormed = true ∧ (v4 0x0A000000 24).wellFormed = true ∧
    (v6 0 0).wellFormed = true ∧ (v4 0x0A000000 8).fw = (v4 0x0A000000 24).fw ∧
    (v4 0x0A000000 8).plen.toNat ≤ (v4 0x0A000000 8).plen.toNat ∧
    (v4 0x0A000000 8).plen.toNat < (v4 0x0A000000 24).plen.toNat ∧ (v4 0x0A000000 8).fw ≠ (v6 0 0).fw := by decide +kernel
/-- FuseConditionMeansLowerAndUpperHalf: neighbours that fuse, and neighbours that do not. -/
theorem witness_fuses : ((v4 2 32).wellFormed = true ∧ (v4 3 32).wellFormed = true ∧ lessThan (v4 2 32) (v4 3 32) = true ∧
    includes (v4 2 32) (v4 3 32) = false) ∧ (v4 4 32).wellFormed = true ∧ lessThan (v4 3 32) (v4 4 32) = true ∧
    includes (v4 3 32) (v4 4 32) = false := by decide +kernel
/-- ClearAndPush: a list with room, and a full one. -/
theorem witness_push : (State.reset.llen < Config.listDepth) ∧
    (withList (List.replicate Config.listDepth (v4 7 32))).llen = Config.listDepth :=
  ⟨Config.one_le_listDepth, List.length_replicate⟩
/-- GetEntry: the last entry, the index LLEN, the greatest index. -/
theorem witness_get_entry : (1 < (withList [v4 0 0, v4 1 32]).llen) ∧ (withList [v4 0 0, v4 1 32]).llen ≤ 2 ∧
    (withList [v4 0 0, v4 1 32]).llen ≤ 65535 ∧ 65535 < 65536 := by decide +kernel
/-- ListIsEmitted, its clause on an entry. -/
theorem witness_entry : (withList [v4 0 0, v4 1 32]).entry 1 = some (v4 1 32) := by decide +kernel
/-- MergeCompletes: an empty list, and a full one. -/
theorem witness_merge_completes : State.reset.llen ≤ Config.listDepth ∧ State.reset.llen ≤ 1 ∧
    (withList (List.replicate Config.listDepth (v4 7 32))).llen ≤ Config.listDepth :=
  ⟨Nat.zero_le _, Nat.zero_le _, le_of_eq List.length_replicate⟩
/-- SortIsTheCanonicalPermutation: an ascending permutation of a list out of order. -/
theorem witness_sort : [v4 1 32, v6 0 0].Perm [v6 0 0, v4 1 32] ∧
    [v4 1 32, v6 0 0].Pairwise (fun x y => lessThan y x = false) ∧
    (sortList [v6 0 0, v4 1 32])[0]? = some (v4 1 32) := ⟨List.Perm.swap _ _ _, by decide +kernel, by decide +kernel⟩
/-- MergeResultIsSortedDisjointMinimal, MergePreservesCoverage, MergeKeepsFamiliesApart, MergeIsIdempotent: a list of both
families whose entries overlap and fuse. -/
theorem witness_merge : (∀ x ∈ (withList [v6 0 1, v4 1 32, v4 0 32, v4 1 32]).list, x.wellFormed = true) ∧
    ∃ t, exec .merge (withList [v6 0 1, v4 1 32, v4 0 32, v4 1 32]) = .next t :=
  ⟨by decide +kernel, exists_next (by decide +kernel)⟩
/-- MergeResultIsSmallest: another list that covers the same addresses. -/
theorem witness_merge_smallest : ∃ t, exec .merge (withList [v4 1 32, v4 0 32]) = .next t ∧
    (∀ x ∈ (withList [v4 1 32, v4 0 32]).list, x.wellFormed = true) ∧
    (∀ x ∈ [v4 0 32, v4 1 32, v4 1 32], x.wellFormed = true) ∧
    ∀ w a, coveredBy [v4 0 32, v4 1 32, v4 1 32] w a ↔ coveredBy (withList [v4 1 32, v4 0 32]).list w a := by
  obtain ⟨t, ht⟩ := exists_next (o := exec .merge (withList [v4 1 32, v4 0 32])) (by decide +kernel)
  refine ⟨t, ht, by decide +kernel, by decide +kernel, fun w a => ?_⟩
  simp only [coveredBy, withList, State.setList, List.mem_cons, List.not_mem_nil, or_false, exists_eq_or_imp, exists_eq_left]
  tauto
/-- MergeDependsOnCoverageOnly: two push orders. -/
theorem witness_merge_order : ∃ t t', exec .merge (withList [v4 1 32, v4 0 32]) = .next t ∧
    exec .merge (withList [v4 0 32, v4 1 32]) = .next t' ∧
    (∀ x ∈ (withList [v4 1 32, v4 0 32]).list, x.wellFormed = true) ∧
    (∀ x ∈ (withList [v4 0 32, v4 1 32]).list, x.wellFormed = true) ∧
    ∀ w a, coveredBy (withList [v4 1 32, v4 0 32]).list w a ↔ coveredBy (withList [v4 0 32, v4 1 32]).list w a := by
  obtain ⟨t, ht⟩ := exists_next (o := exec .merge (withList [v4 1 32, v4 0 32])) (by decide +kernel)
  obtain ⟨t', ht'⟩ := exists_next (o := exec .merge (withList [v4 0 32, v4 1 32])) (by decide +kernel)
  refine ⟨t, t', ht, ht', by decide +kernel, by decide +kernel, fun w a => ?_⟩
  simp only [coveredBy, withList, State.setList, List.mem_cons, List.not_mem_nil, or_false, exists_eq_or_imp, exists_eq_left]
  tauto
/-- MergeIsIdempotent, second clause. -/
theorem witness_decomp_then_merge : (w12 7 7).llen = 0 ∧ ∃ t, exec (.decomp 1 2 32) (w12 7 7) = .next t :=
  ⟨rfl, exists_next (by decide +kernel)⟩
/-- DecomposeCompletes: a range of one address, and the greatest range of family 32, in a list of any depth. -/
theorem witness_decomp_completes :
    (((w12 7 7).getW 1).toNat < 2 ^ 32 ∧ ((w12 7 7).getW 1).toNat ≤ ((w12 7 7).getW 2).toNat ∧
      ∀ l, decompose ((w12 7 7).getW 1) ((w12 7 7).getW 2) 32 = some l → (w12 7 7).llen + l.length ≤ Config.listDepth) ∧
    ((w12 0 0xFFFFFFFF).getW 2).toNat < 2 ^ 32 ∧ ((w12 0 0xFFFFFFFF).getW 1).toNat ≤ ((w12 0 0xFFFFFFFF).getW 2).toNat ∧
      ∀ l, decompose ((w12 0 0xFFFFFFFF).getW 1) ((w12 0 0xFFFFFFFF).getW 2) 32 = some l →
        (w12 0 0xFFFFFFFF).llen + l.length ≤ Config.listDepth := by
  have h1 : decompose ((w12 7 7).getW 1) ((w12 7 7).getW 2) 32 = some [v4 7 32] := by decide +kernel
  have h2 : decompose ((w12 0 0xFFFFFFFF).getW 1) ((w12 0 0xFFFFFFFF).getW 2) 32 = some [v4 0 0] := by decide +kernel
  refine ⟨⟨by decide +kernel, by decide +kernel, fun l hl => ?_⟩, by decide +kernel, by decide +kernel, fun l hl => ?_⟩
  · rw [h1] at hl; cases hl; exact Config.one_le_listDepth
  · rw [h2] at hl; cases hl; exact Config.one_le_listDepth
/-- DecomposeChecksInOrder: a width that is none, begin and end just outside family 32, a range inverted by one, with a
report pending and without. -/
theorem witness_decomp_checks : (¬isWidth 64 ∧ 64 < 256) ∧ 2 ^ 32 ≤ ((w12 0x100000000 0).getW 1).toNat ∧
    (((w12 0xFFFFFFFF 0x100000000).getW 1).toNat < 2 ^ 32 ∧ 2 ^ 32 ≤ ((w12 0xFFFFFFFF 0x100000000).getW 2).toNat) ∧
    (((w12 1 0).getW 2).toNat < ((w12 1 0).getW 1).toNat ∧ (w12 1 0).rerr = false ∧
      ({ w12 1 0 with rerr := true, cause := 8 } : State).rerr = true) := by unfold isWidth; decide +kernel
/-- DecomposeThatDoesNotFitHalts: one block, and a full list. -/
theorem witness_decomp_capacity :
    let s := (w12 7 7).setList (List.replicate Config.listDepth (v4 7 32))
    (s.getW 1).toNat < 2 ^ 32 ∧ (s.getW 1).toNat ≤ (s.getW 2).toNat ∧
    decompose (s.getW 1) (s.getW 2) 32 = some [v4 7 32] ∧ Config.listDepth < s.llen + [v4 7 32].length := by
  refine ⟨by decide +kernel, by decide +kernel, by decide +kernel, ?_⟩
  simp [State.setList, State.llen]
/-- DecompositionCoversTheRangeExactly: the ends of both families. -/
theorem witness_decomposition : (isWidth 32 ∧ (0xFFFFFFFF : WideUint).toNat < 2 ^ 32 ∧ (0 : WideUint).toNat ≤ (0xFFFFFFFF : WideUint).toNat) ∧
    isWidth 128 ∧ allOnes.toNat < 2 ^ 128 ∧ allOnes.toNat ≤ allOnes.toNat := by unfold isWidth; decide +kernel
/-- DecompositionIsSmallest: another cover of a range of two addresses. -/
theorem witness_decomposition_smallest : decompose 2 3 32 = some [v4 2 31] ∧ (∀ x ∈ [v4 3 32, v4 2 31], x.wellFormed = true) ∧
    ∀ w a, coveredBy [v4 3 32, v4 2 31] w a ↔ w = 32 ∧ (2 : WideUint).toNat ≤ a ∧ a ≤ (3 : WideUint).toNat := by
  refine ⟨by decide +kernel, by decide +kernel, fun w a => ?_⟩
  have e1 : ((v4 3 32).fw.toNat = w ∧ (v4 3 32).covers a = true) ↔ w = 32 ∧ 3 ≤ a ∧ a < 4 := by
    rw [Subnet.covers_iff, show (v4 3 32).fw.toNat = 32 by decide, show (v4 3 32).base.toNat = 3 by decide,
      show (v4 3 32).stop = 4 by decide +kernel]
    omega
  have e2 : ((v4 2 31).fw.toNat = w ∧ (v4 2 31).covers a = true) ↔ w = 32 ∧ 2 ≤ a ∧ a < 4 := by
    rw [Subnet.covers_iff, show (v4 2 31).fw.toNat = 32 by decide, show (v4 2 31).base.toNat = 2 by decide,
      show (v4 2 31).stop = 4 by decide +kernel]
    omega
  simp only [coveredBy, List.mem_cons, List.not_mem_nil, or_false, exists_eq_or_imp, exists_eq_left, e1, e2]
  rw [show (2 : WideUint).toNat = 2 by decide, show (3 : WideUint).toNat = 3 by decide]
  omega
/-- CsroutEmitsTheRegister, last clause: the least and the greatest reserved number. -/
theorem witness_csrout : 9 ≤ 9 ∧ 9 < 65536 ∧ 9 ≤ 65535 ∧ 65535 < 65536 := by decide
/-- FatalEntryRecordsAndHalts. -/
theorem witness_fatal : ({ cause := .index, info := 7 } : Exn).cause ≠ .order := by decide
/-- ExceptionsArePrecise: a command that halts, one that completes, one that sets RERR. -/
theorem witness_precise :
    (State.reset.halted = false ∧ reads (.lget 0 0) State.reset (·.halted) = some true) ∧
    reads .clrerr State.reset (·.halted) = some false ∧
    (w12 1 0).rerr = false ∧ reads (.decomp 1 2 32) (w12 1 0) (·.rerr) = some true := by decide +kernel
/-- HaltedUnitChangesNothing. -/
theorem witness_halted : ({ State.reset with halted := true, cause := 1 } : State).halted = true := rfl
/-- FlagWritersAreTheListed, RegisterAndListWritersAreTheListed: a command outside every list of writers. -/
theorem witness_writers : (∃ t, exec .clrerr State.reset = .next t) ∧ writesT .clrerr = false ∧ writesC .clrerr = false ∧
    writesCmp .clrerr = false ∧ writesW .clrerr = false ∧ writesZ .clrerr = false ∧ writesN .clrerr = false ∧
    writesList .clrerr = false ∧ emits .clrerr = false ∧ Instr.clrerr ≠ .merge :=
  ⟨exists_next (by decide +kernel), by decide⟩
/-- DataPathsAreSeparate: two states that agree on Z but not on W, and two that agree on W, N and LIST but not on Z. -/
theorem witness_data_paths : (∃ t, exec (.wcto 3 1 32) (w12 7 0) = .next t) ∧ (∃ t, exec (.wcto 3 1 32) (w12 3 0) = .next t) ∧
    (∃ t, exec (.wcto 3 1 32) (z12 1 0) = .next t) ∧ (∃ t, exec (.wcto 3 1 32) (z12 2 0) = .next t) ∧
    (∀ r, (w12 7 0).getZ r = (w12 3 0).getZ r) ∧ (∀ r, (z12 1 0).getW r = (z12 2 0).getW r) ∧
    (∀ r, (z12 1 0).getN r = (z12 2 0).getN r) ∧ ∀ k, (z12 1 0).entry k = (z12 2 0).entry k :=
  ⟨exists_next (by decide +kernel), exists_next (by decide +kernel), exists_next (by decide +kernel),
    exists_next (by decide +kernel), by decide +kernel, by decide +kernel, by decide +kernel, fun _ => rfl⟩
/-- EveryStepKeepsTheInvariant: reset with a command presented. -/
theorem witness_inv_step : (State.reset.present [0x40000000]).Inv ∧ ∃ t, step (State.reset.present [0x40000000]) = .next t :=
  ⟨⟨by decide +kernel, wf_reset, by decide, Nat.zero_le _, rfl, fun h => by cases h⟩, exists_next (by decide +kernel)⟩
/-- AddressBytesAreBigEndian: no byte, and sixteen. -/
theorem witness_address_bytes : ([] : List (BitVec 8)).length ≤ 16 ∧ (List.replicate 16 (0xFF : BitVec 8)).length ≤ 16 := by
  decide

end Sys2Proof.Tests
end

section
/-! The statements of 00_scope: the canonical order (R12), MERGE's result as the smallest set of blocks (R1), totality
(R18), and the big-endian reading of an address with the family test (R8). -/

namespace Sys2Proof.Machine

/-! ### The canonical order (00_scope R12) -/

/-- Settles O25: `lessThan_iff` gives the formula on the fields, and the order laws are those of the canonical order. -/
theorem canonicalOrderIsStrictTotal : Obligations.CanonicalOrderIsStrictTotal := by
  unfold Obligations.CanonicalOrderIsStrictTotal
  refine ⟨fun a b => ?formula, lessThan_irrefl, fun _ _ _ => lessThan_trans, fun a b hab hba => ?total⟩
  case formula => simp only [lessThan_iff, BitVec.toNat_inj]
  case total =>
    obtain rfl := eq_of_not_lessThan hab hba
    exact ⟨rfl, rfl, rfl⟩

/-! ### What MERGE leaves, and the covered addresses (44_merge R205, 00_scope R11) -/

/-- The statements' `coveredBy` is the laws' `Covered`. -/
theorem coveredBy_iff_covered (l : ListMem) (w a : Nat) : coveredBy l w a ↔ Covered l w a := by
  simp only [coveredBy, Covered, Subnet.covers_iff]

/-- LIST after a MERGE is the merged list. -/
theorem mergeList_of_exec_merge {s t : State} (h : exec .merge s = .next t) :
    ∃ p, mergeList s.list = some (t.list, p) := by
  obtain ⟨m, p, hm, he⟩ := execMerge_eq s
  have ht : ((s.setList m).setPasses (BitVec.ofNat 32 p)).retire = t := Host.Outcome.next.inj (he.symm.trans h)
  exact ⟨p, by rw [hm, ← ht]; rfl⟩

/-- MERGE of well-formed Subnets leaves a canonical list that covers the same addresses. -/
theorem canon_of_exec_merge {s t : State} (hw : AllWF s.list) (h : exec .merge s = .next t) :
    Canon t.list ∧ ∀ w a, Covered t.list w a ↔ Covered s.list w a := by
  obtain ⟨p, hp⟩ := mergeList_of_exec_merge h
  exact canon_of_mergeList hw hp

/-- Settles O35: MERGE's result is canonical, and a canonical list is the shortest cover of its addresses. -/
theorem mergeResultIsSmallest : Obligations.MergeResultIsSmallest := by
  unfold Obligations.MergeResultIsSmallest
  intro s t l hs hexec hl hcov
  obtain ⟨hcanon, hsame⟩ := canon_of_exec_merge hs hexec
  refine canon_shortest hcanon hl fun w a => ?_
  calc Covered l w a
      ↔ Covered s.list w a := by simpa only [coveredBy_iff_covered] using hcov w a
    _ ↔ Covered t.list w a := (hsame w a).symm

/-! ### Totality (00_scope R18) -/

/-- Checks followed by an effect or an exception always answer a next state. -/
theorem finish_answers (e : Option Exn) (t s : State) : ∃ u, finish e t s = .next u := by
  cases e with
  | some x => exact ⟨_, finish_some x t s⟩
  | none => exact ⟨_, finish_none t s⟩

/-- MERGE answers: its loop ends within the bound (44_merge R215). -/
theorem execMerge_answers (s : State) : ∃ t, execMerge s = .next t := by
  obtain ⟨_, _, _, h⟩ := execMerge_eq s
  exact ⟨_, h⟩

/-- DECOMP answers: a check fails, or the walk ends within its bound (45_decompose R251). -/
theorem execDecomp_answers (rs1 rs2 : WReg) (fw : Nat) (s : State) : ∃ t, execDecomp rs1 rs2 fw s = .next t := by
  rcases execDecomp_eq rs1 rs2 fw s with ⟨_, _, h⟩ | ⟨_, l, _, _, _, _, h⟩
  · exact ⟨_, h⟩
  · rw [h]
    exact finish_answers _ _ _

/-- CSROUT answers, for a register and for a reserved number (46_system R260). -/
theorem execCsrout_answers (csr : Nat) (s : State) : ∃ t, execCsrout csr s = .next t := by
  unfold execCsrout
  cases s.csr csr with
  | some v => exact ⟨_, complete_eq _⟩
  | none => exact ⟨_, rfl⟩

/-- Every command answers a next state: the engines and CSROUT by their own lemmas, every other command because it either
raises nothing or only has checks before its effect. -/
theorem exec_answers (i : Instr) (s : State) : ∃ t, exec i s = .next t := by
  cases i with
  | merge => exact execMerge_answers s
  | decomp rs1 rs2 fw => exact execDecomp_answers rs1 rs2 fw s
  | csrout csr => exact execCsrout_answers csr s
  | maska | masks | zsub | zsetb | nmake | nbase | nmask | nincl | nlt | nwiden | nout | lpush | lget =>
    exact finish_answers _ _ _
  | wli | wli4 | wcmp | wnot | wand | wshl | wnext | wrend | wjump | wcto | wout | zisz | zout | lclr | lout | clrerr =>
    exact ⟨_, complete_eq _⟩

/-- Every step answers a next state. -/
theorem step_answers (s : State) : ∃ t, step s = .next t := by
  rcases step_cases s with ⟨_, h⟩ | ⟨_, i, rest, _, h⟩ | ⟨_, _, _, _, h⟩ | ⟨_, _, h⟩
  · exact ⟨_, h⟩
  · rw [h]
    exact exec_answers i _
  · exact ⟨_, h⟩
  · exact ⟨_, h⟩

/-- Settles O55, command by command and then over what a step can do. -/
theorem everyStepAnswersANextState : Obligations.EveryStepAnswersANextState := by
  unfold Obligations.EveryStepAnswersANextState
  exact ⟨exec_answers, step_answers⟩

/-! ### Addresses (00_scope R8) -/

/-- The bytes of an address in network order as a number, read from the left. -/
def networkValue (bytes : List (BitVec 8)) : Nat := bytes.foldl (fun acc b => acc * 256 + b.toNat) 0

@[simp] theorem networkValue_nil : networkValue [] = 0 := rfl

@[simp] theorem networkValue_concat (bytes : List (BitVec 8)) (b : BitVec 8) :
    networkValue (bytes ++ [b]) = networkValue bytes * 256 + b.toNat := by
  simp [networkValue]

@[simp] theorem addressOfBytes_concat (bytes : List (BitVec 8)) (b : BitVec 8) :
    addressOfBytes (bytes ++ [b]) = addressOfBytes bytes <<< 8 ||| b.zeroExtend 128 := by
  simp [addressOfBytes]

/-- n bytes stand for a number below 256^n. -/
theorem networkValue_lt (bytes : List (BitVec 8)) : networkValue bytes < 256 ^ bytes.length := by
  induction bytes using List.reverseRecOn with
  | nil => simp
  | append_singleton bytes b ih =>
    have hb := b.isLt
    rw [networkValue_concat, List.length_append, List.length_singleton, pow_succ]
    omega

/-- The number as the sum of R8: byte k of n weighs 256^(n-1-k). -/
theorem networkValue_eq_sum (bytes : List (BitVec 8)) :
    networkValue bytes =
      ((List.range bytes.length).map fun k => (bytes.getD k 0).toNat * 256 ^ (bytes.length - 1 - k)).sum := by
  induction bytes using List.reverseRecOn with
  | nil => rfl
  | append_singleton bytes b ih =>
    have shift : ∀ k ∈ List.range bytes.length,
        ((bytes ++ [b]).getD k 0).toNat * 256 ^ (bytes.length + 1 - 1 - k) =
          (bytes.getD k 0).toNat * 256 ^ (bytes.length - 1 - k) * 256 := by
      intro k hk
      have hlt : k < bytes.length := List.mem_range.mp hk
      rw [List.getD_append _ _ _ _ hlt, mul_assoc, ← pow_succ]
      congr 2
      omega
    rw [networkValue_concat, ih, List.length_append, List.length_singleton, List.range_succ, List.map_append,
      List.sum_append, List.map_congr_left shift, List.sum_map_mul_right]
    simp

/-- Shifting one byte in from the right, while no bit leaves at the left. -/
theorem toNat_shift_byte {acc : WideUint} (b : BitVec 8) (h : acc.toNat < 2 ^ 120) :
    (acc <<< 8 ||| b.zeroExtend 128).toNat = acc.toNat * 256 + b.toNat := by
  have hb := b.isLt
  have hacc : (acc <<< 8).toNat = acc.toNat <<< 8 := by
    rw [BitVec.toNat_shiftLeft, Nat.shiftLeft_eq]
    omega
  have hbyte : (b.zeroExtend 128).toNat = b.toNat := by
    rw [BitVec.toNat_setWidth]
    omega
  rw [BitVec.toNat_or, hacc, hbyte, ← Nat.shiftLeft_add_eq_or_of_lt hb, Nat.shiftLeft_eq]

/-- Up to 16 bytes the wide integer holds the whole number. -/
theorem toNat_addressOfBytes {bytes : List (BitVec 8)} (h : bytes.length ≤ 16) :
    (addressOfBytes bytes).toNat = networkValue bytes := by
  induction bytes using List.reverseRecOn with
  | nil => rfl
  | append_singleton bytes b ih =>
    rw [List.length_append, List.length_singleton] at h
    have hvalue := ih (by omega)
    have hroom : (addressOfBytes bytes).toNat < 2 ^ 120 :=
      calc (addressOfBytes bytes).toNat
          = networkValue bytes := hvalue
        _ < 256 ^ bytes.length := networkValue_lt bytes
        _ ≤ 256 ^ 15 := Nat.pow_le_pow_right (by omega) (by omega)
        _ = 2 ^ 120 := by norm_num
    rw [addressOfBytes_concat, toNat_shift_byte b hroom, hvalue, networkValue_concat]

/-- A value is in family 32 when its bits 127:32 are zero. -/
theorem inFamily_32_iff (a : WideUint) : inFamily a 32 = true ↔ a.extractLsb' 32 96 = 0 := by
  have ha := a.isLt
  have hzero : (0 : BitVec 96).toNat = 0 := rfl
  rw [inFamily_iff, ← BitVec.toNat_inj, BitVec.extractLsb'_toNat, hzero, Nat.shiftRight_eq_div_pow]
  omega

/-- Settles O60: the fold equals the left-to-right value of the bytes, which is the sum of R8; the family test by
`inFamily_iff` at each width. -/
theorem addressBytesAreBigEndian : Obligations.AddressBytesAreBigEndian := by
  unfold Obligations.AddressBytesAreBigEndian
  refine ⟨fun bytes hlen => ?_, fun a => ⟨inFamily_iff a, inFamily_32_iff a, inFamily_128 a⟩⟩
  rw [toNat_addressOfBytes hlen, networkValue_eq_sum]

end Sys2Proof.Machine
end

section
/-! The statements of 10_state: the invariant of a command boundary (R25, R31 to R36), no look-ahead (R43), and which
commands write which part of the state (R21 to R23, R28, R35, R36; 30_encoding R107). The step's invariant and the writers
rest on one inversion of `exec`, `exec_result`: what a command can leave. -/

namespace Sys2Proof.Machine

/-! ### The exceptions the checks raise (60_exceptions R270) -/

/-- The checks raise fatal exceptions only. -/
def OnlyFatal (c : Option Exn) : Prop := ∀ e ∈ c, e.cause.isFatal = true

/-- A check that is one test and one fatal exception. -/
theorem onlyFatal_ite {p : Prop} [Decidable p] {e : Exn} (he : e.cause.isFatal = true) :
    OnlyFatal (if p then none else some e) := by
  unfold OnlyFatal
  split <;> simp [he]

theorem OnlyFatal.orElse {a b : Option Exn} (ha : OnlyFatal a) (hb : OnlyFatal b) : OnlyFatal (a <|> b) := by
  cases a with
  | none => exact hb
  | some e => exact ha

theorem onlyFatal_checkWidth (fw : Nat) : OnlyFatal (checkWidth fw) := onlyFatal_ite rfl
theorem onlyFatal_checkPlen (plen fw : Nat) : OnlyFatal (checkPlen plen fw) := onlyFatal_ite rfl
theorem onlyFatal_checkIndex (plen fw : Nat) : OnlyFatal (checkIndex plen fw) :=
  (onlyFatal_checkWidth fw).orElse (onlyFatal_checkPlen plen fw)
theorem onlyFatal_checkSubnet (r : NReg) (s : State) : OnlyFatal (checkSubnet r s) := onlyFatal_checkWidth _
theorem onlyFatal_checkEntry (idx : Nat) (s : State) : OnlyFatal (checkEntry idx s) := onlyFatal_ite rfl
theorem onlyFatal_checkCapacity (k : Nat) (s : State) : OnlyFatal (checkCapacity k s) := onlyFatal_ite rfl
theorem onlyFatal_checkFamily (r : WReg) (fw : Nat) (s : State) : OnlyFatal (checkFamily r fw s) := by
  unfold OnlyFatal checkFamily
  split <;> simp [Cause.isFatal]
theorem onlyFatal_checkUnderflow (a b : Counter) : OnlyFatal (checkUnderflow a b) := by
  unfold OnlyFatal checkUnderflow
  split <;> simp [Cause.isFatal]

/-- The one reportable exception, raised for an inverted range (R278). -/
def orderExn : Exn := { cause := .order, info := 0 }

theorem eq_orderExn_of_checkOrder {b e : WideUint} {x : Exn} (h : checkOrder b e = some x) : x = orderExn := by
  unfold checkOrder at h
  split at h
  · exact (Option.some.inj h).symm
  · cases h

/-- The checks of DECOMP before the walk end with the order of the range (45_decompose R241). -/
theorem checkRange_raises {rs1 rs2 : WReg} {fw : Nat} {s : State} {x : Exn} (h : checkRange rs1 rs2 fw s = some x) :
    x.cause.isFatal = true ∨ x = orderExn := by
  unfold checkRange at h
  simp only [Option.orElse_eq_orElse, Option.orElse_eq_or, Option.or_eq_some_iff] at h
  rcases h with h | ⟨_, h | ⟨_, h | ⟨_, h⟩⟩⟩
  · exact .inl (onlyFatal_checkWidth _ _ h)
  · exact .inl (onlyFatal_checkFamily _ _ _ _ h)
  · exact .inl (onlyFatal_checkFamily _ _ _ _ h)
  · exact .inr (eq_orderExn_of_checkOrder h)

/-! ### What a command can leave -/

/-- What a command that raises nothing leaves before it retires, by the parts of the state it writes (10_state R21 to R23,
R28, R35, R36; 30_encoding R107). A Subnet or a list is stored well formed where the invariant holds before the command. -/
inductive Effect (s : State) (i : Instr) : State → Prop
  | writeW {rd v} (hw : writesW i = true) : Effect s i (s.setW rd v)
  | writeWC {rd v b} (hw : writesW i = true) (hc : writesC i = true) : Effect s i ((s.setW rd v).setC b)
  | writeZ {rd v} (hz : writesZ i = true) : Effect s i (s.setZ rd v)
  | writeN {rd v} (hn : writesN i = true) (hv : s.Inv → v.wellFormed = true) : Effect s i (s.setN rd v)
  | writeNT {rd v b} (hn : writesN i = true) (ht : writesT i = true) (hv : s.Inv → v.wellFormed = true) :
      Effect s i ((s.setN rd v).setT b)
  | writeT {b} (ht : writesT i = true) : Effect s i (s.setT b)
  | writeCmp {v} (hc : writesCmp i = true) : Effect s i (s.setCmp v)
  | writeList {l} (hi : writesList i = true) (hl : s.Inv → l.wf = true) : Effect s i (s.setList l)
  | merge {l p} (hi : i = .merge) (hl : s.Inv → l.wf = true) (hp : s.Inv → p.toNat ≤ Config.listDepth) :
      Effect s i ((s.setList l).setPasses p)
  | emit {ws} (he : emits i = true) : Effect s i (s.emit ws)
  | acknowledge (hi : i = .clrerr) : Effect s i s.acknowledge

/-- Everything a command can leave: a fatal exception's entry, that of the reportable exception of DECOMP, or its effect,
retired. -/
inductive CommandResult (s : State) (i : Instr) : State → Prop
  | fatal {e} (he : e.cause.isFatal = true) : CommandResult s i (s.takeException e)
  | reported {rs1 rs2 fw} (hi : i = .decomp rs1 rs2 fw) : CommandResult s i (s.takeException orderExn)
  | completed {v} (hv : Effect s i v) : CommandResult s i v.retire

section Inversion
variable {s t v : State} {i : Instr} {c : Option Exn}

theorem CommandResult.of_complete (h : complete v = .next t) (hv : Effect s i v) : CommandResult s i t := by
  obtain rfl := complete_cases h
  exact .completed hv

theorem CommandResult.of_finish (h : finish c v s = .next t) (hc : OnlyFatal c) (hv : c = none → Effect s i v) :
    CommandResult s i t := by
  rcases finish_cases h with ⟨e, he, rfl⟩ | ⟨hnone, rfl⟩
  · exact .fatal (hc e he)
  · exact .completed (hv hnone)

/-- NMAKE stores the network address of an address in family, which is a well-formed Subnet (43_subnet R181). -/
theorem execNmake_result {rd : NReg} {rs1 : WReg} {plen fw : Nat} (h : execNmake rd rs1 plen fw s = .next t) :
    CommandResult s (.nmake rd rs1 plen fw) t := by
  refine .of_finish h ((onlyFatal_checkIndex plen fw).orElse (onlyFatal_checkFamily rs1 fw s)) fun hnone =>
    .writeNT rfl rfl fun _ => ?_
  obtain ⟨hindex, hfamily⟩ := (orElse_eq_none_iff _ _).mp hnone
  obtain ⟨hfw, hplen⟩ := (romIndex_iff plen fw).mp ((checkIndex_eq_none_iff plen fw).mp hindex)
  have hin : inFamily (s.getW rs1) fw = true := by
    rcases hfw with rfl | rfl
    · exact (checkFamily_eq_none_iff rs1 32 s).mp hfamily rfl
    · exact inFamily_128 _
  refine block_wellFormed hfw hplen ((inFamily_iff _ _).mp (inFamily_and _ hin)) ?_
  rw [toNat_and_maskAddress]
  exact Nat.dvd_mul_left _ _

/-- NWIDEN stores the widened Subnet, or no Subnet (43_subnet R189). -/
theorem execNwiden_result {rd rs1 : NReg} (h : execNwiden rd rs1 s = .next t) : CommandResult s (.nwiden rd rs1) t := by
  refine .of_finish h (onlyFatal_checkSubnet rs1 s) fun hnone => ?_
  split
  · exact .writeNT rfl rfl fun hI => widen_wellFormed (wellFormed_of_checkSubnet (hI.regs rs1) hnone)
  · exact .writeT rfl

/-- LPUSH appends a Subnet that passed the check, to a list with room for it (44_merge R202). -/
theorem execLpush_result {rs1 : NReg} (h : execLpush rs1 s = .next t) : CommandResult s (.lpush rs1) t := by
  refine .of_finish h ((onlyFatal_checkSubnet rs1 s).orElse (onlyFatal_checkCapacity 1 s)) fun hnone =>
    .writeList rfl fun hI => ?_
  obtain ⟨hsubnet, hroom⟩ := (orElse_eq_none_iff _ _).mp hnone
  have hwf : AllWF [s.getN rs1] := by simpa [AllWF] using wellFormed_of_checkSubnet (hI.regs rs1) hsubnet
  exact wf_append hI.list hwf ((checkCapacity_eq_none_iff 1 s).mp hroom)

/-- LGET stores an entry of LIST (44_merge R203). -/
theorem execLget_result {rd : NReg} {idx : Nat} (h : execLget rd idx s = .next t) : CommandResult s (.lget rd idx) t := by
  refine .of_finish h (onlyFatal_checkEntry idx s) fun hnone => .writeN rfl fun hI => ?_
  obtain ⟨x, hx, hmem⟩ := State.entry_eq_some_of_lt ((checkEntry_eq_none_iff idx s).mp hnone)
  rw [hx]
  exact ((ListMem.wf_iff _).mp hI.list).2 x hmem

/-- MERGE stores the merged list and the number of its passes (44_merge R205, R215). -/
theorem execMerge_result (h : execMerge s = .next t) : CommandResult s .merge t := by
  obtain ⟨m, p, hm, he⟩ := execMerge_eq s
  obtain rfl := Host.Outcome.next.inj (he.symm.trans h)
  refine .completed (.merge rfl (fun hI => wf_merge hI.list hm) fun hI => ?_)
  have hp := (passes_le_of_merge ((ListMem.wf_iff _).mp hI.list).1 hm).2
  exact (Nat.mod_le _ _).trans hp

/-- DECOMP stores its blocks where they fit, or raises an exception of its checks (45_decompose R240, R241, R253). -/
theorem execDecomp_result {rs1 rs2 : WReg} {fw : Nat} (h : execDecomp rs1 rs2 fw s = .next t) :
    CommandResult s (.decomp rs1 rs2 fw) t := by
  rcases execDecomp_eq rs1 rs2 fw s with ⟨x, hx, he⟩ | ⟨_, l, _, hwf, _, _, he⟩
  · obtain rfl := Host.Outcome.next.inj (he.symm.trans h)
    rcases checkRange_raises hx with hfatal | rfl
    · exact .fatal hfatal
    · exact .reported rfl
  · refine .of_finish (he.symm.trans h) (onlyFatal_checkCapacity _ s) fun hnone => .writeList rfl fun hI => ?_
    exact wf_append hI.list hwf ((checkCapacity_eq_none_iff _ s).mp hnone)

/-- CSROUT emits a register, or raises E_ILLEGAL for a reserved number (46_system R260). -/
theorem execCsrout_result {csr : Nat} (h : execCsrout csr s = .next t) : CommandResult s (.csrout csr) t := by
  unfold execCsrout at h
  split at h
  · exact .of_complete h (.emit rfl)
  · obtain rfl := Host.Outcome.next.inj h
    exact .fatal rfl

/-- Everything a command can do, command by command. -/
theorem exec_result (h : exec i s = .next t) : CommandResult s i t := by
  cases i with
  | wli | wli4 | wnot | wand | wrend | wcto => exact .of_complete h (.writeW rfl)
  | wshl | wnext | wjump => exact .of_complete h (.writeWC rfl rfl)
  | wcmp => exact .of_complete h (.writeCmp rfl)
  | wout | zout | lout => exact .of_complete h (.emit rfl)
  | zisz => exact .of_complete h (.writeT rfl)
  | lclr => exact .of_complete h (.writeList rfl fun _ => wf_nil)
  | clrerr => exact .of_complete h (.acknowledge rfl)
  | maska => exact .of_finish h (onlyFatal_checkIndex _ _) fun _ => .writeW rfl
  | masks | zsetb => exact .of_finish h (onlyFatal_checkIndex _ _) fun _ => .writeZ rfl
  | zsub => exact .of_finish h (onlyFatal_checkUnderflow _ _) fun _ => .writeZ rfl
  | nbase | nmask => exact .of_finish h (onlyFatal_checkSubnet _ s) fun _ => .writeW rfl
  | nincl rs1 rs2 | nlt rs1 rs2 =>
    exact .of_finish h ((onlyFatal_checkSubnet rs1 s).orElse (onlyFatal_checkSubnet rs2 s)) fun _ => .writeT rfl
  | nout => exact .of_finish h (onlyFatal_checkSubnet _ s) fun _ => .emit rfl
  | nmake => exact execNmake_result h
  | nwiden => exact execNwiden_result h
  | lpush => exact execLpush_result h
  | lget => exact execLget_result h
  | merge => exact execMerge_result h
  | decomp => exact execDecomp_result h
  | csrout => exact execCsrout_result h

end Inversion

/-! ### The invariant (R25, R31 to R36) -/

theorem Subnet.isEmptyOrWellFormed_of_wellFormed {x : Subnet} (h : x.wellFormed = true) :
    x.isEmptyOrWellFormed = true := by
  simp [Subnet.isEmptyOrWellFormed, h]

namespace State

/-- CMDCNT is no part of the invariant. -/
theorem Inv.retire {s : State} (hI : s.Inv) : s.retire.Inv :=
  ⟨hI.regs, hI.list, hI.record, hI.passes, hI.pending, hI.boundary⟩

/-- A well-formed Subnet may be stored in any N register. -/
theorem Inv.setN {s : State} {v : Subnet} (hI : s.Inv) (rd : NReg) (hv : v.wellFormed = true) : (s.setN rd v).Inv where
  regs r := by
    rw [getN_setN]
    split
    · exact Subnet.isEmptyOrWellFormed_of_wellFormed hv
    · exact hI.regs r
  list := hI.list
  record := hI.record
  passes := hI.passes
  pending := hI.pending
  boundary := hI.boundary

/-- At a command boundary the decoder holds nothing. -/
theorem Inv.takeWords {s : State} (hI : s.Inv) (rest : List Word) : (s.takeWords rest).Inv :=
  ⟨hI.regs, hI.list, hI.record, hI.passes, rfl, fun _ => rfl⟩

/-- A fatal exception at a command boundary records one of the fatal codes (60_exceptions R281). -/
theorem Inv.takeFatal {s : State} {e : Exn} (hI : s.Inv) (hp : s.pending = []) (he : e.cause.isFatal = true) :
    (s.takeFatal e).Inv where
  regs := hI.regs
  list := hI.list
  record := by
    rw [recordOk, takeFatal_halted, if_pos rfl, Bool.and_eq_true, decide_eq_true_eq, decide_eq_true_eq]
    exact fatal_code_range e.cause he
  passes := hI.passes
  pending := hI.pending
  boundary _ := hp

/-- E_ORDER is recorded unless an earlier report is still there (60_exceptions R283, R284). -/
theorem Inv.takeReportable {s : State} (hI : s.Inv) (hh : s.halted = false) : (s.takeReportable orderExn).Inv := by
  by_cases hr : s.rerr = true
  · rw [takeReportable_recorded hr]
    exact hI.retire
  · rw [takeReportable_first (Bool.eq_false_iff.mpr hr)]
    exact ⟨hI.regs, hI.list, by simp [recordOk, hh, orderExn, Cause.code], hI.passes, hI.pending, hI.boundary⟩

end State

/-- A completed command of a unit that is not halted keeps the invariant. -/
theorem Effect.inv {s v : State} {i : Instr} (h : Effect s i v) (hI : s.Inv) (hh : s.halted = false) : v.Inv := by
  cases h with
  | writeW | writeWC | writeZ | writeT | writeCmp | emit =>
    exact ⟨hI.regs, hI.list, hI.record, hI.passes, hI.pending, hI.boundary⟩
  | @writeN rd _ _ hv => exact hI.setN rd (hv hI)
  | @writeNT rd _ _ _ _ hv =>
    have hN := hI.setN rd (hv hI)
    exact ⟨hN.regs, hN.list, hN.record, hN.passes, hN.pending, hN.boundary⟩
  | writeList _ hl => exact ⟨hI.regs, hl hI, hI.record, hI.passes, hI.pending, hI.boundary⟩
  | merge _ hl hp => exact ⟨hI.regs, hl hI, hI.record, hp hI, hI.pending, hI.boundary⟩
  | acknowledge => exact ⟨hI.regs, hI.list, by simp [State.recordOk, hh], hI.passes, hI.pending, hI.boundary⟩

/-- A command taken at a command boundary of a unit that is not halted keeps the invariant. -/
theorem exec_keeps_inv {s t : State} {i : Instr} (hI : s.Inv) (hh : s.halted = false) (hp : s.pending = [])
    (h : exec i s = .next t) : t.Inv := by
  cases exec_result h with
  | fatal he =>
    rw [State.takeException_fatal he]
    exact hI.takeFatal hp he
  | reported =>
    rw [State.takeException_reportable rfl]
    exact hI.takeReportable hh
  | completed hv => exact (hv.inv hI hh).retire

/-- Words the decoder waits on are none, or the beginning of a literal command (30_encoding R104). -/
theorem pendingOk_of_decode_incomplete {ws : List Word} (h : decode ws = .incomplete) : pendingOk ws = true := by
  rcases decode_cases ws with ⟨rfl, _⟩ | ⟨_, _, _, _, hd⟩ | ⟨w, rest, o, rfl, hf, hlt, _⟩ | ⟨_, _, _, _, _, _, hd⟩
  · rfl
  · cases h.symm.trans hd
  · simp [pendingOk, hf, hlt]
  · cases h.symm.trans hd

/-- Settles O57: over what a step can do, and for a command over what it can leave (`exec_result`). -/
theorem everyStepKeepsTheInvariant : Obligations.EveryStepKeepsTheInvariant := by
  unfold Obligations.EveryStepKeepsTheInvariant
  intro s t hI hstep
  rcases step_cases s with ⟨_, h⟩ | ⟨hh, i, rest, _, h⟩ | ⟨_, w, rest, _, h⟩ | ⟨hh, hf, h⟩
  · obtain rfl := Host.Outcome.next.inj (h.symm.trans hstep)
    exact hI
  · exact exec_keeps_inv (hI.takeWords rest) hh rfl (h.symm.trans hstep)
  · obtain rfl := Host.Outcome.next.inj (h.symm.trans hstep)
    exact (hI.takeWords rest).takeFatal rfl rfl
  · obtain rfl := Host.Outcome.next.inj (h.symm.trans hstep)
    exact ⟨hI.regs, hI.list, hI.record, hI.passes, pendingOk_of_decode_incomplete hf, fun hhalt => by simp [hh] at hhalt⟩

/-- Settles O56: every N register is the empty record, LIST is empty, and nothing is recorded or held. -/
theorem invariantHoldsAtReset : Obligations.InvariantHoldsAtReset where
  regs r := by simp [Subnet.isEmptyOrWellFormed]
  list := wf_reset
  record := rfl
  passes := Nat.zero_le _
  pending := rfl
  boundary _ := rfl

/-! ### The writers of the flags (R28) -/

section Writers
variable {s v : State} {i : Instr}

theorem Effect.t_kept (h : Effect s i v) (hi : writesT i = false) : v.t = s.t := by
  cases h with
  | writeNT _ ht | writeT ht => simp [hi] at ht
  | _ => rfl

theorem Effect.c_kept (h : Effect s i v) (hi : writesC i = false) : v.c = s.c := by
  cases h with
  | writeWC _ hc => simp [hi] at hc
  | _ => rfl

theorem Effect.cmp_kept (h : Effect s i v) (hi : writesCmp i = false) : v.cmp = s.cmp := by
  cases h with
  | writeCmp hc => simp [hi] at hc
  | _ => rfl

/-- Only an exception halts the unit. -/
theorem Effect.halted_kept (h : Effect s i v) : v.halted = s.halted := by
  cases h <;> rfl

/-- An exception changes no flag (60_exceptions R280). -/
theorem takeException_sameFlags (s : State) (e : Exn) : s.sameFlags (s.takeException e) :=
  ⟨s.takeException_t e, s.takeException_c e, s.takeException_cmp e⟩

/-- Settles O52: an exception changes no flag, and a completed command, which does not halt the unit, only its own. -/
theorem flagWritersAreTheListed : Obligations.FlagWritersAreTheListed := by
  unfold Obligations.FlagWritersAreTheListed
  intro i s t h
  cases exec_result h with
  | fatal | reported =>
    obtain ⟨ht, hc, hcmp⟩ := takeException_sameFlags s _
    exact ⟨fun _ => ht, fun _ => hc, fun _ => hcmp, fun _ _ => ⟨ht, hc, hcmp⟩⟩
  | completed hv =>
    refine ⟨hv.t_kept, hv.c_kept, hv.cmp_kept, fun hrun hhalt => ?_⟩
    cases hrun.symm.trans (hv.halted_kept.symm.trans hhalt)

/-! ### The writers of registers, LIST and PASSES, and the commands that emit (R21 to R23, R35, R36; 30_encoding R107) -/

theorem Effect.sameW (h : Effect s i v) (hi : writesW i = false) : s.sameW v := by
  cases h with
  | writeW hw | writeWC hw => simp [hi] at hw
  | _ => exact fun _ => rfl

theorem Effect.sameZ (h : Effect s i v) (hi : writesZ i = false) : s.sameZ v := by
  cases h with
  | writeZ hz => simp [hi] at hz
  | _ => exact fun _ => rfl

theorem Effect.sameN (h : Effect s i v) (hi : writesN i = false) : s.sameN v := by
  cases h with
  | writeN hn | writeNT hn => simp [hi] at hn
  | _ => exact fun _ => rfl

theorem Effect.sameList (h : Effect s i v) (hi : writesList i = false) : s.sameList v := by
  cases h with
  | writeList hl => simp [hi] at hl
  | merge hm => simp [hm, writesList] at hi
  | _ => exact ⟨fun _ => rfl, rfl⟩

theorem Effect.passes_kept (h : Effect s i v) (hi : i ≠ .merge) : v.passes = s.passes := by
  cases h with
  | merge hm => exact absurd hm hi
  | _ => rfl

theorem Effect.res_kept (h : Effect s i v) (hi : emits i = false) : v.res = s.res := by
  cases h with
  | emit he => simp [hi] at he
  | _ => rfl

end Writers

/-- Settles O53: an exception changes none of them, and a completed command only what it is listed for. -/
theorem registerAndListWritersAreTheListed : Obligations.RegisterAndListWritersAreTheListed := by
  unfold Obligations.RegisterAndListWritersAreTheListed
  intro i s t h
  cases exec_result h with
  | fatal | reported =>
    exact ⟨fun _ => s.takeException_getW _, fun _ => s.takeException_getZ _, fun _ => s.takeException_getN _,
      fun _ => ⟨s.takeException_entry _, s.takeException_llen _⟩, fun _ => s.takeException_passes _,
      fun _ => s.takeException_res _⟩
  | completed hv => exact ⟨hv.sameW, hv.sameZ, hv.sameN, hv.sameList, hv.passes_kept, hv.res_kept⟩

/-! ### No look-ahead (R43) -/

section LookAhead
variable {s t v : State} {ws : List Word}

/-- Taking an exception does not look at the words presented. -/
theorem takeException_present (s : State) (e : Exn) (ws : List Word) :
    (s.present ws).takeException e = (s.takeException e).present ws := by
  cases hf : e.cause.isFatal with
  | true => rw [State.takeException_fatal hf, State.takeException_fatal hf]; rfl
  | false =>
    rw [State.takeException_reportable hf, State.takeException_reportable hf]
    cases hr : s.rerr with
    | true => rw [State.takeReportable_recorded hr, State.takeReportable_recorded (s := s.present ws) hr]; rfl
    | false => rw [State.takeReportable_first hr, State.takeReportable_first (s := s.present ws) hr]; rfl

theorem finish_present {c : Option Exn} (h : finish c v s = .next t) :
    finish c (v.present ws) (s.present ws) = .next (t.present ws) := by
  rcases finish_cases h with ⟨e, rfl, rfl⟩ | ⟨rfl, rfl⟩
  · rw [finish_some, takeException_present]
  · rfl

theorem complete_present (h : complete v = .next t) : complete (v.present ws) = .next (t.present ws) := by
  obtain rfl := complete_cases h
  rfl

/-- NWIDEN's effect is chosen by the widening, which does not look at the words presented either. -/
theorem execNwiden_present {rd rs1 : NReg} (h : execNwiden rd rs1 s = .next t) :
    execNwiden rd rs1 (s.present ws) = .next (t.present ws) := by
  rw [← finish_present h, execNwiden, State.present_getN]
  congr 1
  cases (widen (s.getN rs1)).2 with
  | true | false => rfl

theorem execMerge_present (h : execMerge s = .next t) : execMerge (s.present ws) = .next (t.present ws) := by
  unfold execMerge at h ⊢
  rw [State.present_list]
  split at h
  · exact complete_present h
  · cases h

theorem execDecomp_present {rs1 rs2 : WReg} {fw : Nat} (h : execDecomp rs1 rs2 fw s = .next t) :
    execDecomp rs1 rs2 fw (s.present ws) = .next (t.present ws) := by
  have hrange : checkRange rs1 rs2 fw (s.present ws) = checkRange rs1 rs2 fw s := rfl
  unfold execDecomp at h ⊢
  rw [hrange, State.present_getW, State.present_getW]
  split at h
  · obtain rfl := Host.Outcome.next.inj h
    rw [takeException_present]
  · split at h
    · exact finish_present h
    · cases h

theorem execCsrout_present {csr : Nat} (h : execCsrout csr s = .next t) :
    execCsrout csr (s.present ws) = .next (t.present ws) := by
  have hread : (s.present ws).csr csr = s.csr csr := rfl
  unfold execCsrout at h ⊢
  rw [hread]
  split at h
  · exact complete_present h
  · obtain rfl := Host.Outcome.next.inj h
    rw [takeException_present]

/-- No command's meaning looks at the words presented, which stay in the stream. -/
theorem exec_present {i : Instr} (h : exec i s = .next t) : exec i (s.present ws) = .next (t.present ws) := by
  cases i with
  | nwiden => exact execNwiden_present h
  | merge => exact execMerge_present h
  | decomp => exact execDecomp_present h
  | csrout => exact execCsrout_present h
  | maska | masks | zsub | zsetb | nmake | nbase | nmask | nincl | nlt | nout | lpush | lget => exact finish_present h
  | wli | wli4 | wcmp | wnot | wand | wshl | wnext | wrend | wjump | wcto | wout | zisz | zout | lclr | lout | clrerr =>
    exact complete_present h

/-- Further words presented stand after the ones being read. -/
theorem fetch_present (s : State) (ws : List Word) : (s.present ws).fetch = decode (s.pending ++ s.cmd ++ ws) := by
  rw [State.fetch, State.present_pending, State.present_cmd, List.append_assoc]

/-- Settles O7: the decoder reads the same command or head word (`decode_append_of_command`, `decode_append_of_illegal`),
and what follows does not look at the words left (`exec_present`, `takeException_present`). -/
theorem noLookAheadBeyondTheCommand : Obligations.NoLookAheadBeyondTheCommand := by
  unfold Obligations.NoLookAheadBeyondTheCommand
  intro s t ws hh hf hstep
  have hh' : (s.present ws).halted = false := hh
  rcases step_cases s with ⟨hhalt, _⟩ | ⟨_, i, rest, hcmd, h⟩ | ⟨_, w, rest, hill, h⟩ | ⟨_, hinc, _⟩
  · cases hh.symm.trans hhalt
  · have hfetch : (s.present ws).fetch = .command i (rest ++ ws) := by
      rw [fetch_present, decode_append_of_command hcmd]
    simp only [step, hh', hfetch]
    exact exec_present (h.symm.trans hstep)
  · have hfetch : (s.present ws).fetch = .illegal w (rest ++ ws) := by
      rw [fetch_present, decode_append_of_illegal hill]
    obtain rfl := Host.Outcome.next.inj (h.symm.trans hstep)
    simp only [step, hh', hfetch]
    exact congrArg Host.Outcome.next (takeException_present (s.takeWords rest) _ ws)
  · exact absurd hinc hf

end LookAhead

end Sys2Proof.Machine
end

section
/-! The statement of 20_memory on the command port: a step runs the command whose words come next (R70). It rests on the
round trip of each command, `Laws.RoundTrip`. -/

namespace Sys2Proof.Laws.RoundTrip

/-- The round trip, over the rows of the opcode map (30_encoding R100). -/
theorem statement_holds : ∀ i : Instr, Statement i
  | .wli rd literal => wli rd literal
  | .wli4 rd literal => wli4 rd literal
  | .wcmp rs1 rs2 => wcmp rs1 rs2
  | .wnot rd rs1 => wnot rd rs1
  | .wand rd rs1 rs2 => wand rd rs1 rs2
  | .wshl rd rs1 => wshl rd rs1
  | .wnext rd rs1 rs2 => wnext rd rs1 rs2
  | .wrend rd rs1 rs2 => wrend rd rs1 rs2
  | .wjump rd rs1 rs2 => wjump rd rs1 rs2
  | .wcto rd rs1 max => wcto rd rs1 max
  | .wout rs1 => wout rs1
  | .maska rd plen fw => maska rd plen fw
  | .masks rd plen fw => masks rd plen fw
  | .zsub rd rs1 rs2 => zsub rd rs1 rs2
  | .zisz rs1 => zisz rs1
  | .zsetb rd rs1 plen fw => zsetb rd rs1 plen fw
  | .zout rs1 => zout rs1
  | .nmake rd rs1 plen fw => nmake rd rs1 plen fw
  | .nbase rd rs1 => nbase rd rs1
  | .nmask rd rs1 => nmask rd rs1
  | .nincl rs1 rs2 => nincl rs1 rs2
  | .nlt rs1 rs2 => nlt rs1 rs2
  | .nwiden rd rs1 => nwiden rd rs1
  | .nout rs1 => nout rs1
  | .lclr => lclr
  | .lpush rs1 => lpush rs1
  | .lget rd idx => lget rd idx
  | .lout => lout
  | .merge => merge
  | .decomp rs1 rs2 fw => decomp rs1 rs2 fw
  | .csrout csr => csrout csr
  | .clrerr => clrerr

end Sys2Proof.Laws.RoundTrip

namespace Sys2Proof.Machine

/-- The decoder reads a well-formed command from its own words, and none of the words after it (30_encoding R104). -/
theorem decode_encode_append {i : Instr} (hw : i.wellFormed = true) (rest : List Word) :
    decode (encode i ++ rest) = .command i rest :=
  Laws.RoundTrip.statement_holds i hw rest

/-- A unit that is not halted executes the command it fetches, with that command's words taken. -/
theorem step_of_fetch_command {s : State} {i : Instr} {rest : List Word} (hh : s.halted = false)
    (hf : s.fetch = .command i rest) : step s = exec i (s.takeWords rest) := by
  simp [step, hh, hf]

/-- Settles O6: the words held and presented decode to the command (`decode_encode_append`), which the step then executes
(`step_of_fetch_command`). -/
theorem stepRunsTheDecodedCommand : Obligations.StepRunsTheDecodedCommand := by
  unfold Obligations.StepRunsTheDecodedCommand
  intro s i rest hw hh hwords
  have hfetch : s.fetch = .command i rest := by rw [State.fetch, hwords, decode_encode_append hw]
  exact step_of_fetch_command hh hfetch

end Sys2Proof.Machine
end

section
/-! The statements of 30_encoding: decode and encode are inverse (R100, R101, R104), the illegal head words (R101, R102), an
unfinished literal (R104; 70_reset_and_hazards R325), words written out (R100), and the pseudo-instructions (R106). -/

namespace Sys2Proof

open Machine

/-! ### The row a head word selects (30_encoding R100) -/

/-- A head word selects exactly the row whose must-be-zero bits and op it meets. -/
theorem findOp_eq_some_iff_mask (h : Word) (o : Op) : findOp h = some o ↔ h &&& o.maskWord = o.matchWord := by
  simp [findOp_eq_some_iff, Op.selectedBy]

/-- An illegal head word meets no row. -/
theorem findOp_eq_none_iff_mask (h : Word) : findOp h = none ↔ ∀ o : Op, h &&& o.maskWord ≠ o.matchWord := by
  simp [findOp_eq_none_iff, Op.selectedBy]

/-! ### The fields of any head word (30_encoding R91 to R98) -/

@[simp] theorem fieldHi8_lt (h : Word) : fieldHi8 h < 256 := (h.extractLsb' 8 8).isLt
@[simp] theorem fieldLo8_lt (h : Word) : fieldLo8 h < 256 := (h.extractLsb' 0 8).isLt
@[simp] theorem fieldImm16_lt (h : Word) : fieldImm16 h < 65536 := (h.extractLsb' 0 16).isLt

/-- The operation code is the head word's top byte, as a number. -/
theorem toNat_fieldOp (h : Word) : (fieldOp h).toNat = h.toNat / 2 ^ 24 := by
  have hlt := h.isLt
  rw [fieldOp, BitVec.extractLsb'_toNat, Nat.shiftRight_eq_div_pow]
  omega

/-- Bits k to k + n - 1 of a head word, put back in their place, are the head word under a mask of those bits. -/
theorem fieldAt_extractLsb' (h : Word) (k n : Nat) :
    fieldAt (h.extractLsb' k n).toNat k = h &&& (BitVec.allOnes n).setWidth 32 <<< k := by
  apply BitVec.eq_of_getLsbD_eq
  intro i hi
  simp only [getLsbD_fieldAt, BitVec.testBit_toNat, BitVec.getLsbD_extractLsb', BitVec.getLsbD_and,
    BitVec.getLsbD_shiftLeft, BitVec.getLsbD_setWidth, BitVec.getLsbD_allOnes]
  by_cases hk : k ≤ i
  · simp [hk, hi, Nat.add_sub_cancel' hk, Nat.not_lt.mpr hk, show i - k < 32 by omega, Bool.and_comm]
  · simp [hk]

@[simp] theorem fieldAt_fieldRd (h : Word) : fieldAt (fieldRd h).val 20 = h &&& 0x00F00000 := fieldAt_extractLsb' h 20 4
@[simp] theorem fieldAt_fieldRs1 (h : Word) : fieldAt (fieldRs1 h).val 16 = h &&& 0x000F0000 := fieldAt_extractLsb' h 16 4
@[simp] theorem fieldAt_fieldRs2 (h : Word) : fieldAt (fieldRs2 h).val 12 = h &&& 0x0000F000 := fieldAt_extractLsb' h 12 4
@[simp] theorem fieldAt_fieldHi8 (h : Word) : fieldAt (fieldHi8 h) 8 = h &&& 0x0000FF00 := fieldAt_extractLsb' h 8 8
@[simp] theorem fieldAt_fieldLo8 (h : Word) : fieldAt (fieldLo8 h) 0 = h &&& 0x000000FF := fieldAt_extractLsb' h 0 8
@[simp] theorem fieldAt_fieldImm16 (h : Word) : fieldAt (fieldImm16 h) 0 = h &&& 0x0000FFFF := fieldAt_extractLsb' h 0 16

/-! ### The command of a row, encoded again (R100, R101) -/

/-- The immediates a command is decoded with fit their fields. -/
theorem command_wellFormed (o : Op) (h : Word) (ws : List Word) : (o.command h ws).wellFormed = true := by
  have hi8 : fitsImm8 (fieldHi8 h) = true := decide_eq_true (fieldHi8_lt h)
  have lo8 : fitsImm8 (fieldLo8 h) = true := decide_eq_true (fieldLo8_lt h)
  have imm16 : fitsImm16 (fieldImm16 h) = true := decide_eq_true (fieldImm16_lt h)
  cases o with
  | wcto => exact hi8
  | maska | masks | zsetb | nmake => simp only [Op.command, Instr.wellFormed, hi8, lo8, Bool.and_self]
  | lget | csrout => exact imm16
  | decomp => exact lo8
  | _ => rfl

/-- The encoder puts the fields of a head word back in their places: it gives the row's match word with the bits of the head
word that are not under the row's mask. -/
theorem headWord_command_eq (o : Op) (h : Word) (ws : List Word) :
    headWord (o.command h ws) = o.matchWord ||| (h &&& ~~~o.maskWord) := by
  cases o with
  | wcto =>
    simp [Op.command, headWord, Op.matchWord, Op.maskWord, headM_eq, BitVec.or_assoc, ← BitVec.and_or_distrib_left]
  | maska | masks | zsetb | nmake =>
    simp [Op.command, headWord, Op.matchWord, Op.maskWord, headP_eq, fieldAt_zero, BitVec.or_assoc, ← BitVec.and_or_distrib_left]
  | lget | csrout =>
    simp [Op.command, headWord, Op.matchWord, Op.maskWord, headI_eq, fieldAt_zero, BitVec.or_assoc, ← BitVec.and_or_distrib_left]
  | decomp =>
    simp [Op.command, headWord, Op.matchWord, Op.maskWord, headD_eq, BitVec.or_assoc, ← BitVec.and_or_distrib_left]
  | _ =>
    simp [Op.command, headWord, Op.matchWord, Op.maskWord, headR_eq, fieldAt_zero, BitVec.or_assoc, ← BitVec.and_or_distrib_left]

/-- A head word that selects a row is the head word of its command: no bit of it is outside the fields and the op. -/
theorem headWord_command {h : Word} {o : Op} (hf : findOp h = some o) (ws : List Word) : headWord (o.command h ws) = h := by
  calc headWord (o.command h ws)
      = o.matchWord ||| (h &&& ~~~o.maskWord) := headWord_command_eq o h ws
    _ = (h &&& o.maskWord) ||| (h &&& ~~~o.maskWord) := by rw [(findOp_eq_some_iff_mask h o).mp hf]
    _ = h := by rw [← BitVec.and_or_distrib_left, BitVec.or_not_self, BitVec.and_allOnes]

/-- The four payload words of WLI are the literal's, most significant first (R99). -/
theorem payload_wli_literal128 (rd : WReg) (p1 p2 p3 p4 : Word) :
    payload (.wli rd (literal128 p1 p2 p3 p4)) = [p1, p2, p3, p4] := by
  have happend : literal128 p1 p2 p3 p4 = (p1 ++ p2 ++ p3 ++ p4 : BitVec (32 + 32 + 32 + 32)) := rfl
  rw [payload, happend]
  simp [BitVec.extractLsb'_append_eq_of_le (w := 32), BitVec.extractLsb'_append_eq_right (w' := 32)]

/-- The payload of a decoded command is the words after its head word, as many as its row takes (R96). -/
theorem payload_command {o : Op} {ws : List Word} (h : Word) (hl : o.payloadWords ≤ ws.length) :
    payload (o.command h ws) = ws.take o.payloadWords := by
  cases o with
  | wli =>
    obtain ⟨p1, p2, p3, p4, rest, rfl⟩ : ∃ p1 p2 p3 p4 rest, ws = p1 :: p2 :: p3 :: p4 :: rest := by
      match ws, hl with
      | p1 :: p2 :: p3 :: p4 :: rest, _ => exact ⟨p1, p2, p3, p4, rest, rfl⟩
    exact payload_wli_literal128 _ p1 p2 p3 p4
  | wli4 =>
    obtain ⟨p1, rest, rfl⟩ := List.exists_cons_of_length_pos hl
    rfl
  | _ => rfl

/-- Words that decode to a command are the words that command encodes to, and the words left (R104). -/
theorem encode_append_of_decode {ws rest : List Word} {i : Instr} (hd : decode ws = .command i rest) :
    i.wellFormed = true ∧ encode i ++ rest = ws := by
  rcases decode_cases ws with ⟨_, h⟩ | ⟨_, _, _, _, h⟩ | ⟨_, _, _, _, _, _, h⟩ | ⟨w, tl, o, rfl, hf, hl, h⟩
  · cases h.symm.trans hd
  · cases h.symm.trans hd
  · cases h.symm.trans hd
  · obtain ⟨rfl, rfl⟩ := Decoded.command.inj (h.symm.trans hd)
    refine ⟨command_wellFormed o w tl, ?_⟩
    rw [encode, headWord_command hf, payload_command w hl, List.cons_append, List.take_append_drop]

/-! ### Illegal head words (R101, R102) -/

/-- With a must-be-zero bit of its own op's row set, a head word meets no row: another row has another op. -/
theorem no_row_of_mustBeZero {h : Word} {o : Op} (hop : fieldOp h = fieldOp o.matchWord)
    (hbit : h &&& (o.maskWord &&& 0x00FFFFFF) ≠ 0) (o' : Op) : h &&& o'.maskWord ≠ o'.matchWord := by
  intro hsel
  have hrow : o'.selectedBy h = true := beq_iff_eq.mpr hsel
  obtain rfl : o' = o := op_injective ((fieldOp_of_selectedBy hrow).symm.trans hop)
  refine hbit ?_
  calc h &&& (o'.maskWord &&& 0x00FFFFFF)
      = o'.matchWord &&& 0x00FFFFFF := by rw [← BitVec.and_assoc, hsel]
    _ = 0 := by cases o' <;> decide

/-- The ranges of operation codes that no row has (R102). -/
def unassignedOps : List (Nat × Nat) :=
  [(0x00, 0x00), (0x03, 0x0F), (0x19, 0x1F), (0x22, 0x27), (0x2C, 0x2F), (0x37, 0x3F), (0x44, 0x47), (0x4A, 0x4F), (0x52, 0xFF)]

/-- No row's op is in one of those ranges. -/
theorem op_not_unassigned (o : Op) :
    ∀ r ∈ unassignedOps, ¬(r.1 ≤ (fieldOp o.matchWord).toNat ∧ (fieldOp o.matchWord).toNat ≤ r.2) := by
  cases o <;> decide

/-- A head word whose op is in one of those ranges meets no row. -/
theorem no_row_of_unassignedOp {h : Word} {lo hi : Nat} (hmem : (lo, hi) ∈ unassignedOps) (hlo : lo ≤ h.toNat / 2 ^ 24)
    (hhi : h.toNat / 2 ^ 24 ≤ hi) (o : Op) : h &&& o.maskWord ≠ o.matchWord := by
  intro hsel
  have hop : h.toNat / 2 ^ 24 = (fieldOp o.matchWord).toNat := by
    rw [← toNat_fieldOp, fieldOp_of_selectedBy (beq_iff_eq.mpr hsel)]
  rw [hop] at hlo hhi
  exact op_not_unassigned o (lo, hi) hmem ⟨hlo, hhi⟩

/-! ### The literal loads, word by word (R96, R99, R100) -/

theorem encode_wli_literal128 (rd : WReg) (p1 p2 p3 p4 : Word) :
    encode (.wli rd (literal128 p1 p2 p3 p4)) = [0x01000000 ||| fieldAt rd.val 20, p1, p2, p3, p4] := by
  rw [encode, payload_wli_literal128]
  simp [headWord, headR_eq, fieldAt_zero]

theorem encode_wli4 (rd : WReg) (p : Word) : encode (.wli4 rd p) = [0x02000000 ||| fieldAt rd.val 20, p] := by
  simp [encode, payload, headWord, headR_eq, fieldAt_zero]

end Sys2Proof

namespace Sys2Proof.Machine

/-! ### Decode and encode -/

/-- Settles O1, by the round trip of each row (`decode_encode_append`). -/
theorem encodeThenDecodeGivesTheCommand : Obligations.EncodeThenDecodeGivesTheCommand := by
  unfold Obligations.EncodeThenDecodeGivesTheCommand
  intro i rest hw
  exact decode_encode_append hw rest

/-- Settles O2: the head word and the payload words of the decoded command are the words read
(`headWord_command`, `payload_command`). -/
theorem decodedWordsAreTheCommandsOwn : Obligations.DecodedWordsAreTheCommandsOwn := by
  unfold Obligations.DecodedWordsAreTheCommandsOwn
  intro ws rest i hd
  exact encode_append_of_decode hd

/-- Settles O3, by `no_row_of_mustBeZero`; in 0x10100000 the set bit is in rd of WCMP. -/
theorem mustBeZeroBitsMakeHeadIllegal : Obligations.MustBeZeroBitsMakeHeadIllegal := by
  unfold Obligations.MustBeZeroBitsMakeHeadIllegal
  refine ⟨fun h o hop hbit => ?_, ?_⟩
  · have hnone := no_row_of_mustBeZero hop hbit
    exact ⟨hnone, decode_illegal ((findOp_eq_none_iff_mask h).mpr hnone)⟩
  · refine decode_illegal ((findOp_eq_none_iff_mask _).mpr ?_)
    exact no_row_of_mustBeZero (o := .wcmp) (by decide) (by decide)

/-! ### Illegal head words at the step -/

namespace State

/-- A fatal exception records itself, halts the unit, and touches nothing else (60_exceptions R280, R281). -/
theorem fatal_takeException {e : Exn} (he : e.cause.isFatal = true) (s : State) :
    s.fatal e.cause.code e.info (s.takeException e) := by
  rw [takeException_fatal he]
  exact ⟨rfl, rfl, rfl, rfl, rfl, rfl, fun _ => rfl, fun _ => rfl, fun _ => rfl, ⟨rfl, rfl, rfl⟩, ⟨fun _ => rfl, rfl⟩, rfl, rfl,
    rfl, rfl⟩

end State

/-- A unit that is not halted takes an illegal head word alone and rejects it. -/
theorem step_of_fetch_illegal {s : State} {h : Word} {rest : List Word} (hh : s.halted = false)
    (hf : s.fetch = .illegal h rest) : step s = .next ((s.takeWords rest).rejectHead h) := by
  simp [step, hh, hf]

/-- Settles O4: the four parts are `fatal_takeException` for a head word that no row meets, `no_row_of_unassignedOp`, its two
words at the ends of the range, and the decoding of the literal loads from any payload words. -/
theorem unmatchedHeadWordsRaiseIllegal : Obligations.UnmatchedHeadWordsRaiseIllegal := by
  unfold Obligations.UnmatchedHeadWordsRaiseIllegal
  refine ⟨fun h s rest hnone hh hp hc => ?raises, fun h ⟨lo, hi, hmem, hlo, hhi⟩ => no_row_of_unassignedOp hmem hlo hhi,
    fun o => ⟨?zeros, ?ones⟩, fun rd p1 p2 p3 p4 rest => ⟨?wli, ?wli4⟩⟩
  case raises =>
    have hfetch : s.fetch = .illegal h rest := by
      rw [State.fetch, hp, hc, List.nil_append, decode_illegal ((findOp_eq_none_iff_mask h).mpr hnone)]
    exact ⟨_, step_of_fetch_illegal hh hfetch, State.fatal_takeException rfl (s.takeWords rest)⟩
  case zeros => exact no_row_of_unassignedOp (lo := 0x00) (hi := 0x00) (by decide) (by decide) (by decide) o
  case ones => exact no_row_of_unassignedOp (lo := 0x52) (hi := 0xFF) (by decide) (by decide) (by decide) o
  case wli =>
    have h := decode_encode_append (i := .wli rd (literal128 p1 p2 p3 p4)) rfl rest
    rwa [encode_wli_literal128] at h
  case wli4 =>
    have h := decode_encode_append (i := .wli4 rd p1) rfl rest
    rwa [encode_wli4] at h

/-! ### An unfinished literal (30_encoding R104, 70_reset_and_hazards R325) -/

/-- A unit that is not halted and whose words end too early holds them. -/
theorem step_of_fetch_incomplete {s : State} (hh : s.halted = false) (hf : s.fetch = .incomplete) :
    step s = .next s.holdWords := by
  simp [step, hh, hf]

/-- Words that end inside a literal command decode to no command yet. -/
theorem fetch_incomplete {s : State} {h : Word} {o : Op} {rest : List Word} (hw : s.pending ++ s.cmd = h :: rest)
    (hf : findOp h = some o) (hlt : rest.length < o.payloadWords) : s.fetch = .incomplete := by
  rw [State.fetch, hw, decode_cons hf, if_pos hlt]

/-- Words held are read again as if they had not been taken. -/
theorem fetch_present_holdWords (s : State) (ws : List Word) : (s.holdWords.present ws).fetch = (s.present ws).fetch := by
  rw [fetch_present, fetch_present, State.holdWords_pending, State.holdWords_cmd, List.append_nil]

/-- Holding the words already held, and then the words that follow, is holding them together. -/
theorem holdWords_present_holdWords (s : State) (ws : List Word) :
    (s.holdWords.present ws).holdWords = (s.present ws).holdWords := by
  simp only [State.holdWords, State.present, List.nil_append, List.append_assoc]

/-- Words held by the decoder and then followed by more are run as the words presented together. -/
theorem step_present_holdWords {s : State} (hh : s.halted = false) (ws : List Word) :
    step (s.holdWords.present ws) = step (s.present ws) := by
  have hheld : (s.holdWords.present ws).halted = false := hh
  have hfetch := fetch_present_holdWords s ws
  rcases step_cases (s.present ws) with ⟨hhalt, _⟩ | ⟨_, i, rest, hf, h⟩ | ⟨_, w, rest, hf, h⟩ | ⟨_, hf, h⟩
  · cases hh.symm.trans hhalt
  · rw [h, step_of_fetch_command hheld (hfetch.trans hf)]
    rfl
  · rw [h, step_of_fetch_illegal hheld (hfetch.trans hf)]
    rfl
  · rw [h, step_of_fetch_incomplete hheld (hfetch.trans hf), holdWords_present_holdWords]

/-- Presenting no words changes nothing. -/
theorem present_nil (s : State) : s.present [] = s := by
  simp [State.present]

/-- Settles O8: the step holds the words (`step_of_fetch_incomplete`), and what follows is as if they had not been taken
(`step_present_holdWords`). -/
theorem unfinishedLiteralWaits : Obligations.UnfinishedLiteralWaits := by
  unfold Obligations.UnfinishedLiteralWaits
  intro s h o rest hh hwords hrow hlt
  have hfetch := fetch_incomplete hwords ((findOp_eq_some_iff_mask h o).mpr hrow) hlt
  have hstep := step_of_fetch_incomplete hh hfetch
  have hlater := step_present_holdWords hh
  have hstuck : s.holdWords.runEnd = some .stuck := by
    simp [State.runEnd, hh, hwords]
  have hwait : step s.holdWords = .next s.holdWords := by
    have hnil := hlater []
    rwa [present_nil, present_nil, hstep] at hnil
  exact ⟨s.holdWords, hstep, hwords, rfl, fun _ => rfl, fun _ => rfl, fun _ => rfl, ⟨rfl, rfl, rfl⟩, ⟨fun _ => rfl, rfl⟩, rfl,
    rfl, ⟨rfl, rfl, rfl, rfl, rfl⟩, rfl, hstuck, hwait, hlater⟩

/-! ### Words written out (30_encoding R100) -/

/-- Settles O5, by running the decoder on each of the eight commands' words. -/
theorem sampleWordsDecode : Obligations.SampleWordsDecode := by
  unfold Obligations.SampleWordsDecode
  refine ⟨?wli, ?wcto, ?maska, ?zsub, ?nmake, ?lget, ?decomp, ?csrout⟩ <;> decide

/-! ### The pseudo-instructions (30_encoding R106) -/

namespace State

/-- A command that writes Wd and retires leaves everything else alone. -/
theorem wroteW_retire_setW (s : State) (rd : WReg) (v : WideUint) : s.wroteW rd v (s.setW rd v).retire :=
  ⟨by simp, fun _ hr => getW_setW_of_ne hr, fun _ => rfl, fun _ => rfl, ⟨fun _ => rfl, rfl⟩, rfl, rfl, rfl,
    ⟨rfl, rfl, rfl, rfl, rfl⟩, rfl, rfl⟩

/-- A command that writes Zd and retires leaves everything else alone. -/
theorem wroteZ_retire_setZ (s : State) (rd : ZReg) (v : Counter) : s.wroteZ rd v (s.setZ rd v).retire :=
  ⟨by simp, fun _ hr => getZ_setZ_of_ne hr, fun _ => rfl, fun _ => rfl, ⟨rfl, rfl, rfl⟩, ⟨fun _ => rfl, rfl⟩, rfl, rfl, rfl,
    ⟨rfl, rfl, rfl, rfl, rfl⟩, rfl, rfl⟩

/-- Writing a W register with the value it holds changes nothing. -/
theorem setW_getW_self (s : State) (r : WReg) : s.setW r (s.getW r) = s := by
  simp [setW, getW, Vector.get_eq_getElem]

end State

/-- WMOV copies: the AND of a value with itself is the value. -/
theorem exec_wmov (rd rs : WReg) (s : State) : exec (Instr.wmov rd rs) s = .next (s.setW rd (s.getW rs)).retire := by
  rw [Instr.wmov, exec, execWand, BitVec.and_self, complete_eq]

/-- ZCLR clears: a counter less itself is zero, and never underflows. -/
theorem exec_zclr (rd : ZReg) (s : State) : exec (Instr.zclr rd) s = .next (s.setZ rd 0).retire := by
  have hcheck : checkUnderflow (s.getZ rd) (s.getZ rd) = none := (checkUnderflow_eq_none_iff _ _).mpr (BitVec.le_refl _)
  rw [Instr.zclr, exec, execZsub, hcheck, BitVec.sub_self, finish_none]
  rfl

/-- NOP is the copy of W0 to itself, so that it only retires. -/
theorem exec_nop (s : State) : exec Instr.nop s = .next s.retire := by
  rw [show Instr.nop = Instr.wmov 0 0 from rfl, exec_wmov, State.setW_getW_self]

/-- Settles O48, by what each pseudo-instruction does: `exec_wmov`, `exec_zclr`, `exec_nop`. -/
theorem pseudoInstructions : Obligations.PseudoInstructions := by
  unfold Obligations.PseudoInstructions
  exact ⟨rfl, rfl, fun rd rs s => ⟨rfl, _, exec_wmov rd rs s, s.wroteW_retire_setW rd _, rfl, rfl, rfl⟩,
    fun rd s => ⟨rfl, _, exec_zclr rd s, s.wroteZ_retire_setZ rd 0⟩, fun s => ⟨rfl, exec_nop s⟩⟩

end Sys2Proof.Machine
end

section
/-! The statements of 40_wideuint on the commands of the wide-integer unit: what each leaves in its destination and flags,
with its words (R121 to R132), and the Z record of 42_blocksize (R169). -/

namespace Sys2Proof.Machine

/-! ### Words of the commands without payload (30_encoding R91, R93) -/

section Words
variable {i : Instr} {rd rs1 rs2 : Fin 16}

theorem encode_of_no_payload (hp : payload i = []) : encode i = [headWord i] := by rw [encode, hp]

theorem encode_rd_rs1_rs2 (op : BitVec 8) (hp : payload i = []) (hh : headWord i = headR op rd rs1 rs2) :
    encode i = [(op ++ (0 : BitVec 24)) ||| fieldAt rd.val 20 ||| fieldAt rs1.val 16 ||| fieldAt rs2.val 12] := by
  rw [encode_of_no_payload hp, hh, headR_eq]

theorem encode_rd_rs1 (op : BitVec 8) (hp : payload i = []) (hh : headWord i = headR op rd rs1 0) :
    encode i = [(op ++ (0 : BitVec 24)) ||| fieldAt rd.val 20 ||| fieldAt rs1.val 16] := by
  simpa [fieldAt_zero] using encode_rd_rs1_rs2 op hp hh

theorem encode_rs1_rs2 (op : BitVec 8) (hp : payload i = []) (hh : headWord i = headR op 0 rs1 rs2) :
    encode i = [(op ++ (0 : BitVec 24)) ||| fieldAt rs1.val 16 ||| fieldAt rs2.val 12] := by
  simpa [fieldAt_zero] using encode_rd_rs1_rs2 op hp hh

theorem encode_rs1 (op : BitVec 8) (hp : payload i = []) (hh : headWord i = headR op 0 rs1 0) :
    encode i = [(op ++ (0 : BitVec 24)) ||| fieldAt rs1.val 16] := by
  simpa [fieldAt_zero] using encode_rd_rs1 op hp hh

theorem encode_rd_rs1_max {max : Nat} (op : BitVec 8) (hm : max < 256) (hp : payload i = [])
    (hh : headWord i = headM op rd rs1 max) :
    encode i = [(op ++ (0 : BitVec 24)) ||| fieldAt rd.val 20 ||| fieldAt rs1.val 16 ||| fieldAt max 8] := by
  rw [encode_of_no_payload hp, hh, headM_eq op rd rs1 hm]

end Words

/-! ### What a command that raises nothing leaves (R120) -/

namespace State

/-- A command that writes Wd and retires changes no flag. -/
theorem sameFlags_retire_setW (s : State) (rd : WReg) (v : WideUint) : s.sameFlags (s.setW rd v).retire := ⟨rfl, rfl, rfl⟩

/-- A command that writes Wd and C and retires leaves everything else alone. -/
theorem wroteW_retire_setC_setW (s : State) (rd : WReg) (v : WideUint) (b : Bool) :
    s.wroteW rd v ((s.setW rd v).setC b).retire := s.wroteW_retire_setW rd v

/-- A command that writes CMP and retires changes no register, LIST entry or PASSES. -/
theorem wroteNoData_retire_setCmp (s : State) (v : Cmp) : s.wroteNoData (s.setCmp v).retire :=
  ⟨fun _ => rfl, fun _ => rfl, fun _ => rfl, ⟨fun _ => rfl, rfl⟩, rfl, rfl, rfl, ⟨rfl, rfl, rfl, rfl, rfl⟩, rfl, rfl⟩

/-- A command that emits words and retires leaves everything else alone. -/
theorem emitted_retire_emit (s : State) (ws : List Word) : s.emitted ws (s.emit ws).retire :=
  ⟨rfl, fun _ => rfl, fun _ => rfl, fun _ => rfl, ⟨rfl, rfl, rfl⟩, ⟨fun _ => rfl, rfl⟩, rfl, rfl, ⟨rfl, rfl, rfl, rfl, rfl⟩,
    rfl, rfl⟩

end State

/-! ### The halves of a result -/

theorem highHalf_append (a b : BitVec 64) : highHalf (a ++ b) = a := BitVec.extractLsb'_append_eq_left
theorem lowHalf_append (a b : BitVec 64) : lowHalf (a ++ b) = b := BitVec.extractLsb'_append_eq_right

/-! ### Literal loads (R121, R122) -/

theorem exec_wli (rd : WReg) (v : WideUint) (s : State) : exec (.wli rd v) s = .next (s.setW rd v).retire := rfl

theorem exec_wli4 (rd : WReg) (v : Word) (s : State) :
    exec (.wli4 rd v) s = .next (s.setW rd (BitVec.ofNat 128 v.toNat)).retire := by
  rw [BitVec.ofNat_toNat]
  rfl

/-- The payload of WLI is its literal, most significant word first. -/
theorem encode_wli (rd : WReg) (v : WideUint) :
    encode (.wli rd v) = [0x01000000 ||| fieldAt rd.val 20, v.extractLsb' 96 32, v.extractLsb' 64 32, v.extractLsb' 32 32,
      v.extractLsb' 0 32] := by
  have h := encode_wli_literal128 rd (v.extractLsb' 96 32) (v.extractLsb' 64 32) (v.extractLsb' 32 32) (v.extractLsb' 0 32)
  rwa [literal128_extract] at h

/-- Settles O9: both loads write Wd and nothing else, WLI4 with the number its literal is. -/
theorem literalLoadsComplete : Obligations.LiteralLoadsComplete := by
  unfold Obligations.LiteralLoadsComplete
  refine ⟨fun rd v s => ⟨encode_wli rd v, ?wli⟩, fun rd v s => ⟨encode_wli4 rd v, ?wli4⟩⟩
  case wli => exact ⟨_, exec_wli rd v s, s.wroteW_retire_setW rd _, s.sameFlags_retire_setW rd _⟩
  case wli4 => exact ⟨_, exec_wli4 rd v s, s.wroteW_retire_setW rd _, s.sameFlags_retire_setW rd _⟩

/-! ### Comparison (R123) -/

theorem exec_wcmp (a b : WReg) (s : State) :
    exec (.wcmp a b) s = .next (s.setCmp (compareWide (s.getW a) (s.getW b))).retire := rfl

theorem compareWide_eq_less_iff (a b : WideUint) : compareWide a b = .less ↔ a.toNat < b.toNat := by
  rw [compareWide_eq]
  split_ifs <;> simp <;> omega

theorem compareWide_eq_greater_iff (a b : WideUint) : compareWide a b = .greater ↔ b.toNat < a.toNat := by
  rw [compareWide_eq]
  split_ifs <;> simp <;> omega

theorem compareWide_eq_equal_iff (a b : WideUint) : compareWide a b = .equal ↔ a = b := by
  rw [compareWide_eq, ← BitVec.toNat_inj]
  split_ifs <;> simp <;> omega

/-- Settles O10: CMP is `compareWide`, the comparison by halves, which orders the two values as numbers
(`compareWide_eq_less_iff`, `compareWide_eq_equal_iff`, `compareWide_eq_greater_iff`). -/
theorem compareSetsCmp : Obligations.CompareSetsCmp := by
  unfold Obligations.CompareSetsCmp
  intro a b s
  exact ⟨encode_rs1_rs2 0x10 rfl rfl, _, exec_wcmp a b s, s.wroteNoData_retire_setCmp _, rfl, rfl, rfl,
    compareWide_eq_less_iff _ _, compareWide_eq_equal_iff _ _, compareWide_eq_greater_iff _ _⟩

/-! ### Bitwise commands (R124, R125, R128) -/

theorem exec_wnot (rd rs1 : WReg) (s : State) : exec (.wnot rd rs1) s = .next (s.setW rd (~~~s.getW rs1)).retire := rfl

theorem exec_wand (rd rs1 rs2 : WReg) (s : State) :
    exec (.wand rd rs1 rs2) s = .next (s.setW rd (s.getW rs1 &&& s.getW rs2)).retire := rfl

theorem exec_wrend (rd rs1 rs2 : WReg) (s : State) :
    exec (.wrend rd rs1 rs2) s = .next (s.setW rd (s.getW rs1 ||| ~~~s.getW rs2)).retire := rfl

/-- Settles O11: each of the three commands writes Wd and nothing else. -/
theorem bitwiseCommandsComplete : Obligations.BitwiseCommandsComplete := by
  unfold Obligations.BitwiseCommandsComplete
  refine ⟨fun rd rs1 s => ⟨encode_rd_rs1 0x11 rfl rfl, ?wnot⟩, fun rd rs1 rs2 s => ⟨encode_rd_rs1_rs2 0x12 rfl rfl, ?wand⟩,
    fun rd rs1 rs2 s => ⟨encode_rd_rs1_rs2 0x15 rfl rfl, ?wrend⟩⟩
  case wnot => exact ⟨_, exec_wnot rd rs1 s, s.wroteW_retire_setW rd _, s.sameFlags_retire_setW rd _⟩
  case wand => exact ⟨_, exec_wand rd rs1 rs2 s, s.wroteW_retire_setW rd _, s.sameFlags_retire_setW rd _⟩
  case wrend => exact ⟨_, exec_wrend rd rs1 rs2 s, s.wroteW_retire_setW rd _, s.sameFlags_retire_setW rd _⟩

/-! ### Shift (R127) -/

theorem exec_wshl (rd rs1 : WReg) (s : State) :
    exec (.wshl rd rs1) s = .next ((s.setW rd (shl1 (s.getW rs1))).setC ((s.getW rs1).getLsbD 127)).retire := rfl

theorem shl1_eq_ofNat (v : WideUint) : shl1 v = BitVec.ofNat 128 (2 * v.toNat) :=
  BitVec.eq_of_toNat_eq (by rw [toNat_shl1, BitVec.toNat_ofNat])

theorem lowHalf_shl1 (v : WideUint) : lowHalf (shl1 v) = v.extractLsb' 0 63 ++ (0 : BitVec 1) := lowHalf_append _ _
theorem highHalf_shl1 (v : WideUint) : highHalf (shl1 v) = v.extractLsb' 64 63 ++ v.extractLsb' 63 1 := highHalf_append _ _

/-- Settles O12: WSHL writes `shl1`, whose halves are those of the rule and whose number is the double (`shl1_eq_ofNat`). -/
theorem shiftLeftCarriesAcrossHalves : Obligations.ShiftLeftCarriesAcrossHalves := by
  unfold Obligations.ShiftLeftCarriesAcrossHalves
  intro rd rs1 s
  have hwrote := s.wroteW_retire_setC_setW rd (shl1 (s.getW rs1)) ((s.getW rs1).getLsbD 127)
  have hrd := hwrote.1
  refine ⟨encode_rd_rs1 0x13 rfl rfl, _, exec_wshl rd rs1 s, ?wrote, ?low, ?high, rfl, rfl, rfl⟩
  case wrote => rwa [← shl1_eq_ofNat]
  case low => rw [hrd, lowHalf_shl1]
  case high => rw [hrd, highHalf_shl1]

/-! ### Increment past the block (R129, R130) -/

theorem exec_wnext (rd rs1 rs2 : WReg) (s : State) : exec (.wnext rd rs1 rs2) s =
    .next ((s.setW rd (increment (s.getW rs1 ||| ~~~s.getW rs2))).setC ((s.getW rs1 ||| ~~~s.getW rs2) == allOnes)).retire :=
  rfl

/-- WJUMP is WNEXT under another name (R130). -/
theorem exec_wjump_eq_wnext (rd rs1 rs2 : WReg) (s : State) : exec (.wjump rd rs1 rs2) s = exec (.wnext rd rs1 rs2) s := rfl

theorem increment_eq_ofNat (e : WideUint) : increment e = BitVec.ofNat 128 (e.toNat + 1) := by
  rw [increment_eq, BitVec.ofNat_add, BitVec.ofNat_toNat, BitVec.setWidth_eq]
  rfl

theorem lowHalf_increment (e : WideUint) : lowHalf (increment e) = lowHalf e + 1 := lowHalf_append _ _

/-- The low half's carry enters the high half when the low half is all ones. -/
theorem highHalf_increment (e : WideUint) :
    highHalf (increment e) = highHalf e + (if lowHalf e = BitVec.allOnes 64 then 1 else 0) := highHalf_append _ _

/-- Settles O13: WJUMP is WNEXT (`exec_wjump_eq_wnext`), which writes `increment`, by halves that of the rule and as a number
one more modulo 2^128 (`increment_eq_ofNat`). -/
theorem nextAndJumpIncrementPastTheBlock : Obligations.NextAndJumpIncrementPastTheBlock := by
  unfold Obligations.NextAndJumpIncrementPastTheBlock
  intro rd rs1 rs2 s
  have hwrote := s.wroteW_retire_setC_setW rd (increment (s.getW rs1 ||| ~~~s.getW rs2))
    ((s.getW rs1 ||| ~~~s.getW rs2) == allOnes)
  have hrd := hwrote.1
  have hnext := exec_wnext rd rs1 rs2 s
  refine ⟨encode_rd_rs1_rs2 0x14 rfl rfl, encode_rd_rs1_rs2 0x16 rfl rfl, _, hnext,
    (exec_wjump_eq_wnext rd rs1 rs2 s).trans hnext, ?wrote, ?low, ?high, rfl, rfl, rfl⟩
  case wrote => rwa [← increment_eq_ofNat]
  case low => rw [hrd, lowHalf_increment]
  case high => rw [hrd, highHalf_increment]

/-! ### Trailing ones (R131) -/

theorem exec_wcto (rd rs1 : WReg) (max : Nat) (s : State) : exec (.wcto rd rs1 max) s =
    .next (s.setW rd (BitVec.ofNat 128 (min (countTrailingOnes (s.getW rs1)) max))).retire := rfl

/-- The count stops at the end of the word or at a zero bit. -/
theorem countTrailingOnes_stops (v : WideUint) :
    countTrailingOnes v = 128 ∨ (countTrailingOnes v < 128 ∧ v.getLsbD (countTrailingOnes v) = false) := by
  rcases (countTrailingOnes_le v).eq_or_lt with hall | hlt
  · exact .inl hall
  · exact .inr ⟨hlt, getLsbD_countTrailingOnes hlt⟩

/-- Settles O14: every bit below `countTrailingOnes` is one (`getLsbD_of_lt_countTrailingOnes`), and the count stops where the
rule says (`countTrailingOnes_stops`). -/
theorem trailingOnesAreCounted : Obligations.TrailingOnesAreCounted := by
  unfold Obligations.TrailingOnesAreCounted
  intro rd rs1 max s hmax
  exact ⟨encode_rd_rs1_max 0x17 hmax rfl rfl, _, countTrailingOnes (s.getW rs1), exec_wcto rd rs1 max s,
    s.wroteW_retire_setW rd _, s.sameFlags_retire_setW rd _, fun _ hi => getLsbD_of_lt_countTrailingOnes hi,
    countTrailingOnes_stops _⟩

/-! ### Records (R132, 42_blocksize R169) -/

theorem exec_wout (r : WReg) (s : State) : exec (.wout r) s = .next (s.emit (wideWords (s.getW r))).retire := rfl

theorem exec_zout (r : ZReg) (s : State) : exec (.zout r) s = .next (s.emit (counterWords (s.getZ r))).retire := rfl

/-- One bit, zero-extended to a word, is the word 1 or 0. -/
theorem zeroExtend_bit {w : Nat} (z : BitVec w) (k : Nat) :
    (z.extractLsb' k 1).zeroExtend 32 = if z.getLsbD k then (1 : Word) else 0 := by
  apply BitVec.eq_of_getLsbD_eq
  intro i hi
  cases i <;> cases h : z.getLsbD k <;> simp [h]

/-- The words of a Z record: its top bit, then its other bits as four words. -/
theorem counterWords_eq (z : Counter) : counterWords z = [if z.getLsbD 128 then 1 else 0, z.extractLsb' 96 32,
    z.extractLsb' 64 32, z.extractLsb' 32 32, z.extractLsb' 0 32] := by
  rw [counterWords, zeroExtend_bit, wideWords, BitVec.extractLsb'_extractLsb'_of_le (by decide),
    BitVec.extractLsb'_extractLsb'_of_le (by decide), BitVec.extractLsb'_extractLsb'_of_le (by decide),
    BitVec.extractLsb'_extractLsb'_of_le (by decide)]

/-- Settles O15: both commands emit the record of their register and nothing else changes; the words of a Z record are those
of `counterWords_eq`. -/
theorem registerRecordsAreEmitted : Obligations.RegisterRecordsAreEmitted := by
  unfold Obligations.RegisterRecordsAreEmitted
  refine ⟨fun r s => ⟨encode_rs1 0x18 rfl rfl, ?wout⟩, fun r s => ⟨encode_rs1 0x2B rfl rfl, ?zout⟩⟩
  case wout => exact ⟨_, exec_wout r s, s.emitted_retire_emit _⟩
  case zout =>
    rw [← counterWords_eq]
    exact ⟨_, exec_zout r s, s.emitted_retire_emit _⟩

end Sys2Proof.Machine
end

section
/-! The statements of 41_masktable: the two reads of the mask table with their checks (R151, R152), and the identities of its
entries (R153). -/

namespace Sys2Proof.Machine

/-! ### Words of the commands that name an index of the table (30_encoding R92) -/

section Words
variable {i : Instr} {rd rs1 : Fin 16} {plen fw : Nat}

theorem encode_rd_rs1_plen_fw (op : BitVec 8) (hp : plen < 256) (hw : fw < 256) (hpl : payload i = [])
    (hh : headWord i = headP op rd rs1 plen fw) :
    encode i =
      [(op ++ (0 : BitVec 24)) ||| fieldAt rd.val 20 ||| fieldAt rs1.val 16 ||| fieldAt plen 8 ||| fieldAt fw 0] := by
  rw [encode_of_no_payload hpl, hh, headP_eq op rd rs1 hp hw]

theorem encode_rd_plen_fw (op : BitVec 8) (hp : plen < 256) (hw : fw < 256) (hpl : payload i = [])
    (hh : headWord i = headP op rd 0 plen fw) :
    encode i = [(op ++ (0 : BitVec 24)) ||| fieldAt rd.val 20 ||| fieldAt plen 8 ||| fieldAt fw 0] := by
  simpa [fieldAt_zero] using encode_rd_rs1_plen_fw op hp hw hpl hh

end Words

/-! ### A command behind the checks of an index (R151, R154; 60_exceptions R272, R273) -/

section Index
variable {plen fw : Nat}

theorem finish_checkIndex_of_index (hw : isWidth fw) (hp : plen ≤ fw) (v s : State) :
    finish (checkIndex plen fw) v s = .next v.retire := by
  rw [(checkIndex_eq_none_iff plen fw).mpr ((romIndex_iff plen fw).mpr ⟨hw, hp⟩), finish_none]

/-- E_WIDTH comes first, whatever plen is. -/
theorem finish_checkIndex_of_not_isWidth (hw : ¬isWidth fw) (v s : State) :
    ∃ t, finish (checkIndex plen fw) v s = .next t ∧ s.fatal 2 (fieldAt fw 0) t := by
  have hinvalid : validWidth fw = false := Bool.eq_false_iff.mpr (mt (validWidth_iff fw).mp hw)
  rw [checkIndex_width hinvalid, finish_some, fieldAt_at_zero]
  exact ⟨_, rfl, State.fatal_takeException rfl s⟩

/-- E_PREFIX needs a valid width, which plen exceeds. -/
theorem finish_checkIndex_of_lt_plen (hw : isWidth fw) (hp : fw < plen) (v s : State) :
    ∃ t, finish (checkIndex plen fw) v s = .next t ∧ s.fatal 3 (fieldAt plen 0) t := by
  rw [checkIndex_plen ((validWidth_iff fw).mpr hw) hp, finish_some, fieldAt_at_zero]
  exact ⟨_, rfl, State.fatal_takeException rfl s⟩

theorem isWidth.sub_le (hw : isWidth fw) (p : Nat) : fw - p ≤ 128 := by
  rcases hw with rfl | rfl <;> omega

end Index

/-! ### The two reads (R151, R152) -/

theorem exec_maska (rd : WReg) (plen fw : Nat) (s : State) :
    exec (.maska rd plen fw) s = finish (checkIndex plen fw) (s.setW rd (maskAddress plen fw)) s := rfl

theorem exec_masks (rd : ZReg) (plen fw : Nat) (s : State) :
    exec (.masks rd plen fw) s = finish (checkIndex plen fw) (s.setZ rd (maskSize plen fw)) s := rfl

/-- Settles O16: both commands are one write behind `checkIndex`, whose three outcomes are the three clauses; the entry is
R150's by `maskAddress_eq_formula` and `maskSize_eq_ofNat`. -/
theorem maskTableReads : Obligations.MaskTableReads := by
  unfold Obligations.MaskTableReads
  intro rd plen fw s hplen hfw
  rw [exec_maska, exec_masks]
  refine ⟨encode_rd_plen_fw 0x20 hplen hfw rfl rfl, encode_rd_plen_fw 0x21 hplen hfw rfl rfl,
    fun hw hp => ⟨⟨_, finish_checkIndex_of_index hw hp _ s, ?address, s.sameFlags_retire_setW rd _⟩,
      _, finish_checkIndex_of_index hw hp _ s, ?counter, ?size⟩,
    fun hw => ⟨finish_checkIndex_of_not_isWidth hw _ s, finish_checkIndex_of_not_isWidth hw _ s⟩,
    fun hw hp => ⟨finish_checkIndex_of_lt_plen hw hp _ s, finish_checkIndex_of_lt_plen hw hp _ s⟩⟩
  case address =>
    rw [maskAddress_eq_formula]
    exact s.wroteW_retire_setW rd _
  case counter =>
    rw [maskSize_eq_ofNat]
    exact s.wroteZ_retire_setZ rd _
  case size =>
    have hwrote := s.wroteZ_retire_setZ rd (maskSize plen fw)
    rw [hwrote.1, toNat_maskSize (hw.sub_le plen)]

/-! ### The identities (R153) -/

/-- The host mask is the size less one (R153 (a)). -/
theorem not_maskAddress_eq_size_pred {p w : Nat} (h : w - p ≤ 128) :
    ~~~maskAddress p w = BitVec.ofNat 128 ((maskSize p w).toNat - 1) := by
  rw [toNat_maskSize h, ← toNat_not_maskAddress h, BitVec.ofNat_toNat, BitVec.setWidth_eq]

/-- The top bit of a mask is set unless every bit is a host bit (R153 (b), (g)). -/
theorem shiftedOut_maskAddress {p w : Nat} (h : w - p ≤ 127) : shiftedOut (maskAddress p w) = true := by
  simp [shiftedOut, getLsbD_maskAddress, h]

/-- Nesting: the mask of a wider block has no bit outside the mask of a narrower one (R153 (d)). -/
theorem maskAddress_and_of_le {p q : Nat} (w : Nat) (h : p ≤ q) : maskAddress p w &&& maskAddress q w = maskAddress p w := by
  apply BitVec.eq_of_getLsbD_eq
  intro i hi
  simp only [BitVec.getLsbD_and, getLsbD_maskAddress]
  by_cases hp : w - p ≤ i
  · have hq : w - q ≤ i := by omega
    simp [hp, hq]
  · simp [hp]

/-- Entry p of family 32 and entry 96 + p of family 128 have equally many host bits, on which alone an entry depends
(R153 (g)). -/
theorem sub_family32_eq (p : Nat) : 128 - (96 + p) = 32 - p := Nat.add_sub_add_left 96 32 p

theorem maskAddress_family32 (p : Nat) : maskAddress p 32 = maskAddress (96 + p) 128 := by
  rw [maskAddress, maskAddress, sub_family32_eq]

theorem maskSize_family32 (p : Nat) : maskSize p 32 = maskSize (96 + p) 128 := by
  rw [maskSize, maskSize, sub_family32_eq]

/-- Settles O17: the identities (a) to (g) in order, each a law of the table's entries. -/
theorem maskIdentities : Obligations.MaskIdentities := by
  unfold Obligations.MaskIdentities
  intro p w hw hp
  have hbits : w - p ≤ 128 := hw.sub_le p
  refine ⟨⟨not_maskAddress_eq_size_pred hbits, toNat_maskSize hbits⟩,
    fun h1 => ⟨shl1_maskAddress h1 hp, shiftedOut_maskAddress ?top⟩, maskAddress_self w,
    fun q hpq _ => maskAddress_and_of_le w hpq,
    fun a => ⟨and_maskAddress_eq_self_iff a p w, fun ha => ?inFamily⟩,
    fun _ => ⟨maskAddress_family32 p, maskSize_family32 p, shiftedOut_maskAddress (by omega)⟩⟩
  case top =>
    have := hw.sub_le 0
    omega
  case inFamily => exact (inFamily_iff _ w).mp (inFamily_and _ ((inFamily_iff a w).mpr ha))

end Sys2Proof.Machine
end

section
/-! The statements of 42_blocksize: the exact subtraction with its underflow (R166; 60_exceptions R275), the test for zero
(R167), and the bit that a prefix length names from the top (R168). -/

namespace Sys2Proof.Machine

/-! ### Subtraction (R166; 60_exceptions R275) -/

theorem exec_zsub (rd rs1 rs2 : ZReg) (s : State) : exec (.zsub rd rs1 rs2) s =
    finish (checkUnderflow (s.getZ rs1) (s.getZ rs2)) (s.setZ rd (s.getZ rs1 - s.getZ rs2)) s := rfl

theorem checkUnderflow_some {a b : Counter} (h : a < b) : checkUnderflow a b = some { cause := .underflow, info := 0 } :=
  if_pos h

/-- The difference of two counters, where it is not negative, is that of their numbers. -/
theorem counter_sub_eq_ofNat {a b : Counter} (h : b ≤ a) : a - b = BitVec.ofNat 129 (a.toNat - b.toNat) := by
  rw [← BitVec.toNat_sub_of_le h, BitVec.ofNat_toNat, BitVec.setWidth_eq]

/-- Settles O18: ZSUB is one write behind `checkUnderflow`, which passes exactly where the difference is not negative; there
the 129-bit difference is exact (`counter_sub_eq_ofNat`). -/
theorem counterSubtractionIsExact : Obligations.CounterSubtractionIsExact := by
  unfold Obligations.CounterSubtractionIsExact
  intro rd rs1 rs2 s
  rw [exec_zsub]
  refine ⟨encode_rd_rs1_rs2 0x28 rfl rfl, fun hle => ?difference, fun hlt => ?underflow⟩
  case difference =>
    have hwrote := s.wroteZ_retire_setZ rd (s.getZ rs1 - s.getZ rs2)
    rw [(checkUnderflow_eq_none_iff _ _).mpr hle, finish_none, ← counter_sub_eq_ofNat hle]
    refine ⟨_, rfl, hwrote, ?_⟩
    rw [hwrote.1, BitVec.toNat_sub_of_le hle, Nat.sub_add_cancel hle]
  case underflow =>
    rw [checkUnderflow_some hlt, finish_some]
    exact ⟨_, rfl, State.fatal_takeException rfl s⟩

/-! ### The test for zero (R167) -/

theorem exec_zisz (r : ZReg) (s : State) : exec (.zisz r) s = .next (s.setT (s.getZ r == 0)).retire := rfl

/-- A command that writes T and retires changes no register, LIST entry or PASSES. -/
theorem State.wroteNoData_retire_setT (s : State) (b : Bool) : s.wroteNoData (s.setT b).retire :=
  ⟨fun _ => rfl, fun _ => rfl, fun _ => rfl, ⟨fun _ => rfl, rfl⟩, rfl, rfl, rfl, ⟨rfl, rfl, rfl, rfl, rfl⟩, rfl, rfl⟩

/-- A counter tests as zero exactly when its number is 0: bit 128 counts like every other. -/
theorem counter_beq_zero_iff (z : Counter) : (z == 0) = true ↔ z.toNat = 0 := by
  rw [beq_iff_eq, ← BitVec.toNat_inj]
  rfl

/-- Settles O19: ZISZ writes T alone, with the comparison of the whole counter to zero (`counter_beq_zero_iff`). -/
theorem counterZeroTest : Obligations.CounterZeroTest := by
  unfold Obligations.CounterZeroTest
  intro r s
  exact ⟨encode_rs1 0x29 rfl rfl, _, exec_zisz r s, s.wroteNoData_retire_setT _, counter_beq_zero_iff _, rfl, rfl⟩

/-! ### The bit a prefix length names (R168) -/

theorem exec_zsetb (rd rs1 : ZReg) (plen fw : Nat) (s : State) : exec (.zsetb rd rs1 plen fw) s =
    finish (checkIndex plen fw) (s.setZ rd (s.getZ rs1 ||| maskSize plen fw)) s := rfl

/-- Joining a counter with the size of a block sets bit fw - plen and copies every other bit. -/
theorem getLsbD_or_maskSize (z : Counter) (plen fw : Nat) {i : Nat} (hi : i < 129) :
    (z ||| maskSize plen fw).getLsbD i = (decide (i = fw - plen) || z.getLsbD i) := by
  rw [BitVec.getLsbD_or, getLsbD_maskSize, decide_eq_true hi, Bool.and_true, Bool.or_comm]

/-- Settles O20: ZSETB is one write behind `checkIndex`, whose three outcomes are the three clauses; the bits of what it
writes are those of `getLsbD_or_maskSize`. -/
theorem counterSetBitFromTop : Obligations.CounterSetBitFromTop := by
  unfold Obligations.CounterSetBitFromTop
  intro rd rs1 plen fw s hplen hfw
  have hwrote := s.wroteZ_retire_setZ rd (s.getZ rs1 ||| maskSize plen fw)
  rw [exec_zsetb]
  refine ⟨encode_rd_rs1_plen_fw 0x2A hplen hfw rfl rfl,
    fun hw hp => ⟨_, finish_checkIndex_of_index hw hp _ s, ?wrote, fun i hi => ?bits⟩,
    fun hw => finish_checkIndex_of_not_isWidth hw _ s, fun hw hp => finish_checkIndex_of_lt_plen hw hp _ s⟩
  case wrote => rwa [← maskSize_eq_ofNat]
  case bits => rw [hwrote.1, getLsbD_or_maskSize _ _ _ hi]

end Sys2Proof.Machine
end

section
/-! The statements of 43_subnet on the commands of the subnet checker: construction (R181), field access (R182, R183, R190),
the predicates (R185, R186, R188, R191), widening (R187, R189), and what containment of Subnets means (R192). -/

namespace Sys2Proof.Machine

/-! ### Checks in order (R180; 60_exceptions R279) -/

section Checks
variable {a b : Option Exn} {v s : State} {r : NReg}

theorem finish_orElse_of_none (h : a = none) : finish (a <|> b) v s = finish b v s := by rw [h]; rfl

/-- A check that raises hides the checks after it. -/
theorem finish_orElse_of_ne_none (h : a ≠ none) : finish (a <|> b) v s = finish a v s := by
  obtain ⟨e, rfl⟩ := Option.ne_none_iff_exists'.mp h
  rfl

theorem checkSubnet_eq_none_iff_isWidth (r : NReg) (s : State) : checkSubnet r s = none ↔ isWidth (s.getN r).fw.toNat :=
  (checkSubnet_eq_none_iff r s).trans (validWidth_iff _)

theorem finish_checkSubnet_of_isWidth (h : isWidth (s.getN r).fw.toNat) (v : State) :
    finish (checkSubnet r s) v s = .next v.retire := by
  rw [(checkSubnet_eq_none_iff_isWidth r s).mpr h, finish_none]

/-- The check of R180 raises E_WIDTH with the register's fw field. -/
theorem finish_checkSubnet_of_not_isWidth (h : ¬isWidth (s.getN r).fw.toNat) (v : State) :
    ∃ t, finish (checkSubnet r s) v s = .next t ∧ s.fatal 2 (fieldAt (s.getN r).fw.toNat 0) t := by
  rw [checkSubnet_some (Bool.eq_false_iff.mpr (mt (validWidth_iff _).mp h)), finish_some, fieldAt_at_zero]
  exact ⟨_, rfl, State.fatal_takeException rfl s⟩

theorem checkIndex_eq_none_iff_isWidth (plen fw : Nat) : checkIndex plen fw = none ↔ isWidth fw ∧ plen ≤ fw :=
  (checkIndex_eq_none_iff plen fw).trans (romIndex_iff plen fw)

end Checks

/-! ### What a command that writes an N register leaves -/

namespace State

/-- A command that writes Nd and retires leaves everything else alone. -/
theorem wroteN_retire_setN (s : State) (rd : NReg) (v : Subnet) : s.wroteN rd v (s.setN rd v).retire :=
  ⟨by simp, fun _ hr => getN_setN_of_ne hr, fun _ => rfl, fun _ => rfl, ⟨fun _ => rfl, rfl⟩, rfl, rfl, rfl,
    ⟨rfl, rfl, rfl, rfl, rfl⟩, rfl, rfl⟩

/-- A command that writes Nd and T and retires leaves everything else alone. -/
theorem wroteN_retire_setT_setN (s : State) (rd : NReg) (v : Subnet) (b : Bool) :
    s.wroteN rd v ((s.setN rd v).setT b).retire := s.wroteN_retire_setN rd v

end State

/-! ### Construction (R181) -/

theorem exec_nmake (rd : NReg) (rs1 : WReg) (plen fw : Nat) (s : State) : exec (.nmake rd rs1 plen fw) s =
    finish (checkIndex plen fw <|> checkFamily rs1 fw s)
      ((s.setN rd (block (s.getW rs1 &&& maskAddress plen fw) plen fw)).setT
        (s.getW rs1 &&& maskAddress plen fw == s.getW rs1)) s := rfl

/-- The network address of an address in the family makes a well-formed Subnet. -/
theorem block_and_maskAddress_wellFormed {a : WideUint} {plen fw : Nat} (hw : isWidth fw) (hp : plen ≤ fw)
    (ha : a.toNat < 2 ^ fw) : (block (a &&& maskAddress plen fw) plen fw).wellFormed = true := by
  have hfamily : (a &&& maskAddress plen fw).toNat < 2 ^ fw :=
    (inFamily_iff _ fw).mp (inFamily_and _ ((inFamily_iff a fw).mpr ha))
  have haligned : 2 ^ (fw - plen) ∣ (a &&& maskAddress plen fw).toNat := by
    rw [toNat_and_maskAddress]
    exact Nat.dvd_mul_left _ _
  exact block_wellFormed hw hp hfamily haligned

/-- Settles O21: NMAKE is one write behind `checkIndex` and `checkFamily`, whose outcomes in order are the four clauses; the
Subnet it stores is well formed by `block_and_maskAddress_wellFormed`. -/
theorem makeSubnetNormalises : Obligations.MakeSubnetNormalises := by
  unfold Obligations.MakeSubnetNormalises
  intro rd rs1 plen fw s hplen hfw
  rw [exec_nmake, ← maskAddress_eq_formula]
  refine ⟨encode_rd_rs1_plen_fw 0x30 hplen hfw rfl rfl, fun hw hp hfamily => ?made, fun hw => ?width,
    fun hw hp => ?tooLong, fun hw hp ha => ?family⟩
  case made =>
    have hindex := (checkIndex_eq_none_iff_isWidth plen fw).mpr ⟨hw, hp⟩
    have hpass : checkFamily rs1 fw s = none :=
      (checkFamily_eq_none_iff rs1 fw s).mpr fun h32 => (inFamily_iff _ 32).mpr (hfamily h32)
    have ha : (s.getW rs1).toNat < 2 ^ fw := by
      rcases hw with rfl | rfl
      · exact hfamily rfl
      · exact (s.getW rs1).isLt
    have hwrote := s.wroteN_retire_setT_setN rd (block (s.getW rs1 &&& maskAddress plen fw) plen fw)
      (s.getW rs1 &&& maskAddress plen fw == s.getW rs1)
    rw [finish_orElse_of_none hindex, hpass, finish_none]
    refine ⟨_, rfl, hwrote, ?_, beq_iff_eq, rfl, rfl⟩
    rw [hwrote.1]
    exact block_and_maskAddress_wellFormed hw hp ha
  case width =>
    rw [finish_orElse_of_ne_none fun h => hw ((checkIndex_eq_none_iff_isWidth plen fw).mp h).1]
    exact finish_checkIndex_of_not_isWidth hw _ s
  case tooLong =>
    rw [finish_orElse_of_ne_none fun h => hp.not_ge ((checkIndex_eq_none_iff_isWidth plen fw).mp h).2]
    exact finish_checkIndex_of_lt_plen hw hp _ s
  case family =>
    subst hw
    have hout : inFamily (s.getW rs1) 32 = false := Bool.eq_false_iff.mpr (mt (inFamily_iff _ 32).mp ha.not_gt)
    have hindex := (checkIndex_eq_none_iff_isWidth plen 32).mpr ⟨.inl rfl, hp⟩
    rw [finish_orElse_of_none hindex, checkFamily_some hout, finish_some, fieldAt_at_zero]
    exact ⟨_, rfl, State.fatal_takeException rfl s⟩

/-! ### Widening (R187, R189) -/

theorem exec_nwiden (rd r : NReg) (s : State) : exec (.nwiden rd r) s = finish (checkSubnet r s)
    ((if (widen (s.getN r)).2 then s.setN rd (widen (s.getN r)).1 else s).setT (widen (s.getN r)).2) s := rfl

/-- The base is aligned to the doubled block exactly when the mask one shorter leaves it as it is. -/
theorem and_maskFormula_pred_iff (x : Subnet) : x.base &&& maskFormula (x.plen.toNat - 1) x.fw.toNat = x.base ↔
    2 ^ (x.fw.toNat - (x.plen.toNat - 1)) ∣ x.base.toNat := by
  rw [← maskAddress_eq_formula, and_maskAddress_eq_self_iff]

/-- Settles O24: the three outcomes of `widen` (`widen_of_zero`, `widen_of_ne_zero`) are the three cases; NWIDEN writes N[rd]
where the widening is ok and T in each. -/
theorem widenOneStep : Obligations.WidenOneStep := by
  unfold Obligations.WidenOneStep
  intro rd r s
  rw [exec_nwiden]
  refine ⟨encode_rd_rs1 0x35 rfl rfl, fun hw => ⟨_, finish_checkSubnet_of_isWidth hw _, ?c, ?cmp, fun h0 => ?zero,
    fun h0 ha => ?aligned, fun h0 ha => ?odd⟩, fun hw => finish_checkSubnet_of_not_isWidth hw _⟩
  case c => split <;> rfl
  case cmp => split <;> rfl
  case zero =>
    rw [widen_of_zero h0]
    exact ⟨s.wroteN_retire_setT_setN rd _ true, rfl⟩
  case aligned =>
    rw [widen_of_ne_zero h0, if_pos ((and_maskFormula_pred_iff _).mp ha)]
    exact ⟨s.wroteN_retire_setT_setN rd _ true, rfl⟩
  case odd =>
    rw [widen_of_ne_zero h0, if_neg (mt (and_maskFormula_pred_iff _).mpr ha)]
    exact ⟨s.wroteNoData_retire_setT false, rfl⟩

/-! ### Containment (R192) -/

/-- A Subnet covers its own base. -/
theorem Subnet.covers_base (x : Subnet) : x.covers x.base.toNat = true :=
  (x.covers_iff _).mpr ⟨le_rfl, x.base_lt_stop⟩

section Containment
variable {o i : Subnet}

/-- An inner Subnet that is not wider is included exactly when its addresses are all covered: its base decides. -/
theorem includes_iff_covers (ho : o.wellFormed = true) (hi : i.wellFormed = true) (hf : o.fw = i.fw)
    (hp : o.plen.toNat ≤ i.plen.toNat) : includes o i = true ↔ ∀ a, i.covers a = true → o.covers a = true := by
  constructor
  · intro h a ha
    obtain ⟨_, hbase, _⟩ := (includes_iff ho).mp h
    have hstop := stop_le_of_includes ho hi h fun _ => hp
    rw [Subnet.covers_iff] at ha ⊢
    exact ⟨hbase.trans ha.1, ha.2.trans_le hstop⟩
  · intro h
    exact (includes_iff ho).mpr ⟨congrArg _ hf, (o.covers_iff _).mp (h _ i.covers_base)⟩

/-- A wider inner Subnet has a base that the outer mask leaves as it is, so only equal bases pass. -/
theorem includes_iff_base_eq (hi : i.wellFormed = true) (hf : o.fw = i.fw) (hp : i.plen.toNat < o.plen.toNat) :
    includes o i = true ↔ o.base = i.base := by
  obtain ⟨_, _, _, haligned⟩ := (Subnet.wellFormed_iff i).mp hi
  have hle : o.exponent ≤ i.exponent := by
    unfold Subnet.exponent
    rw [hf]
    omega
  have hround : i.base.toNat / 2 ^ o.exponent * 2 ^ o.exponent = i.base.toNat :=
    Nat.div_mul_cancel ((Nat.pow_dvd_pow 2 hle).trans haligned)
  rw [includes_iff_round, hround, hf, ← BitVec.toNat_inj, eq_comm (a := o.base.toNat)]
  exact and_iff_right rfl

theorem includes_of_fw_ne (hf : o.fw ≠ i.fw) : includes o i = false := by
  simp [includes, hf]

end Containment

/-- Settles O26: the three cases are `includes_iff_covers`, `includes_iff_base_eq` and `includes_of_fw_ne`. -/
theorem includesIsContainment : Obligations.IncludesIsContainment := by
  unfold Obligations.IncludesIsContainment
  intro o i ho hi
  exact ⟨includes_iff_covers ho hi, includes_iff_base_eq hi, includes_of_fw_ne⟩

/-! ### Field access (R182, R183, R190) -/

theorem exec_nbase (rd : WReg) (r : NReg) (s : State) :
    exec (.nbase rd r) s = finish (checkSubnet r s) (s.setW rd (s.getN r).base) s := rfl

theorem exec_nmask (rd : WReg) (r : NReg) (s : State) :
    exec (.nmask rd r) s = finish (checkSubnet r s) (s.setW rd (s.getN r).mask) s := rfl

theorem exec_nout (r : NReg) (s : State) :
    exec (.nout r) s = finish (checkSubnet r s) (s.emit (subnetWords (s.getN r))) s := rfl

/-- The mask of a Subnet is the entry of R150 at its own prefix length and width. -/
theorem Subnet.mask_eq_formula (x : Subnet) : x.mask = x.maskFormula := maskAddress_eq_formula _ _

/-- The words of an N record: the header with fw and plen, then the base. -/
theorem subnetWords_eq (x : Subnet) : subnetWords x = [fieldAt x.fw.toNat 8 ||| fieldAt x.plen.toNat 0,
    x.base.extractLsb' 96 32, x.base.extractLsb' 64 32, x.base.extractLsb' 32 32, x.base.extractLsb' 0 32] := by
  rw [subnetWords, subnetHeader_eq, wideWords]

/-- Settles O22: each of the three commands is one read behind the check of R180. -/
theorem subnetFieldsAreRead : Obligations.SubnetFieldsAreRead := by
  unfold Obligations.SubnetFieldsAreRead
  intro rd r s
  rw [exec_nbase, exec_nmask, exec_nout, ← subnetWords_eq, ← Subnet.mask_eq_formula]
  refine ⟨encode_rd_rs1 0x31 rfl rfl, encode_rd_rs1 0x32 rfl rfl, encode_rs1 0x36 rfl rfl,
    fun hw => ⟨⟨_, finish_checkSubnet_of_isWidth hw _, ?base⟩, ⟨_, finish_checkSubnet_of_isWidth hw _, ?mask⟩,
      _, finish_checkSubnet_of_isWidth hw _, ?record⟩,
    fun hw => ⟨finish_checkSubnet_of_not_isWidth hw _, finish_checkSubnet_of_not_isWidth hw _,
      finish_checkSubnet_of_not_isWidth hw _⟩⟩
  case base => exact ⟨s.wroteW_retire_setW rd _, s.sameFlags_retire_setW rd _⟩
  case mask => exact ⟨s.wroteW_retire_setW rd _, s.sameFlags_retire_setW rd _⟩
  case record => exact s.emitted_retire_emit _

/-! ### The predicates (R185, R186, R188, R191) -/

theorem exec_nincl (a b : NReg) (s : State) : exec (.nincl a b) s =
    finish (checkSubnet a s <|> checkSubnet b s) (s.setT (includes (s.getN a) (s.getN b))) s := rfl

theorem exec_nlt (a b : NReg) (s : State) : exec (.nlt a b) s =
    finish (checkSubnet a s <|> checkSubnet b s) (s.setT (lessThan (s.getN a) (s.getN b))) s := rfl

section TwoSubnets
variable {a b : NReg} {s : State}

theorem finish_checkSubnets_of_isWidth (ha : isWidth (s.getN a).fw.toNat) (hb : isWidth (s.getN b).fw.toNat) (v : State) :
    finish (checkSubnet a s <|> checkSubnet b s) v s = .next v.retire := by
  rw [finish_orElse_of_none ((checkSubnet_eq_none_iff_isWidth a s).mpr ha), finish_checkSubnet_of_isWidth hb]

/-- An empty first register is reported, whatever the second holds. -/
theorem finish_checkSubnets_of_not_isWidth_left (ha : ¬isWidth (s.getN a).fw.toNat) (v : State) :
    ∃ t, finish (checkSubnet a s <|> checkSubnet b s) v s = .next t ∧ s.fatal 2 (fieldAt (s.getN a).fw.toNat 0) t := by
  rw [finish_orElse_of_ne_none (mt (checkSubnet_eq_none_iff_isWidth a s).mp ha)]
  exact finish_checkSubnet_of_not_isWidth ha v

theorem finish_checkSubnets_of_not_isWidth_right (ha : isWidth (s.getN a).fw.toNat) (hb : ¬isWidth (s.getN b).fw.toNat)
    (v : State) :
    ∃ t, finish (checkSubnet a s <|> checkSubnet b s) v s = .next t ∧ s.fatal 2 (fieldAt (s.getN b).fw.toNat 0) t := by
  rw [finish_orElse_of_none ((checkSubnet_eq_none_iff_isWidth a s).mpr ha)]
  exact finish_checkSubnet_of_not_isWidth hb v

end TwoSubnets

theorem includes_iff_formula (o i : Subnet) : includes o i = true ↔ o.fw = i.fw ∧ i.base &&& o.maskFormula = o.base := by
  rw [includes, Bool.and_eq_true, beq_iff_eq, beq_iff_eq, Subnet.mask_eq_formula]

/-- The canonical order by its fields: numbers where one is less, the fields themselves where they are equal. -/
theorem lessThan_iff_fields (x y : Subnet) : lessThan x y = true ↔ x.fw.toNat < y.fw.toNat ∨
    (x.fw = y.fw ∧ x.base.toNat < y.base.toNat) ∨ (x.fw = y.fw ∧ x.base = y.base ∧ x.plen.toNat < y.plen.toNat) := by
  simp only [lessThan_iff, BitVec.toNat_inj]

/-- Settles O23: both commands write T behind the checks of R180 on rs1 and then rs2, NINCL by `includes_iff_formula` and NLT
by `lessThan_iff_fields`. -/
theorem subnetPredicatesSetT : Obligations.SubnetPredicatesSetT := by
  unfold Obligations.SubnetPredicatesSetT
  intro a b s
  rw [exec_nincl, exec_nlt]
  refine ⟨encode_rs1_rs2 0x33 rfl rfl, encode_rs1_rs2 0x34 rfl rfl,
    fun ha hb => ⟨⟨_, finish_checkSubnets_of_isWidth ha hb _, ?incl⟩, _, finish_checkSubnets_of_isWidth ha hb _, ?lt⟩,
    fun ha => ⟨finish_checkSubnets_of_not_isWidth_left ha _, finish_checkSubnets_of_not_isWidth_left ha _⟩,
    fun ha hb => ⟨finish_checkSubnets_of_not_isWidth_right ha hb _, finish_checkSubnets_of_not_isWidth_right ha hb _⟩⟩
  case incl => exact ⟨s.wroteNoData_retire_setT _, rfl, rfl, includes_iff_formula _ _⟩
  case lt => exact ⟨s.wroteNoData_retire_setT _, rfl, rfl, lessThan_iff_fields _ _⟩

end Sys2Proof.Machine
end

section
/-! The statements of 44_merge on the list commands: clear and push (R201, R202), one entry read (R203; 60_exceptions R277),
and the whole list emitted (R204). -/

namespace Sys2Proof.Machine

/-! ### Words of the commands without operands, and of LGET (30_encoding R91, R94) -/

theorem encode_no_operand {i : Instr} (op : BitVec 8) (hp : payload i = []) (hh : headWord i = headR op 0 0 0) :
    encode i = [op ++ (0 : BitVec 24)] := by
  simpa [fieldAt_zero] using encode_rs1 op hp hh

theorem encode_lget (rd : NReg) {idx : Nat} (hidx : idx < 65536) :
    encode (.lget rd idx) = [0x42000000 ||| fieldAt rd.val 20 ||| fieldAt idx 0] := by
  rw [encode_of_no_payload rfl, headWord, headI_eq 0x42 rd hidx]
  rfl

/-! ### What a command that writes LIST leaves (R201, R202) -/

namespace State

/-- A command that writes LIST and retires leaves the registers, the flags and the result stream alone. -/
theorem wroteListOnly_retire_setList (s : State) (l : ListMem) : s.wroteListOnly (s.setList l).retire :=
  ⟨fun _ => rfl, fun _ => rfl, fun _ => rfl, ⟨rfl, rfl, rfl⟩, rfl, rfl, ⟨rfl, rfl, rfl, rfl, rfl⟩, rfl, rfl⟩

/-- PASSES is no part of that frame. -/
theorem wroteListOnly_retire_setPasses_setList (s : State) (l : ListMem) (p : Word) :
    s.wroteListOnly ((s.setList l).setPasses p).retire := s.wroteListOnly_retire_setList l

/-- Appended entries stand after the old ones, which read as before. -/
theorem appended_retire_appendEntries (s : State) (l : ListMem) : s.appended l (s.appendEntries l).retire :=
  ⟨fun _ hk => entry_appendEntries_old l hk, entry_appendEntries_new s l, llen_appendEntries s l⟩

end State

/-! ### Clear and push (R201, R202) -/

theorem exec_lclr (s : State) : exec .lclr s = .next (s.setList []).retire := rfl

theorem exec_lpush (r : NReg) (s : State) : exec (.lpush r) s =
    finish (checkSubnet r s <|> checkCapacity 1 s) (s.appendEntries [s.getN r]) s := rfl

theorem checkCapacity_some {k : Nat} {s : State} (h : Config.listDepth < s.llen + k) :
    checkCapacity k s = some { cause := .capacity, info := s.llenWord } := by
  simp [checkCapacity, Nat.not_le.mpr h]

/-- Settles O28: LCLR writes the empty list; LPUSH is one append behind the check of R180 and then the capacity check, whose
outcomes in order are the three clauses. -/
theorem clearAndPush : Obligations.ClearAndPush := by
  unfold Obligations.ClearAndPush
  have hclear := fun s : State => s.wroteListOnly_retire_setList []
  refine ⟨fun s => ⟨encode_no_operand 0x40 rfl rfl, _, exec_lclr s, hclear s, rfl, fun _ => rfl, rfl⟩, fun r s => ?push⟩
  rw [exec_lpush]
  refine ⟨encode_rs1 0x41 rfl rfl, fun hw hroom => ?appended, fun hw => ?empty, fun hw hfull => ?full⟩
  case appended =>
    rw [finish_orElse_of_none ((checkSubnet_eq_none_iff_isWidth r s).mpr hw),
      (checkCapacity_eq_none_iff 1 s).mpr hroom, finish_none]
    exact ⟨_, rfl, s.wroteListOnly_retire_setList _, s.appended_retire_appendEntries _, rfl⟩
  case empty =>
    rw [finish_orElse_of_ne_none (mt (checkSubnet_eq_none_iff_isWidth r s).mp hw)]
    exact finish_checkSubnet_of_not_isWidth hw _
  case full =>
    rw [finish_orElse_of_none ((checkSubnet_eq_none_iff_isWidth r s).mpr hw), checkCapacity_some (by omega), finish_some]
    exact ⟨_, rfl, State.fatal_takeException rfl s⟩

/-! ### One entry (R203; 60_exceptions R277) -/

theorem exec_lget (rd : NReg) (idx : Nat) (s : State) : exec (.lget rd idx) s =
    finish (checkEntry idx s) (s.setN rd ((s.entry idx).getD Subnet.empty)) s := rfl

theorem checkEntry_some {idx : Nat} {s : State} (h : s.llen ≤ idx) :
    checkEntry idx s = some { cause := .index, info := BitVec.ofNat 32 idx } := by
  simp [checkEntry, Nat.not_lt.mpr h]

/-- A command that writes Nd and retires changes no flag. -/
theorem State.sameFlags_retire_setN (s : State) (rd : NReg) (v : Subnet) : s.sameFlags (s.setN rd v).retire :=
  ⟨rfl, rfl, rfl⟩

/-- Settles O29: LGET is one write behind `checkEntry`, which passes exactly below LLEN, where there is an entry to copy. -/
theorem getEntry : Obligations.GetEntry := by
  unfold Obligations.GetEntry
  intro rd idx s hidx
  rw [exec_lget]
  refine ⟨encode_lget rd hidx, fun hlt => ?entry, fun hle => ?index⟩
  case entry =>
    obtain ⟨x, hx, _⟩ := State.entry_eq_some_of_lt hlt
    rw [(checkEntry_eq_none_iff idx s).mpr hlt, finish_none, hx]
    exact ⟨_, x, rfl, rfl, s.wroteN_retire_setN rd x, s.sameFlags_retire_setN rd x⟩
  case index =>
    rw [checkEntry_some hle, finish_some, fieldAt_at_zero]
    exact ⟨_, rfl, State.fatal_takeException rfl s⟩

/-! ### The whole list (R204) -/

theorem exec_lout (s : State) : exec .lout s = .next (s.emit s.listWords).retire := rfl

theorem length_listWords (s : State) : s.listWords.length = 1 + 5 * s.llen := by
  have hfive : s.list.map (fun x => (subnetWords x).length) = List.replicate s.list.length 5 :=
    List.map_eq_replicate_iff.mpr fun x _ => length_subnetWords x
  rw [State.listWords, List.length_cons, List.length_flatMap, hfive, List.sum_replicate, State.llen, smul_eq_mul]
  omega

/-- The record of entry k begins at word 5 * k: every record before it is five words. -/
theorem getElem?_flatMap_subnetWords {l : ListMem} {k j : Nat} {x : Subnet} (hx : l[k]? = some x) (hj : j < 5) :
    (l.flatMap subnetWords)[5 * k + j]? = (subnetWords x)[j]? := by
  induction l generalizing k with
  | nil => simp at hx
  | cons y ys ih =>
    rw [List.flatMap_cons]
    cases k with
    | zero =>
      obtain rfl : y = x := by simpa using hx
      rw [List.getElem?_append_left (by rw [length_subnetWords]; omega)]
      congr 1
      omega
    | succ k =>
      rw [List.getElem?_append_right (by rw [length_subnetWords]; omega), ← ih (by simpa using hx), length_subnetWords]
      congr 1
      omega

/-- Word j of entry k's record in the LIST record, after the word LLEN. -/
theorem getElem?_listWords {s : State} {k j : Nat} {x : Subnet} (hx : s.entry k = some x) (hj : j < 5) :
    s.listWords[5 * k + (j + 1)]? = (subnetWords x)[j]? := by
  rw [State.listWords, ← Nat.add_assoc, List.getElem?_cons_succ]
  exact getElem?_flatMap_subnetWords hx hj

/-- Settles O30: LOUT emits the LIST record, whose words are found by `getElem?_listWords` in the record of each entry. -/
theorem listIsEmitted : Obligations.ListIsEmitted := by
  unfold Obligations.ListIsEmitted
  intro s
  refine ⟨encode_no_operand 0x43 rfl rfl, _, s.listWords, exec_lout s, s.emitted_retire_emit _, length_listWords s, rfl,
    fun k x hx => ?_⟩
  have word := fun j => getElem?_listWords (j := j) hx
  rw [subnetWords_eq] at word
  exact ⟨word 0 (by omega), word 1 (by omega), word 2 (by omega), word 3 (by omega), word 4 (by omega)⟩

end Sys2Proof.Machine
end

section
/-! The statements of 44_merge on the engine's steps as functions of the list: the sort (R210), the fuse condition (R213),
and the fuse passes with their fixpoint loop (R214, R215). -/

namespace Sys2Proof.Machine

/-! ### Sort (R210) -/

/-- Settles O32: the sort permutes, ascends, and two ascending permutations of one list are equal. -/
theorem sortIsTheCanonicalPermutation : Obligations.SortIsTheCanonicalPermutation := by
  unfold Obligations.SortIsTheCanonicalPermutation
  refine fun l => ⟨sortList_perm l, fun i j x y hij hx hy => ?ascending, fun l' hperm hsorted => ?unique⟩
  case ascending =>
    obtain ⟨hi, rfl⟩ := List.getElem?_eq_some_iff.mp hx
    obtain ⟨hj, rfl⟩ := List.getElem?_eq_some_iff.mp hy
    exact List.pairwise_iff_getElem.mp (sortList_pairwise l) i j hi hj hij
  case unique => exact eq_of_perm_of_pairwise (hperm.trans (sortList_perm l).symm) hsorted (sortList_pairwise l)

/-! ### The fuse condition (R213) -/

/-- `r` is the lower and `x` the upper half of one block: of one family and one prefix length of at least 1, with `r` aligned
to the doubled block and `x` where `r` ends (R213). -/
def Halves (r x : Subnet) : Prop :=
  r.fw = x.fw ∧ r.plen = x.plen ∧ r.plen ≠ 0 ∧ 2 ^ (r.exponent + 1) ∣ r.base.toNat ∧ x.base.toNat = r.stop

section Fuse
variable {r x : Subnet}

theorem plen_eq_of_fuses (hf : fuses r x = true) : r.plen = x.plen := by
  unfold fuses at hf
  simp only [Bool.and_eq_true, beq_iff_eq] at hf
  obtain ⟨⟨_, hplen⟩, _⟩ := hf
  exact hplen

theorem widen_ok_of_fuses (hf : fuses r x = true) : (widen r).2 = true := by
  unfold fuses at hf
  simp only [Bool.and_eq_true] at hf
  obtain ⟨⟨hok, _⟩, _⟩ := hf
  exact hok

/-- Below a prefix length of at least 1 the exponent of the doubled block, by the prefix length one shorter. -/
theorem Subnet.exponent_succ (hr : r.wellFormed = true) (h0 : r.plen ≠ 0) :
    r.fw.toNat - (r.plen.toNat - 1) = r.exponent + 1 := by
  obtain ⟨_, hplen, _, _⟩ := (Subnet.wellFormed_iff r).mp hr
  obtain ⟨_, hpos⟩ := toNat_plen_pred h0
  unfold Subnet.exponent
  omega

/-- Entries that fuse, the second wholly after the first, are the halves of the widened block. -/
theorem halves_of_fuses (hr : r.wellFormed = true) (hx : x.wellFormed = true) (hb : Before r x) (hf : fuses r x = true) :
    Halves r x := by
  obtain ⟨h0, hwide, hwfw, hfw, hwbase, hbase, _, _⟩ := fuses_spec hr hx hb hf
  obtain ⟨_, _, _, hwexp⟩ := widen_ok hr h0 (widen_ok_of_fuses hf)
  obtain ⟨_, _, _, haligned⟩ := (Subnet.wellFormed_iff _).mp hwide
  rw [hwexp, hwbase] at haligned
  exact ⟨hfw.symm, plen_eq_of_fuses hf, h0, haligned, hbase⟩

/-- The halves of one block fuse: the lower one widens to the block, which holds the base of the upper one. -/
theorem fuses_of_halves (hr : r.wellFormed = true) (h : Halves r x) : fuses r x = true := by
  obtain ⟨hfw, hplen, h0, haligned, hbase⟩ := h
  have hok : (widen r).2 = true := by rw [widen_of_ne_zero h0, r.exponent_succ hr h0, if_pos haligned]
  obtain ⟨hwide, hwfw, hwbase, hwexp⟩ := widen_ok hr h0 hok
  have hincl : includes (widen r).1 x = true := by
    have hpos := Nat.two_pow_pos r.exponent
    rw [includes_iff hwide, hwfw, hwbase, hbase, Subnet.stop, Subnet.stop, hwbase, hwexp, hfw, pow_succ]
    exact ⟨rfl, by omega, by omega⟩
  simp [fuses, hok, hplen, hincl]

end Fuse

/-- Settles O27: neighbours of a sorted and disjoint list stand one wholly before the other, and then fusing means being the
halves of one block (`halves_of_fuses`, `fuses_of_halves`). -/
theorem fuseConditionMeansLowerAndUpperHalf : Obligations.FuseConditionMeansLowerAndUpperHalf := by
  unfold Obligations.FuseConditionMeansLowerAndUpperHalf
  intro r x hr hx hlt hincl
  have hbefore : Before r x := before_of_not_includes hr (lessThan_asymm hlt) (Bool.eq_false_iff.mp hincl)
  exact ⟨halves_of_fuses hr hx hbefore, fuses_of_halves hr⟩

/-! ### The fixpoint loop (R214, R215) -/

/-- The two ways on after a pass: it kept the length, and the loop ends; or the loop goes on with what the pass left. -/
theorem fuseLoop_succ_cases {fuel k : Nat} {l : ListMem} {res : ListMem × Nat} (h : fuseLoop (fuel + 1) l k = some res) :
    ((fusePass l).length = l.length ∧ res = (fusePass l, k + 1)) ∨
    ((fusePass l).length ≠ l.length ∧ fuseLoop fuel (fusePass l) (k + 1) = some res) := by
  unfold fuseLoop at h
  dsimp only at h
  split at h
  · exact .inl ⟨‹_›, (Option.some.inj h).symm⟩
  · exact .inr ⟨‹_›, h⟩

/-- The list at which the loop ends is left alone by a further pass. -/
theorem fusePass_of_fuseLoop {fuel k p : Nat} {l m : ListMem} (h : fuseLoop fuel l k = some (m, p)) : fusePass m = m := by
  induction fuel generalizing l k with
  | zero => simp [fuseLoop] at h
  | succ fuel ih =>
    rcases fuseLoop_succ_cases h with ⟨hlen, hres⟩ | ⟨_, hmore⟩
    · obtain ⟨hsame, _⟩ := fusePass_eq_of_length hlen
      obtain ⟨rfl, _⟩ := Prod.mk.inj hres
      rw [hsame, hsame]
    · exact ih hmore

/-- A larger bound on the passes gives the same. -/
theorem fuseLoop_mono {fuel fuel' k : Nat} {l : ListMem} {res : ListMem × Nat} (hle : fuel ≤ fuel')
    (h : fuseLoop fuel l k = some res) : fuseLoop fuel' l k = some res := by
  induction fuel generalizing fuel' l k with
  | zero => simp [fuseLoop] at h
  | succ fuel ih =>
    obtain ⟨more, rfl⟩ := Nat.exists_eq_add_of_le' hle
    rw [← Nat.add_assoc, fuseLoop]
    rcases fuseLoop_succ_cases h with ⟨hlen, hres⟩ | ⟨hlen, hmore⟩
    · rw [if_pos hlen, hres]
    · rw [if_neg hlen]
      exact ih (by omega) hmore

/-- Settles O39: a pass that does not shrink the list keeps its length and then every entry; the loop ends within
`passBound` passes (`fuseLoop_isSome`), at a fixpoint, and a larger bound changes nothing (`fuseLoop_mono`). -/
theorem fusePassesShrinkUntilTheFixpoint : Obligations.FusePassesShrinkUntilTheFixpoint := by
  unfold Obligations.FusePassesShrinkUntilTheFixpoint
  intro l
  have hshrink : (fusePass l).length < l.length ∨ fusePass l = l :=
    (fusePass_length l).lt_or_eq.imp_right fun hlen => (fusePass_eq_of_length hlen).1
  obtain ⟨m, p, hloop, hpos, hle, hlen⟩ := fuseLoop_isSome (passBound l.length) l 0 le_rfl
  exact ⟨hshrink, m, p, fun _ hbound => fuseLoop_mono hbound hloop, by omega, by omega, hlen, fusePass_of_fuseLoop hloop⟩

end Sys2Proof.Machine
end

section
/-! The statements of 44_merge on the command MERGE: it completes (R205, R214, R215), and what it guarantees of its result
(R216). A canonical list is determined by the addresses it covers, so (f), (g) and (e) follow from the two facts that MERGE
leaves a canonical list (`canon_of_exec_merge`) and that there is one for each covered set (`canon_unique`). -/

namespace Sys2Proof.Machine

/-! ### MERGE completes (R205, R214, R215) -/

/-- What MERGE answers, by what the function of MERGE gives. -/
theorem exec_merge {s : State} {m : ListMem} {p : Nat} (h : mergeList s.list = some (m, p)) :
    exec .merge s = .next ((s.setList m).setPasses (BitVec.ofNat 32 p)).retire := by
  obtain ⟨m', p', h', he⟩ := execMerge_eq s
  obtain ⟨rfl, rfl⟩ := Prod.mk.inj (Option.some.inj (h'.symm.trans h))
  exact he

/-- A list of at most one entry is merged already. -/
theorem mergeList_of_length_le_one {l : ListMem} (h : l.length ≤ 1) : mergeList l = some (l, 1) := by
  match l, h with
  | [], _ => rfl
  | [_], _ => rfl

/-- The passes of a list that LIST can hold fit the word PASSES. -/
theorem toNat_ofNat_passes {l m : ListMem} {p : Nat} (hl : l.length ≤ Config.listDepth) (h : mergeList l = some (m, p)) :
    (BitVec.ofNat 32 p).toNat = p := by
  have hp := (passes_le_of_merge hl h).2
  have hdepth := Config.listDepth_le
  rw [BitVec.toNat_ofNat]
  omega

/-- Settles O31: MERGE leaves what `mergeList` gives, whose bounds are `mergeList_isSome`. -/
theorem mergeCompletes : Obligations.MergeCompletes := by
  unfold Obligations.MergeCompletes
  intro s hdepth
  obtain ⟨m, p, hm, hpos, hle, hlen⟩ := mergeList_isSome s.list
  have hp := toNat_ofNat_passes hdepth hm
  have hword : some (m, p) = some (m, (BitVec.ofNat 32 p).toNat) := by rw [hp]
  refine ⟨encode_no_operand 0x48 rfl rfl, _, exec_merge hm, s.wroteListOnly_retire_setPasses_setList m _, hm.trans hword,
    hlen, hpos.trans_eq hp.symm, hp.trans_le hle, fun hshort => ?_⟩
  obtain ⟨rfl, rfl⟩ := Prod.mk.inj (Option.some.inj (hm.symm.trans (mergeList_of_length_le_one hshort)))
  exact ⟨fun _ => rfl, rfl⟩

/-! ### Sorted, disjoint, without siblings (R216 (a), (b), (d)) -/

/-- Blocks one wholly before the other share no address of one family. -/
theorem Before.disjoint {x y : Subnet} (h : Before x y) (hf : x.fw = y.fw) (a : Nat) :
    ¬(x.covers a = true ∧ y.covers a = true) := by
  rintro ⟨hx, hy⟩
  rw [Subnet.covers_iff] at hx hy
  have hfw : x.fw.toNat = y.fw.toNat := congrArg _ hf
  unfold Before at h
  omega

/-- Of two multiples of 2^k that differ in exactly bit k, the smaller is a multiple of 2^(k+1) and 2^k below the other. -/
theorem eq_add_two_pow_of_xor_eq {k a b : Nat} (ha : 2 ^ k ∣ a) (hx : a ^^^ b = 2 ^ k) (hlt : a < b) :
    2 ^ (k + 1) ∣ a ∧ b = a + 2 ^ k := by
  have hxor : b = a ^^^ 2 ^ k := by rw [← hx, ← Nat.xor_assoc, Nat.xor_self, Nat.zero_xor]
  obtain ⟨q, rfl⟩ := ha
  have hb : b = (q ^^^ 1) * 2 ^ k :=
    calc b = 2 ^ k * q ^^^ 2 ^ k := hxor
      _ = (q ^^^ 1) <<< k := by rw [Nat.shiftLeft_xor_distrib, Nat.shiftLeft_eq, Nat.one_shiftLeft, mul_comm]
      _ = (q ^^^ 1) * 2 ^ k := Nat.shiftLeft_eq _ _
  rcases Nat.even_or_odd q with hq | hq
  · rw [hb, Nat.xor_one_of_even hq, Nat.add_mul, one_mul, mul_comm q, pow_succ]
    exact ⟨Nat.mul_dvd_mul_left _ hq.two_dvd, rfl⟩
  · rw [hb, Nat.xor_one_of_odd hq, mul_comm (2 ^ k)] at hlt
    exact absurd hlt (Nat.mul_le_mul_right _ (Nat.sub_le q 1)).not_gt

/-- Siblings, the first wholly before the second, are the halves of one block. -/
theorem halves_of_siblings {x y : Subnet} (hx : x.wellFormed = true) (hb : Before x y) (h : siblings x y) : Halves x y := by
  obtain ⟨hfw, hplen, h0, hxor⟩ := h
  obtain ⟨hwidth, hple, _, haligned⟩ := (Subnet.wellFormed_iff x).mp hx
  obtain ⟨_, hpos⟩ := toNat_plen_pred h0
  have hk : x.exponent < 128 := by unfold Subnet.exponent; omega
  have hxorNat : x.base.toNat ^^^ y.base.toNat = 2 ^ x.exponent := by
    have hpow : 2 ^ x.exponent < 2 ^ 128 := Nat.pow_lt_pow_right (by omega) hk
    rw [← BitVec.toNat_xor, hxor, BitVec.toNat_shiftLeft, Nat.shiftLeft_eq]
    show 1 * 2 ^ x.exponent % 2 ^ 128 = 2 ^ x.exponent
    rw [one_mul, Nat.mod_eq_of_lt hpow]
  have hlt : x.base.toNat < y.base.toNat := by
    have hstop := x.base_lt_stop
    have hfwNat : x.fw.toNat = y.fw.toNat := congrArg _ hfw
    unfold Before at hb
    omega
  obtain ⟨hdouble, hbase⟩ := eq_add_two_pow_of_xor_eq haligned hxorNat hlt
  exact ⟨hfw, hplen, h0, hdouble, hbase⟩

/-- No canonical list holds siblings. -/
theorem Canon.pairwise_not_siblings {m : ListMem} (hc : Canon m) : m.Pairwise fun x y => ¬siblings x y := by
  refine (pairwise_before_of_isChain hc.chain).imp_of_mem fun {x y} hx hy hb hsib => ?_
  obtain ⟨hfw, hplen, h0, hdouble, hbase⟩ := halves_of_siblings (hc.wf x hx) hb hsib
  exact hc.no_halves hx hy hfw hplen h0 hdouble hbase

/-- Settles O33: MERGE leaves a canonical list, whose entries come each wholly before the next. -/
theorem mergeResultIsSortedDisjointMinimal : Obligations.MergeResultIsSortedDisjointMinimal := by
  unfold Obligations.MergeResultIsSortedDisjointMinimal
  intro s t hw hexec
  obtain ⟨hcanon, _⟩ := canon_of_exec_merge hw hexec
  have hbefore := pairwise_before_of_isChain hcanon.chain
  exact ⟨hbefore.imp Before.lessThan, hcanon.wf, hbefore.imp Before.disjoint, hcanon.pairwise_not_siblings⟩

/-! ### The covered addresses decide (R216 (c), (f)) -/

/-- Settles O34. -/
theorem mergePreservesCoverage : Obligations.MergePreservesCoverage := by
  unfold Obligations.MergePreservesCoverage
  intro s t hw hexec w a
  obtain ⟨_, hcov⟩ := canon_of_exec_merge hw hexec
  rw [coveredBy_iff_covered, coveredBy_iff_covered, hcov]

/-- Settles O36: both results are canonical and cover the same addresses, so they are one list. -/
theorem mergeDependsOnCoverageOnly : Obligations.MergeDependsOnCoverageOnly := by
  unfold Obligations.MergeDependsOnCoverageOnly
  intro s s' t t' hw hw' hexec hexec' hsame k
  obtain ⟨hcanon, hcov⟩ := canon_of_exec_merge hw hexec
  obtain ⟨hcanon', hcov'⟩ := canon_of_exec_merge hw' hexec'
  have hlist : t.list = t'.list := canon_unique hcanon hcanon' fun w a => by
    rw [hcov, hcov', ← coveredBy_iff_covered, ← coveredBy_iff_covered, hsame]
  rw [State.entry, State.entry, hlist]

/-! ### Families never interact (R216 (g)) -/

theorem covered_append (l l' : ListMem) (w a : Nat) : Covered (l ++ l') w a ↔ Covered l w a ∨ Covered l' w a := by
  simp only [Covered, List.mem_append, or_and_right, exists_or]

/-- The addresses the entries of one family cover. -/
theorem covered_filter_fw (l : ListMem) (f : BitVec 8) (w a : Nat) :
    Covered (l.filter fun x => x.fw == f) w a ↔ w = f.toNat ∧ Covered l w a := by
  constructor
  · rintro ⟨x, hx, rfl, ha⟩
    obtain ⟨hmem, hfw⟩ := List.mem_filter.mp hx
    exact ⟨congrArg _ (beq_iff_eq.mp hfw), x, hmem, rfl, ha⟩
  · rintro ⟨hwf, x, hmem, hxw, ha⟩
    have hfw : x.fw = f := BitVec.eq_of_toNat_eq (hxw.trans hwf)
    exact ⟨x, List.mem_filter.mpr ⟨hmem, beq_iff_eq.mpr hfw⟩, hxw, ha⟩

/-- Well-formed entries cover addresses of the two families only. -/
theorem isWidth_of_covered {l : ListMem} (hw : AllWF l) {w a : Nat} (h : Covered l w a) : isWidth w := by
  obtain ⟨x, hx, rfl, _⟩ := h
  obtain ⟨hwidth, _⟩ := (Subnet.wellFormed_iff x).mp (hw x hx)
  exact hwidth

/-- What MERGE makes of the entries of one family: a canonical list of that family, covering the family's addresses. -/
theorem mergeList_filter_fw {l : ListMem} (hw : AllWF l) (f : BitVec 8) :
    ∃ m p, mergeList (l.filter fun x => x.fw == f) = some (m, p) ∧ Canon m ∧ (∀ x ∈ m, x.fw = f) ∧
      ∀ w a, Covered m w a ↔ w = f.toNat ∧ Covered l w a := by
  obtain ⟨m, p, hm, _⟩ := mergeList_isSome (l.filter fun x => x.fw == f)
  obtain ⟨hcanon, hcov⟩ := canon_of_mergeList (fun x hx => hw x (List.mem_of_mem_filter hx)) hm
  have hcovf : ∀ w a, Covered m w a ↔ w = f.toNat ∧ Covered l w a := fun w a =>
    (hcov w a).trans (covered_filter_fw l f w a)
  refine ⟨m, p, hm, hcanon, fun x hx => ?_, hcovf⟩
  obtain ⟨hfw, _⟩ := (hcovf x.fw.toNat x.base.toNat).mp ⟨x, hx, rfl, le_rfl, x.base_lt_stop⟩
  exact BitVec.eq_of_toNat_eq hfw

/-- Entries of different families never fuse: the widened block keeps its family. -/
theorem fuses_of_fw_ne {r x : Subnet} (hr : r.wellFormed = true) (hb : Before r x) (hx : x.wellFormed = true)
    (hf : r.fw ≠ x.fw) : fuses r x = false :=
  Bool.eq_false_iff.mpr fun h => hf (halves_of_fuses hr hx hb h).1

/-- A canonical list of one family, then one of a wider family, is canonical. -/
theorem Canon.append {m m' : ListMem} {f f' : BitVec 8} (hc : Canon m) (hc' : Canon m') (hm : ∀ x ∈ m, x.fw = f)
    (hm' : ∀ x ∈ m', x.fw = f') (hlt : f.toNat < f'.toNat) : Canon (m ++ m') := by
  have hbefore : ∀ x ∈ m, ∀ y ∈ m', Before x y := fun x hx y hy => by
    rw [Before, hm x hx, hm' y hy]
    exact .inl hlt
  have hapart : ∀ x ∈ m, ∀ y ∈ m', fuses x y = false := fun x hx y hy => by
    refine fuses_of_fw_ne (hc.wf x hx) (hbefore x hx y hy) (hc'.wf y hy) fun heq => ?_
    rw [hm x hx, hm' y hy] at heq
    exact hlt.ne (congrArg _ heq)
  exact {
    wf := fun x hx => (List.mem_append.mp hx).elim (hc.wf x) (hc'.wf x)
    chain := hc.chain.append hc'.chain fun x hx y hy =>
      hbefore x (List.mem_of_mem_getLast? hx) y (List.mem_of_mem_head? hy)
    nofuse := hc.nofuse.append hc'.nofuse fun x hx y hy =>
      hapart x (List.mem_of_mem_getLast? hx) y (List.mem_of_mem_head? hy) }

/-- Settles O37: the two families' merged lists, one after the other, are canonical and cover what the list covers, so they
are its merged list. -/
theorem mergeKeepsFamiliesApart : Obligations.MergeKeepsFamiliesApart := by
  unfold Obligations.MergeKeepsFamiliesApart
  intro s t hw hexec
  obtain ⟨hcanon, hcov⟩ := canon_of_exec_merge hw hexec
  obtain ⟨m4, p4, hmerge4, hcanon4, hfw4, hcov4⟩ := mergeList_filter_fw hw 32
  obtain ⟨m6, p6, hmerge6, hcanon6, hfw6, hcov6⟩ := mergeList_filter_fw hw 128
  refine ⟨m4, p4, m6, p6, hmerge4, hmerge6, ?_⟩
  refine canon_unique hcanon (hcanon4.append hcanon6 hfw4 hfw6 (by decide)) fun w a => ?_
  rw [hcov, covered_append, hcov4, hcov6, ← or_and_right]
  exact (and_iff_right_of_imp fun h => isWidth_of_covered hw h).symm

/-! ### Idempotence (R216 (e); 45_decompose R254 (c)) -/

/-- MERGE leaves a canonical list as it is, in one pass. -/
theorem exec_merge_of_canon {t : State} (hc : Canon t.list) :
    ∃ u, exec .merge t = .next u ∧ (∀ k, u.entry k = t.entry k) ∧ u.passes = 1 :=
  ⟨_, exec_merge (mergeList_of_merged hc.wf hc.chain hc.nofuse), fun _ => rfl, rfl⟩

theorem canon_nil : Canon [] := ⟨by simp [AllWF], .nil, .nil⟩

/-- On an empty list DECOMP leaves a canonical one: none of its blocks where it raises an exception, else all of them. -/
theorem canon_of_exec_decomp {rs1 rs2 : WReg} {fw : Nat} {s t : State} (hempty : s.list = [])
    (hexec : exec (.decomp rs1 rs2 fw) s = .next t) : Canon t.list := by
  have hraised : ∀ e, Canon (s.takeException e).list := fun e => by
    rw [State.takeException_list, hempty]
    exact canon_nil
  rcases execDecomp_eq rs1 rs2 fw s with ⟨x, _, he⟩ | ⟨_, l, _, hwf, htiles, hnofuse, he⟩
  · obtain rfl := Host.Outcome.next.inj (he.symm.trans hexec)
    exact hraised x
  · rcases finish_cases (he.symm.trans hexec) with ⟨x, _, rfl⟩ | ⟨_, rfl⟩
    · exact hraised x
    · rw [State.retire_list, State.appendEntries_list, hempty, List.nil_append]
      exact canon_of_tiles hwf htiles hnofuse

/-- Settles O38: the result of MERGE and the blocks of DECOMP are canonical lists, which MERGE leaves as they are. -/
theorem mergeIsIdempotent : Obligations.MergeIsIdempotent := by
  unfold Obligations.MergeIsIdempotent
  refine ⟨fun s t hw hexec => ?merged, fun rs1 rs2 fw s t hempty hexec => ?decomposed⟩
  case merged =>
    obtain ⟨hcanon, _⟩ := canon_of_exec_merge hw hexec
    exact exec_merge_of_canon hcanon
  case decomposed => exact exec_merge_of_canon (canon_of_exec_decomp (List.eq_nil_of_length_eq_zero hempty) hexec)

end Sys2Proof.Machine
end

section
/-! The statement of 44_merge on the merge engine as a pointer machine (R217): its rows compute what the function of MERGE
gives (R205). A scan is described by the entries it has retained, which stand up to WP, and by those it has still to read,
which stand from RP on (`Scanning`); each row moves one entry over, as `dedupScan` and `fuseScan` do. -/

namespace Sys2Proof.Machine

namespace MergeEngine

variable {e f : MergeEngine} {ph : Phase} {n p : Nat} {l kept rest done : ListMem} {r x : Subnet}

/-! ### The rows of R217 -/

theorem tick_sort (h : e.phase = .sort) : e.tick = e.tickSort := by simp [tick, h]
theorem tick_dedup (h : e.phase = .dedup) : e.tick = e.tickDedup := by simp [tick, h]
theorem tick_fuse (h : e.phase = .fuse) : e.tick = e.tickFuse := by simp [tick, h]

theorem tickDedup_drop (hr : e.rp < e.llen) (hi : includes (e.entry e.wp) (e.entry e.rp) = true) :
    e.tickDedup = { e with rp := e.rp + 1 } := by simp [tickDedup, hr, hi]
theorem tickDedup_retain (hr : e.rp < e.llen) (hi : includes (e.entry e.wp) (e.entry e.rp) = false) :
    e.tickDedup = { e with mem := e.mem.set (e.wp + 1) (e.entry e.rp), wp := e.wp + 1, rp := e.rp + 1 } := by
  simp [tickDedup, hr, hi]
theorem tickDedup_end (hr : e.llen ≤ e.rp) :
    e.tickDedup = { e with llen := if 1 ≤ e.llen then e.wp + 1 else e.llen }.enterFuse := by
  simp [tickDedup, Nat.not_lt.mpr hr]

theorem tickFuse_fuse (hr : e.rp < e.n0) (hf : fuses (e.entry e.wp) (e.entry e.rp) = true) :
    e.tickFuse = { e with mem := e.mem.set e.wp (widen (e.entry e.wp)).1, rp := e.rp + 1 } := by simp [tickFuse, hr, hf]
theorem tickFuse_retain (hr : e.rp < e.n0) (hf : fuses (e.entry e.wp) (e.entry e.rp) = false) :
    e.tickFuse = { e with mem := e.mem.set (e.wp + 1) (e.entry e.rp), wp := e.wp + 1, rp := e.rp + 1 } := by
  simp [tickFuse, hr, hf]
theorem tickFuse_end (hr : e.n0 ≤ e.rp) (hn : 1 ≤ e.n0) : e.tickFuse =
    if e.wp + 1 = e.n0 then { e with llen := e.wp + 1, passes := e.passes + 1, phase := .idle }
    else { e with llen := e.wp + 1, passes := e.passes + 1 }.enterFuse := by
  simp [tickFuse, Nat.not_lt.mpr hr, hn]
theorem tickFuse_empty (hn : e.n0 = 0) (hl : e.llen = 0) :
    e.tickFuse = { e with passes := e.passes + 1, phase := .idle } := by simp [tickFuse, hn, hl]

/-! ### Runs of rows before IDLE -/

/-- The engine gets from `e` to `f` by rows of which each begins outside IDLE. -/
def Reaches : MergeEngine → MergeEngine → Prop := Relation.ReflTransGen fun a b => a.phase ≠ .idle ∧ a.tick = b

theorem Reaches.row (hp : e.phase ≠ .idle) (h : Reaches e.tick f) : Reaches e f := .head ⟨hp, rfl⟩ h

theorem Reaches.then_row (h : Reaches e f) (hp : f.phase ≠ .idle) : Reaches e f.tick := .tail h ⟨hp, rfl⟩

/-- Such a run is a number of ticks before which the engine is never in IDLE. -/
theorem Reaches.exists_ticks (h : Reaches e f) : ∃ k, ticks k e = f ∧ ∀ j < k, (ticks j e).phase ≠ .idle := by
  induction h using Relation.ReflTransGen.head_induction_on with
  | refl => exact ⟨0, rfl, fun j hj => absurd hj (Nat.not_lt_zero j)⟩
  | head hrow _ ih =>
    obtain ⟨hp, rfl⟩ := hrow
    obtain ⟨k, hk, hbusy⟩ := ih
    refine ⟨k + 1, hk, fun j hj => ?_⟩
    cases j with
    | zero => exact hp
    | succ j => exact hbusy j (by omega)

/-! ### Where a phase begins, and where the command retires -/

/-- Phase `ph` begins on the list `l`, `p` passes counted: LIST[0..LLEN-1] is `l`, N0 is LLEN in FUSE, and the pointers stand
at 0 and 1. -/
structure Enters (e : MergeEngine) (ph : Phase) (l : ListMem) (p : Nat) : Prop where
  phase : e.phase = ph
  mem : e.mem.take l.length = l
  llen : e.llen = l.length
  n0 : ph = .fuse → e.n0 = l.length
  wp : e.wp = 0
  rp : e.rp = 1
  passes : e.passes = p

/-- The command has retired with the list `l` after `p` passes. -/
structure Retired (e : MergeEngine) (l : ListMem) (p : Nat) : Prop where
  phase : e.phase = .idle
  result : e.result = (l, p)

/-! ### A scan under way -/

/-- Phase `ph` scans LIST[0..n-1]: `kept` are the entries retained so far, the last one at WP, and `rest` the entries to be
read, from RP on. -/
structure Scanning (e : MergeEngine) (ph : Phase) (n p : Nat) (kept rest : ListMem) : Prop where
  phase : e.phase = ph
  llen : e.llen = n
  n0 : ph = .fuse → e.n0 = n
  passes : e.passes = p
  upToWp : e.mem.take (e.wp + 1) = kept
  keptLength : kept.length = e.wp + 1
  fromRp : (e.mem.take n).drop e.rp = rest
  behind : e.wp < e.rp
  inside : e.wp < n
  fits : n ≤ e.mem.length

namespace Scanning

/-- At the beginning of a phase the first entry is retained and the others are to be read. -/
theorem of_enters (h : Enters e ph (x :: rest) p) : Scanning e ph (x :: rest).length p [x] rest where
  phase := h.phase
  llen := h.llen
  n0 := h.n0
  passes := h.passes
  upToWp := by
    have htake := congrArg (List.take 1) h.mem
    rw [List.take_take] at htake
    simpa [h.wp] using htake
  keptLength := by simp [h.wp]
  fromRp := by rw [h.mem, h.rp]; rfl
  behind := by rw [h.wp, h.rp]; exact Nat.one_pos
  inside := by rw [h.wp]; exact Nat.succ_pos _
  fits := by
    have hlength := congrArg List.length h.mem
    rw [List.length_take] at hlength
    omega

/-- The retained entries are the first ones of LIST. -/
theorem take_length (h : Scanning e ph n p kept rest) : e.mem.take kept.length = kept := by
  rw [h.keptLength, h.upToWp]

/-- The entry at WP is the last retained one. -/
theorem entry_wp (h : Scanning e ph n p (done ++ [r]) rest) : e.entry e.wp = r := by
  have hwp : done.length = e.wp := by simpa using h.keptLength
  have hget : e.mem[e.wp]? = (done ++ [r])[e.wp]? := by rw [← h.upToWp, List.getElem?_take_of_lt (Nat.lt_succ_self _)]
  rw [entry, List.getD_eq_getElem?_getD, hget, ← hwp]
  simp

/-- The entry at RP is the next one to be read. -/
theorem entry_rp (h : Scanning e ph n p kept (x :: rest)) (hr : e.rp < n) : e.entry e.rp = x := by
  have hget : e.mem[e.rp]? = (x :: rest)[0]? := by
    rw [← h.fromRp, List.getElem?_drop, Nat.add_zero, List.getElem?_take_of_lt hr]
  rw [entry, List.getD_eq_getElem?_getD, hget]
  rfl

/-- As many entries are to be read as stand between RP and the end of the scan. -/
theorem length_rest (h : Scanning e ph n p kept rest) : rest.length = n - e.rp := by
  rw [← h.fromRp, List.length_drop, List.length_take_of_le h.fits]

theorem rp_lt (h : Scanning e ph n p kept (x :: rest)) : e.rp < n := by
  have hlength := h.length_rest
  rw [List.length_cons] at hlength
  omega

theorem le_rp (h : Scanning e ph n p kept []) : n ≤ e.rp := by
  have hlength := h.length_rest
  rw [List.length_nil] at hlength
  omega

/-- The entries after the one read next. -/
theorem drop_succ_rp (h : Scanning e ph n p kept (x :: rest)) : (e.mem.take n).drop (e.rp + 1) = rest := by
  rw [← List.drop_drop, h.fromRp]
  rfl

/-- The entry read is dropped: RP moves. -/
theorem drop (h : Scanning e ph n p kept (x :: rest)) : Scanning { e with rp := e.rp + 1 } ph n p kept rest :=
  { h with fromRp := h.drop_succ_rp, behind := Nat.lt_succ_of_lt h.behind }

/-- The entry read is consumed by a new retained entry in the place of the last one: WP stays and RP moves. -/
theorem replace (h : Scanning e ph n p (done ++ [r]) (x :: rest)) (c : Subnet) :
    Scanning { e with mem := e.mem.set e.wp c, rp := e.rp + 1 } ph n p (done ++ [c]) rest :=
  { h with
    upToWp := by
      have hwp : done.length = e.wp := by simpa using h.keptLength
      show (e.mem.set e.wp c).take (e.wp + 1) = done ++ [c]
      rw [List.take_set, h.upToWp, ← hwp]
      simp
    keptLength := by simpa using h.keptLength
    fromRp := by
      show ((e.mem.set e.wp c).take n).drop (e.rp + 1) = rest
      rw [List.take_set, List.drop_set_of_lt (Nat.lt_succ_of_lt h.behind), h.drop_succ_rp]
    behind := Nat.lt_succ_of_lt h.behind
    fits := by simpa using h.fits }

/-- The entry read is retained: it is written after the last one, and both pointers move. -/
theorem retain (h : Scanning e ph n p kept (x :: rest)) :
    Scanning { e with mem := e.mem.set (e.wp + 1) x, wp := e.wp + 1, rp := e.rp + 1 } ph n p (kept ++ [x]) rest :=
  { h with
    upToWp := by
      have hroom : e.wp + 1 < e.mem.length := by
        have hbehind := h.behind
        have hr := h.rp_lt
        have hfits := h.fits
        omega
      show (e.mem.set (e.wp + 1) x).take (e.wp + 1 + 1) = kept ++ [x]
      rw [List.take_add_one, List.take_set_of_le le_rfl, h.upToWp, List.getElem?_set_self hroom]
      rfl
    keptLength := by simpa using h.keptLength
    fromRp := by
      show ((e.mem.set (e.wp + 1) x).take n).drop (e.rp + 1) = rest
      rw [List.take_set, List.drop_set_of_lt (Nat.succ_lt_succ h.behind), h.drop_succ_rp]
    behind := Nat.succ_lt_succ h.behind
    inside := lt_of_le_of_lt h.behind h.rp_lt
    fits := by simpa using h.fits }

end Scanning

/-! ### Phase DEDUP (R211) -/

/-- The rows of the dedup scan retain what `dedupScan` does. -/
theorem reaches_dedupScan (h : Scanning e .dedup n p (done ++ [r]) rest) :
    ∃ f, Reaches e f ∧ Scanning f .dedup n p (done ++ dedupScan r rest) [] := by
  induction rest generalizing e done r with
  | nil => exact ⟨e, .refl, h⟩
  | cons x rest ih =>
    have hbusy : e.phase ≠ .idle := by simp [h.phase]
    have hlt : e.rp < e.llen := h.rp_lt.trans_eq h.llen.symm
    have hwp := h.entry_wp
    have hrp := h.entry_rp h.rp_lt
    cases hi : includes r x with
    | true =>
      have htick := (tick_dedup h.phase).trans (tickDedup_drop hlt (by rw [hwp, hrp, hi]))
      obtain ⟨f, hf, hscan⟩ := ih h.drop
      refine ⟨f, .row hbusy (htick ▸ hf), ?_⟩
      rwa [dedupScan, if_pos hi]
    | false =>
      have htick := (tick_dedup h.phase).trans (tickDedup_retain hlt (by rw [hwp, hrp, hi]))
      rw [hrp] at htick
      obtain ⟨f, hf, hscan⟩ := ih h.retain
      refine ⟨f, .row hbusy (htick ▸ hf), ?_⟩
      rwa [dedupScan, hi, if_neg Bool.false_ne_true, List.append_cons]

/-- The last row of DEDUP: LLEN is the number of retained entries, and the first fuse pass begins on them. -/
theorem enters_fuse_of_dedup_end (h : Scanning e .dedup n p kept []) : Enters e.tick .fuse kept p := by
  have hpos : 1 ≤ e.llen := by
    have hinside := h.inside
    have hllen := h.llen
    omega
  rw [tick_dedup h.phase, tickDedup_end (h.llen.trans_le h.le_rp), if_pos hpos]
  exact ⟨rfl, h.take_length, h.keptLength.symm, fun _ => h.keptLength.symm, rfl, rfl, h.passes⟩

/-- On an empty list DEDUP has nothing to do. -/
theorem enters_fuse_of_dedup_nil (h : Enters e .dedup [] p) : Enters e.tick .fuse [] p := by
  have hllen : e.llen = 0 := h.llen
  rw [tick_dedup h.phase, tickDedup_end (by omega), if_neg (by omega)]
  exact ⟨rfl, rfl, hllen, fun _ => hllen, rfl, rfl, h.passes⟩

/-- Phase DEDUP, whole: FUSE begins on the deduplicated list. -/
theorem reaches_fuse_of_dedup (h : Enters e .dedup l p) : ∃ f, Reaches e f ∧ Enters f .fuse (dedupList l) p := by
  cases l with
  | nil =>
    have hbusy : e.phase ≠ .idle := by simp [h.phase]
    exact ⟨e.tick, .row hbusy .refl, enters_fuse_of_dedup_nil h⟩
  | cons x xs =>
    obtain ⟨f, hf, hscan⟩ := reaches_dedupScan (done := []) (Scanning.of_enters h)
    have hbusy : f.phase ≠ .idle := by simp [hscan.phase]
    exact ⟨f.tick, hf.then_row hbusy, enters_fuse_of_dedup_end hscan⟩

/-! ### Phase FUSE (R212, R214) -/

/-- The rows of a fuse scan retain what `fuseScan` does. -/
theorem reaches_fuseScan (h : Scanning e .fuse n p (done ++ [r]) rest) :
    ∃ f, Reaches e f ∧ Scanning f .fuse n p (done ++ fuseScan r rest) [] := by
  induction rest generalizing e done r with
  | nil => exact ⟨e, .refl, h⟩
  | cons x rest ih =>
    have hbusy : e.phase ≠ .idle := by simp [h.phase]
    have hlt : e.rp < e.n0 := h.rp_lt.trans_eq (h.n0 rfl).symm
    have hwp := h.entry_wp
    have hrp := h.entry_rp h.rp_lt
    cases hfx : fuses r x with
    | true =>
      have htick := (tick_fuse h.phase).trans (tickFuse_fuse hlt (by rw [hwp, hrp, hfx]))
      rw [hwp] at htick
      obtain ⟨f, hf, hscan⟩ := ih (h.replace (widen r).1)
      refine ⟨f, .row hbusy (htick ▸ hf), ?_⟩
      rwa [fuseScan, if_pos hfx]
    | false =>
      have htick := (tick_fuse h.phase).trans (tickFuse_retain hlt (by rw [hwp, hrp, hfx]))
      rw [hrp] at htick
      obtain ⟨f, hf, hscan⟩ := ih h.retain
      refine ⟨f, .row hbusy (htick ▸ hf), ?_⟩
      rwa [fuseScan, hfx, if_neg Bool.false_ne_true, List.append_cons]

/-- The last row of a pass: the command retires where as many entries are retained as the pass began with, and else the next
pass begins on them. -/
theorem tick_of_fuse_end (h : Scanning e .fuse n p kept []) :
    (kept.length = n → Retired e.tick kept (p + 1)) ∧ (kept.length ≠ n → Enters e.tick .fuse kept (p + 1)) := by
  have hn0 : e.n0 = n := h.n0 rfl
  have hpos : 1 ≤ e.n0 := by
    have hinside := h.inside
    omega
  have hpasses : e.passes + 1 = p + 1 := by rw [h.passes]
  rw [tick_fuse h.phase, tickFuse_end (hn0.trans_le h.le_rp) hpos, hn0, ← h.keptLength]
  refine ⟨fun hlen => ?retired, fun hlen => ?again⟩
  case retired =>
    rw [if_pos hlen]
    exact ⟨rfl, Prod.ext h.take_length hpasses⟩
  case again =>
    rw [if_neg hlen]
    exact ⟨rfl, h.take_length, rfl, fun _ => rfl, rfl, rfl, hpasses⟩

/-- On an empty list the first pass retires the command. -/
theorem retired_of_fuse_nil (h : Enters e .fuse [] p) : Retired e.tick [] (p + 1) := by
  have hllen : e.llen = 0 := h.llen
  rw [tick_fuse h.phase, tickFuse_empty (h.n0 rfl) hllen]
  exact ⟨rfl, Prod.ext (by simp [result, hllen]) (by rw [← h.passes]; rfl)⟩

/-- One fuse pass, whole. -/
theorem reaches_fusePass (h : Enters e .fuse l p) : ∃ f, Reaches e f ∧
    ((fusePass l).length = l.length → Retired f (fusePass l) (p + 1)) ∧
    ((fusePass l).length ≠ l.length → Enters f .fuse (fusePass l) (p + 1)) := by
  cases l with
  | nil =>
    have hbusy : e.phase ≠ .idle := by simp [h.phase]
    exact ⟨e.tick, .row hbusy .refl, fun _ => retired_of_fuse_nil h, fun hne => absurd rfl hne⟩
  | cons x xs =>
    obtain ⟨f, hf, hscan⟩ := reaches_fuseScan (done := []) (Scanning.of_enters h)
    have hbusy : f.phase ≠ .idle := by simp [hscan.phase]
    exact ⟨f.tick, hf.then_row hbusy, tick_of_fuse_end hscan⟩

/-- Pass after pass the engine follows the loop of R214, and retires with what the loop gives. -/
theorem reaches_fuseLoop {fuel q : Nat} {m : ListMem} (h : Enters e .fuse l p) (hloop : fuseLoop fuel l p = some (m, q)) :
    ∃ f, Reaches e f ∧ Retired f m q := by
  induction fuel generalizing e l p with
  | zero => simp [fuseLoop] at hloop
  | succ fuel ih =>
    obtain ⟨f, hf, hretired, hagain⟩ := reaches_fusePass h
    rcases fuseLoop_succ_cases hloop with ⟨hlen, hres⟩ | ⟨hlen, hmore⟩
    · obtain ⟨rfl, rfl⟩ := Prod.mk.inj hres
      exact ⟨f, hf, hretired hlen⟩
    · obtain ⟨g, hg, hend⟩ := ih (hagain hlen) hmore
      exact ⟨g, hf.trans hg, hend⟩

/-! ### The whole command (R205, R217) -/

/-- Row SORT: DEDUP begins on the sorted list, whatever the pointers and N0 held. -/
theorem enters_dedup_of_accept (l : ListMem) (rp wp n0 : Nat) : Enters (accept l rp wp n0).tick .dedup (sortList l) 0 where
  phase := rfl
  mem := by
    have hmem : (accept l rp wp n0).tick.mem = sortList l := by
      show sortList (l.take l.length) ++ l.drop l.length = sortList l
      rw [List.take_length, List.drop_length, List.append_nil]
    rw [hmem, List.take_length]
  llen := (sortList_perm l).length_eq.symm
  n0 h := by cases h
  wp := rfl
  rp := rfl
  passes := rfl

/-- The engine retires with what the function of MERGE gives. -/
theorem reaches_mergeList {m : ListMem} (rp wp n0 : Nat) (h : mergeList l = some (m, p)) :
    ∃ f, Reaches (accept l rp wp n0) f ∧ Retired f m p := by
  have hbusy : (accept l rp wp n0).phase ≠ .idle := by simp [accept]
  obtain ⟨f, hf, hfuse⟩ := reaches_fuse_of_dedup (enters_dedup_of_accept l rp wp n0)
  obtain ⟨g, hg, hretired⟩ := reaches_fuseLoop hfuse h
  exact ⟨g, .row hbusy (hf.trans hg), hretired⟩

end MergeEngine

/-- Settles O40: phase by phase the rows compute sort, dedup and the fixpoint loop (`MergeEngine.reaches_mergeList`), and a
run of rows outside IDLE is a number of ticks. -/
theorem mergeEngineRefinesMergeFunction : Obligations.MergeEngineRefinesMergeFunction := by
  unfold Obligations.MergeEngineRefinesMergeFunction
  intro l rp wp n0
  obtain ⟨m, p, hm, _⟩ := mergeList_isSome l
  obtain ⟨f, hf, hretired⟩ := MergeEngine.reaches_mergeList rp wp n0 hm
  obtain ⟨k, rfl, hbusy⟩ := hf.exists_ticks
  exact ⟨k, m, p, hm, hretired.phase, hretired.result, hbusy⟩

end Sys2Proof.Machine
end

section
/-! The statements of 45_decompose: the checks of DECOMP in their order (R241; 60_exceptions R278, R283, R284), what it leaves
where its blocks fit (R240, R242) and where they do not (R253), and what the blocks of a range are (R252, R254). -/

namespace Sys2Proof.Machine

/-! ### The words of DECOMP (30_encoding R95) -/

theorem isWidth.lt_256 {fw : Nat} (hw : isWidth fw) : fw < 256 := by
  rcases hw with rfl | rfl <;> omega

theorem encode_decomp (rs1 rs2 : WReg) {fw : Nat} (hw : fw < 256) :
    encode (.decomp rs1 rs2 fw) = [0x49000000 ||| fieldAt rs1.val 16 ||| fieldAt rs2.val 12 ||| fieldAt fw 0] := by
  rw [encode_of_no_payload rfl, headWord, headD_eq 0x49 rs1 rs2 hw]
  rfl

/-! ### The outcomes of the checks before the walk (R241) -/

section Checks
variable {rs1 rs2 : WReg} {fw : Nat} {s : State}

theorem checkWidth_eq_none_of_isWidth (hw : isWidth fw) : checkWidth fw = none :=
  checkWidth_none ((validWidth_iff fw).mpr hw)

theorem checkFamily_eq_none_iff_lt (r : WReg) (fw : Nat) (s : State) :
    checkFamily r fw s = none ↔ (fw = 32 → (s.getW r).toNat < 2 ^ 32) := by
  rw [checkFamily_eq_none_iff, inFamily_iff]

theorem checkFamily_some_of_le {r : WReg} (h : 2 ^ 32 ≤ (s.getW r).toNat) :
    checkFamily r 32 s = some { cause := .family, info := BitVec.ofNat 32 r.val } :=
  checkFamily_some (Bool.eq_false_iff.mpr (mt (inFamily_iff _ 32).mp h.not_gt))

theorem checkOrder_some {b e : WideUint} (h : e < b) : checkOrder b e = some orderExn := if_pos h

theorem checkRange_of_not_isWidth (hw : ¬isWidth fw) :
    checkRange rs1 rs2 fw s = some { cause := .width, info := BitVec.ofNat 32 fw } := by
  rw [checkRange, checkWidth_some (Bool.eq_false_iff.mpr (mt (validWidth_iff fw).mp hw))]
  rfl

/-- Begin's family is checked before end's. -/
theorem checkRange_of_begin_out (h : 2 ^ 32 ≤ (s.getW rs1).toNat) :
    checkRange rs1 rs2 32 s = some { cause := .family, info := BitVec.ofNat 32 rs1.val } := by
  rw [checkRange, checkWidth_eq_none_of_isWidth (.inl rfl), checkFamily_some_of_le h]
  rfl

theorem checkRange_of_end_out (hb : (s.getW rs1).toNat < 2 ^ 32) (h : 2 ^ 32 ≤ (s.getW rs2).toNat) :
    checkRange rs1 rs2 32 s = some { cause := .family, info := BitVec.ofNat 32 rs2.val } := by
  rw [checkRange, checkWidth_eq_none_of_isWidth (.inl rfl), (checkFamily_eq_none_iff_lt rs1 32 s).mpr fun _ => hb,
    checkFamily_some_of_le h]
  rfl

/-- On operands of one family only the order is left to check. -/
theorem checkRange_of_family (hw : isWidth fw)
    (hfamily : fw = 32 → (s.getW rs1).toNat < 2 ^ 32 ∧ (s.getW rs2).toNat < 2 ^ 32) :
    checkRange rs1 rs2 fw s = checkOrder (s.getW rs1) (s.getW rs2) := by
  rw [checkRange, checkWidth_eq_none_of_isWidth hw, (checkFamily_eq_none_iff_lt rs1 fw s).mpr fun h => (hfamily h).1,
    (checkFamily_eq_none_iff_lt rs2 fw s).mpr fun h => (hfamily h).2]
  rfl

end Checks

/-! ### What the command answers (R240, R241, R253) -/

section Answer
variable {rs1 rs2 : WReg} {fw : Nat} {s : State}

theorem exec_decomp (rs1 rs2 : WReg) (fw : Nat) (s : State) :
    exec (.decomp rs1 rs2 fw) s = execDecomp rs1 rs2 fw s := rfl

theorem exec_decomp_of_checkRange_some {x : Exn} (h : checkRange rs1 rs2 fw s = some x) :
    exec (.decomp rs1 rs2 fw) s = .next (s.takeException x) := by
  rw [exec_decomp, execDecomp, h]

/-- A fatal exception of the checks leaves its entry. -/
theorem exec_decomp_fatal {x : Exn} (h : checkRange rs1 rs2 fw s = some x) (hx : x.cause.isFatal = true) :
    ∃ t, exec (.decomp rs1 rs2 fw) s = .next t ∧ s.fatal x.cause.code x.info t :=
  ⟨_, exec_decomp_of_checkRange_some h, State.fatal_takeException hx s⟩

/-- A range of one family has a decomposition, which is appended behind the capacity check. -/
theorem exec_decomp_of_range (hw : isWidth fw)
    (hfamily : fw = 32 → (s.getW rs1).toNat < 2 ^ 32 ∧ (s.getW rs2).toNat < 2 ^ 32)
    (hle : (s.getW rs1).toNat ≤ (s.getW rs2).toNat) :
    ∃ l, decompose (s.getW rs1) (s.getW rs2) fw = some l ∧
      exec (.decomp rs1 rs2 fw) s = finish (checkCapacity l.length s) (s.appendEntries l) s := by
  have hpass : checkRange rs1 rs2 fw s = none :=
    (checkRange_of_family hw hfamily).trans ((checkOrder_eq_none_iff _ _).mpr (BitVec.le_def.mpr hle))
  rcases execDecomp_eq rs1 rs2 fw s with ⟨x, hx, _⟩ | ⟨_, l, hl, _, _, _, hexec⟩
  · cases hpass.symm.trans hx
  · exact ⟨l, hl, hexec⟩

end Answer

/-! ### The reportable entry (60_exceptions R280, R283, R284) -/

namespace State

/-- Neither entry touches what R280 protects. -/
theorem sameData_takeException (s : State) (e : Exn) : s.sameData (s.takeException e) :=
  ⟨s.takeException_getW e, s.takeException_getZ e, s.takeException_getN e, takeException_sameFlags s e,
    ⟨s.takeException_entry e, s.takeException_llen e⟩, s.takeException_passes e, s.takeException_res e,
    s.takeException_cmd e, s.takeException_pending e⟩

/-- E_ORDER retires the command and sets RERR; the record is written only where no report is pending. -/
theorem record_takeException_orderExn (s : State) :
    (s.takeException orderExn).cmdcnt = s.cmdcnt + 1 ∧ (s.takeException orderExn).halted = s.halted ∧
    (s.takeException orderExn).rerr = true ∧
    (s.rerr = false → (s.takeException orderExn).cause = 8 ∧ (s.takeException orderExn).epc = s.cmdcnt ∧
      (s.takeException orderExn).einfo = 0) ∧
    (s.rerr = true → (s.takeException orderExn).cause = s.cause ∧ (s.takeException orderExn).epc = s.epc ∧
      (s.takeException orderExn).einfo = s.einfo) := by
  rw [takeException_reportable rfl]
  cases hr : s.rerr with
  | false =>
    rw [takeReportable_first hr]
    exact ⟨rfl, rfl, rfl, fun _ => ⟨rfl, rfl, rfl⟩, nofun⟩
  | true =>
    rw [takeReportable_recorded hr]
    exact ⟨rfl, rfl, hr, nofun, fun _ => ⟨rfl, rfl, rfl⟩⟩

end State

/-- Settles O42: the first check of `checkRange` that applies raises its exception; the first three are fatal, the order is
reportable. -/
theorem decomposeChecksInOrder : Obligations.DecomposeChecksInOrder := by
  unfold Obligations.DecomposeChecksInOrder
  intro rs1 rs2 fw s _
  simp only [fieldAt_at_zero]
  refine ⟨fun hw => exec_decomp_fatal (checkRange_of_not_isWidth hw) rfl, fun h32 hb => ?begin_out,
    fun h32 hb he => ?end_out, fun hw hfamily hlt => ?inverted⟩
  case begin_out =>
    subst h32
    exact exec_decomp_fatal (checkRange_of_begin_out hb) rfl
  case end_out =>
    subst h32
    exact exec_decomp_fatal (checkRange_of_end_out hb he) rfl
  case inverted =>
    have hraises : checkRange rs1 rs2 fw s = some orderExn :=
      (checkRange_of_family hw hfamily).trans (checkOrder_some (BitVec.lt_def.mpr hlt))
    exact ⟨_, exec_decomp_of_checkRange_some hraises, s.sameData_takeException _, s.record_takeException_orderExn⟩

/-! ### Blocks that fit, and blocks that do not (R240, R242, R253) -/

theorem decompose_self (b : WideUint) (fw : Nat) : decompose b b fw = some [block b fw fw] := if_pos rfl

/-- Settles O41: behind the checks DECOMP is one append of the range's blocks. -/
theorem decomposeCompletes : Obligations.DecomposeCompletes := by
  unfold Obligations.DecomposeCompletes
  intro rs1 rs2 fw s hw hfamily hle hfits
  obtain ⟨l, hl, hexec⟩ := exec_decomp_of_range hw hfamily hle
  rw [(checkCapacity_eq_none_iff l.length s).mpr (hfits l hl), finish_none] at hexec
  refine ⟨encode_decomp rs1 rs2 hw.lt_256, _, l, hl, hexec, s.wroteListOnly_retire_setList _,
    s.appended_retire_appendEntries l, rfl, fun heq => ?oneAddress⟩
  case oneAddress =>
    rw [← heq, decompose_self] at hl
    exact (Option.some.inj hl).symm

/-- Settles O43: behind the checks of R241 the capacity check raises, before any effect. -/
theorem decomposeThatDoesNotFitHalts : Obligations.DecomposeThatDoesNotFitHalts := by
  unfold Obligations.DecomposeThatDoesNotFitHalts
  intro rs1 rs2 fw s l hw hfamily hle hl hfull
  obtain ⟨l', hl', hexec⟩ := exec_decomp_of_range hw hfamily hle
  obtain rfl : l = l' := Option.some.inj (hl.symm.trans hl')
  rw [checkCapacity_some hfull, finish_some] at hexec
  exact ⟨_, hexec, State.fatal_takeException rfl s⟩

/-! ### The blocks of a range (R252, R254) -/

theorem Subnet.lastAddress_add_one (x : Subnet) : x.lastAddress + 1 = x.stop :=
  Nat.sub_add_cancel (Nat.le_add_left_of_le (Nat.two_pow_pos _))

section Tiling
variable {w lo hi : Nat} {l : ListMem}

theorem Tiles.fw_eq (h : Tiles w l lo hi) : ∀ x ∈ l, x.fw.toNat = w := by
  induction l generalizing lo with
  | nil => exact fun _ hx => absurd hx List.not_mem_nil
  | cons y ys ih =>
    obtain ⟨hfw, _, hrest⟩ := h
    exact List.forall_mem_cons.mpr ⟨hfw, ih hrest⟩

/-- Each block of a tiling begins right after the last address of the one before it. -/
theorem Tiles.isChain_contiguous (h : Tiles w l lo hi) :
    l.IsChain fun x y => y.base.toNat = x.lastAddress + 1 := by
  induction l generalizing lo with
  | nil => exact .nil
  | cons x xs ih =>
    obtain ⟨_, _, hrest⟩ := h
    cases xs with
    | nil => exact .singleton x
    | cons y ys =>
      have ⟨_, hbase, _⟩ := hrest
      exact List.isChain_cons_cons.mpr ⟨hbase.trans x.lastAddress_add_one.symm, ih hrest⟩

/-- A tiling up to the address after `e` covers the range that ends with `e`. -/
theorem Tiles.coveredBy_iff {e : Nat} (h : Tiles w l lo (e + 1)) (v a : Nat) :
    coveredBy l v a ↔ v = w ∧ lo ≤ a ∧ a ≤ e := by
  rw [coveredBy_iff_covered, h.covered_iff, Nat.lt_succ_iff]

end Tiling

/-- Settles O44: the blocks of a range tile it (`decompose_spec`). -/
theorem decompositionCoversTheRangeExactly : Obligations.DecompositionCoversTheRangeExactly := by
  unfold Obligations.DecompositionCoversTheRangeExactly
  intro b e fw hw he hle
  obtain ⟨l, hl, hwf, htiles, _⟩ := decompose_spec hw he hle
  exact ⟨l, hl, fun x hx => ⟨hwf x hx, htiles.fw_eq x hx⟩, htiles.isChain_contiguous, htiles.coveredBy_iff⟩

/-- Settles O45: the blocks of a range are a canonical list, and a canonical list is the shortest cover of its addresses. -/
theorem decompositionIsSmallest : Obligations.DecompositionIsSmallest := by
  unfold Obligations.DecompositionIsSmallest
  intro b e fw l l' hw he hle hl hwf' hcov
  obtain ⟨m, hm, hwf, htiles, hnofuse⟩ := decompose_spec hw he hle
  obtain rfl : l = m := Option.some.inj (hl.symm.trans hm)
  refine canon_shortest (canon_of_tiles hwf htiles hnofuse) hwf' fun w a => ?_
  calc Covered l' w a
      ↔ coveredBy l' w a := (coveredBy_iff_covered l' w a).symm
    _ ↔ w = fw ∧ b.toNat ≤ a ∧ a ≤ e.toNat := hcov w a
    _ ↔ coveredBy l w a := (htiles.coveredBy_iff w a).symm
    _ ↔ Covered l w a := coveredBy_iff_covered l w a

end Sys2Proof.Machine
end

section
/-! The statements of 46_system: CSROUT emits a control and status register or raises E_ILLEGAL (R260; 10_state R27, R30,
R31; 60_exceptions R271), and CLRERR is the acknowledge and nothing else (R261). -/

namespace Sys2Proof.Machine

/-! ### The registers' layouts (10_state R27, R30, R31) -/

namespace State

theorem statusWord_eq_ofNat (s : State) : s.statusWord = BitVec.ofNat 32 (s.halted.toNat + 2 * s.rerr.toNat) := by
  unfold statusWord
  cases s.halted <;> cases s.rerr <;> rfl

theorem causeWord_eq_ofNat (s : State) : s.causeWord = BitVec.ofNat 32 s.cause.toNat := by
  rw [causeWord, BitVec.ofNat_toNat, BitVec.setWidth_eq_append (by decide)]
  rfl

theorem flagsWord_eq_ofNat (s : State) : s.flagsWord = BitVec.ofNat 32 (s.t.toNat + 2 * s.c.toNat +
    4 * (match s.cmp with | .less => 3 | .equal => 0 | .greater => 1)) := by
  unfold flagsWord
  cases s.cmp <;> cases s.c <;> cases s.t <;> rfl

/-- The numbers from 9 on are reserved (R29). -/
theorem csr_reserved (s : State) {n : Nat} (h : 9 ≤ n) : s.csr n = none := by
  obtain ⟨k, rfl⟩ := Nat.exists_eq_add_of_le' h
  rfl

end State

/-! ### CSROUT (R260) -/

theorem headWord_csrout {n : Nat} (hn : n < 65536) : headWord (.csrout n) = 0x50000000 ||| fieldAt n 0 := by
  rw [headWord, headI_eq 0x50 0 hn]
  simp [fieldAt_zero]

theorem exec_csrout (n : Nat) (s : State) : exec (.csrout n) s = execCsrout n s := rfl

/-- A register that is there is emitted, and nothing else changes. -/
theorem exec_csrout_emitted {n : Nat} {v : Word} {s : State} (h : s.csr n = some v) :
    ∃ t, exec (.csrout n) s = .next t ∧ s.emitted [v] t := by
  rw [exec_csrout, execCsrout, h]
  exact ⟨_, rfl, s.emitted_retire_emit [v]⟩

/-- A reserved number is fatal, with the head word as EINFO (60_exceptions R271). -/
theorem exec_csrout_fatal {n : Nat} {s : State} (h : s.csr n = none) :
    ∃ t, exec (.csrout n) s = .next t ∧ s.fatal 1 (headWord (.csrout n)) t := by
  rw [exec_csrout, execCsrout, h]
  exact ⟨_, rfl, State.fatal_takeException rfl s⟩

/-- Settles O46: a register that is there is emitted (`exec_csrout_emitted`), STATUS, CAUSE and FLAGS by their layouts, and a
reserved number is fatal (`exec_csrout_fatal`). -/
theorem csroutEmitsTheRegister : Obligations.CsroutEmitsTheRegister := by
  unfold Obligations.CsroutEmitsTheRegister
  intro s
  refine ⟨fun n hn => ?words, exec_csrout_emitted (congrArg some s.statusWord_eq_ofNat),
    exec_csrout_emitted (congrArg some s.causeWord_eq_ofNat), exec_csrout_emitted rfl, exec_csrout_emitted rfl,
    exec_csrout_emitted (congrArg some s.flagsWord_eq_ofNat), exec_csrout_emitted rfl, exec_csrout_emitted rfl,
    exec_csrout_emitted rfl, exec_csrout_emitted rfl, fun n hn hfield => ?reserved⟩
  case words => rw [encode_of_no_payload rfl, headWord_csrout hn]
  case reserved =>
    rw [← headWord_csrout hfield]
    exact exec_csrout_fatal (s.csr_reserved hn)

/-! ### CLRERR (R261) -/

theorem exec_clrerr (s : State) : exec .clrerr s = .next s.acknowledge.retire := rfl

/-- The acknowledge touches nothing of the data, whatever was recorded. -/
theorem State.sameData_retire_acknowledge (s : State) : s.sameData s.acknowledge.retire :=
  ⟨fun _ => rfl, fun _ => rfl, fun _ => rfl, ⟨rfl, rfl, rfl⟩, ⟨fun _ => rfl, rfl⟩, rfl, rfl, rfl, rfl⟩

/-- Settles O47: CLRERR is the acknowledge, retired, and writes the record and CMDCNT alone. -/
theorem clrerrAcknowledges : Obligations.ClrerrAcknowledges := by
  unfold Obligations.ClrerrAcknowledges
  exact fun s => ⟨encode_no_operand 0x51 rfl rfl, _, exec_clrerr s, rfl, rfl, rfl, rfl, rfl, rfl,
    s.sameData_retire_acknowledge⟩

end Sys2Proof.Machine
end

section
/-! The statements of 60_exceptions: fatal entry (R281), precise exceptions (R280, R281, R283; 10_state R37), and the halted
unit (R282; 70_reset_and_hazards R310). What a command can leave is `exec_result`. -/

namespace Sys2Proof.Machine

/-! ### Fatal entry (R270, R281) -/

/-- Every exception but E_ORDER is fatal (R270, R278). -/
theorem Cause.isFatal_of_ne_order {c : Cause} (h : c ≠ .order) : c.isFatal = true := by
  cases c with
  | order => exact absurd rfl h
  | _ => rfl

/-- Settles O49: an exception other than E_ORDER is fatal, and its entry is that of `fatal_takeException`. -/
theorem fatalEntryRecordsAndHalts : Obligations.FatalEntryRecordsAndHalts := by
  unfold Obligations.FatalEntryRecordsAndHalts
  exact ⟨fun s _ he => s.fatal_takeException (Cause.isFatal_of_ne_order he), rfl, rfl, rfl, rfl, rfl, rfl, rfl, rfl⟩

/-! ### What a completed command leaves of the record, the ports and CMDCNT -/

section Precise
variable {s t v : State} {i : Instr}

/-- Only the reportable entry sets RERR. -/
theorem Effect.rerr_of_rerr (h : Effect s i v) (hv : v.rerr = true) : s.rerr = true := by
  cases h with
  | acknowledge => cases hv
  | _ => exact hv

/-- A command retires after its effect, not within it. -/
theorem Effect.cmdcnt_kept (h : Effect s i v) : v.cmdcnt = s.cmdcnt := by
  cases h <;> rfl

/-- A command's own words have been taken before it runs. -/
theorem Effect.samePort (h : Effect s i v) : s.samePort v := by
  cases h <;> exact ⟨rfl, rfl⟩

/-- Words emitted stand after those emitted before. -/
theorem Effect.res_grows (h : Effect s i v) : ∃ ws, v.res = s.res ++ ws := by
  cases h with
  | @emit ws => exact ⟨ws, rfl⟩
  | _ => exact ⟨[], (List.append_nil _).symm⟩

/-- No command takes a word beyond its own or changes the words left (10_state R43). -/
theorem exec_samePort (h : exec i s = .next t) : s.samePort t := by
  cases exec_result h with
  | fatal | reported => exact ⟨s.takeException_cmd _, s.takeException_pending _⟩
  | completed hv => exact hv.samePort

/-- No command takes back a word emitted (10_state R43). -/
theorem exec_res_grows (h : exec i s = .next t) : ∃ ws, t.res = s.res ++ ws := by
  cases exec_result h with
  | fatal | reported => exact ⟨[], by rw [State.takeException_res, List.append_nil]⟩
  | completed hv => exact hv.res_grows

/-- A running unit is halted by a fatal entry alone. -/
theorem fatal_of_exec_halts (hrun : s.halted = false) (h : exec i s = .next t) (hstop : t.halted = true) :
    ∃ e : Exn, e.cause.isFatal = true ∧ t = s.takeException e := by
  cases exec_result h with
  | fatal he => exact ⟨_, he, rfl⟩
  | reported =>
    obtain ⟨_, hhalt, _⟩ := s.record_takeException_orderExn
    cases hrun.symm.trans (hhalt.symm.trans hstop)
  | completed hv => cases hrun.symm.trans (hv.halted_kept.symm.trans hstop)

/-- A command that does not halt the unit retires once, also where it reports E_ORDER (R283). -/
theorem exec_retires (h : exec i s = .next t) (hgo : t.halted = false) : t.cmdcnt = s.cmdcnt + 1 := by
  cases exec_result h with
  | fatal he =>
    obtain ⟨hhalt, _⟩ := s.fatal_takeException he
    cases hgo.symm.trans hhalt
  | reported => exact s.record_takeException_orderExn.1
  | completed hv => exact congrArg (· + 1) hv.cmdcnt_kept

/-- RERR is set by the reportable entry of DECOMP alone. -/
theorem reported_of_exec_sets_rerr (hclear : s.rerr = false) (h : exec i s = .next t) (hset : t.rerr = true) :
    t = s.takeException orderExn ∧ ∃ rs1 rs2 fw, i = .decomp rs1 rs2 fw := by
  cases exec_result h with
  | fatal he =>
    obtain ⟨_, _, _, _, hrerr, _⟩ := s.fatal_takeException he
    cases hclear.symm.trans (hrerr.symm.trans hset)
  | reported hi => exact ⟨rfl, _, _, _, hi⟩
  | completed hv => cases hclear.symm.trans (hv.rerr_of_rerr hset)

end Precise

/-- Settles O50: what halts the unit is a fatal entry (`fatal_of_exec_halts`), what sets RERR is the reportable one
(`reported_of_exec_sets_rerr`), and each entry leaves the data alone. -/
theorem exceptionsArePrecise : Obligations.ExceptionsArePrecise := by
  unfold Obligations.ExceptionsArePrecise
  intro i s t hrun h
  refine ⟨fun hstop => ?halts, exec_retires h, fun hclear hset => ?reports, exec_samePort h, exec_res_grows h⟩
  case halts =>
    obtain ⟨e, he, rfl⟩ := fatal_of_exec_halts hrun h hstop
    obtain ⟨_, hcause, hepc, _, hrerr, hcnt, hdata⟩ := s.fatal_takeException he
    refine ⟨hdata, hcnt, hrerr, hepc, ?_⟩
    rw [hcause]
    exact State.fatal_code_range e.cause he
  case reports =>
    obtain ⟨rfl, hdecomp⟩ := reported_of_exec_sets_rerr hclear h hset
    obtain ⟨_, _, _, hrecord, _⟩ := s.record_takeException_orderExn
    obtain ⟨hcause, hepc, hinfo⟩ := hrecord hclear
    exact ⟨s.sameData_takeException orderExn, hcause, hepc, hinfo, hdecomp⟩

/-! ### The halted unit (R282) -/

theorem step_of_halted {s : State} (h : s.halted = true) : step s = .next s := by
  simp [step, h]

/-- A state whose step answers itself is where every run from it stays. -/
theorem run_of_step_self {s : State} (h : step s = .next s) (k : Nat) : core.run k s = .next s := by
  induction k with
  | zero => exact run_zero s
  | succ k ih => rw [run_succ_of_next h, ih]

/-- Settles O51: presenting words does not clear HALTED, and the step of a halted unit is the state itself. -/
theorem haltedUnitChangesNothing : Obligations.HaltedUnitChangesNothing := by
  unfold Obligations.HaltedUnitChangesNothing
  intro s ws h
  have hpresented : (s.present ws).halted = true := h
  exact ⟨run_of_step_self (step_of_halted hpresented), by rw [State.runEnd, if_pos h], rfl⟩

end Sys2Proof.Machine
end

section
/-! The statements of 70_reset_and_hazards: the state after reset (R311), the separate data paths (R324; 42_blocksize R171,
10_state R27), and the end of every run (R325, R332). -/

namespace Sys2Proof.Machine

/-! ### Reset (R311) -/

/-- Settles O58: the register files read their reset value everywhere, and every other field is the one `State.reset` gives. -/
theorem resetState : Obligations.ResetState := by
  unfold Obligations.ResetState
  exact ⟨State.reset_getW, State.reset_getZ, State.reset_getN, rfl, rfl, rfl, rfl, rfl, rfl, rfl, rfl, rfl, rfl, rfl, rfl, rfl,
    fun _ => rfl⟩

/-! ### Two runs of one command (R324) -/

section TwoRuns
variable {s s' t t' v v' : State} {i : Instr} {c c' : Option Exn}

/-- Two runs of a checked command whose checks agree both raise the exception or both complete. -/
theorem finish_related {R : State → State → Prop} (hc : c = c')
    (he : ∀ e, R (s.takeException e) (s'.takeException e)) (hv : R v.retire v'.retire)
    (h : finish c v s = .next t) (h' : finish c' v' s' = .next t') : R t t' := by
  subst hc
  cases c with
  | some e =>
    obtain rfl := Host.Outcome.next.inj h
    obtain rfl := Host.Outcome.next.inj h'
    exact he e
  | none =>
    obtain rfl := Host.Outcome.next.inj h
    obtain rfl := Host.Outcome.next.inj h'
    exact hv

/-! ### The Z file (42_blocksize R171) -/

theorem State.sameZ.setZ (h : s'.sameZ s) (rd : ZReg) {x x' : Counter} (hx : x = x') : (s'.setZ rd x').sameZ (s.setZ rd x) := by
  intro r
  rw [State.getZ_setZ, State.getZ_setZ, hx, h r]

theorem State.sameZ.retire (h : s'.sameZ s) : s'.retire.sameZ s.retire := h

/-- A write of Zd behind checks leaves the same Z file in both runs. -/
theorem finish_setZ_sameZ (h : s'.sameZ s) (hc : c = c') {rd : ZReg} {x x' : Counter} (hx : x = x')
    (ht : finish c (s.setZ rd x) s = .next t) (ht' : finish c' (s'.setZ rd x') s' = .next t') : t'.sameZ t :=
  finish_related (R := fun a b => b.sameZ a) hc
    (fun e r => by rw [State.takeException_getZ, State.takeException_getZ, h r]) (h.setZ rd hx).retire ht ht'

/-- What a command leaves in the Z file depends on the Z file alone. -/
theorem exec_sameZ (h : s'.sameZ s) (ht : exec i s = .next t) (ht' : exec i s' = .next t') : t'.sameZ t := by
  cases hz : writesZ i with
  | false =>
    obtain ⟨_, hkept, _⟩ := registerAndListWritersAreTheListed i s t ht
    obtain ⟨_, hkept', _⟩ := registerAndListWritersAreTheListed i s' t' ht'
    exact fun r => by rw [hkept hz r, hkept' hz r, h r]
  | true =>
    cases i with
    | masks => exact finish_setZ_sameZ h rfl rfl ht ht'
    | zsub => exact finish_setZ_sameZ h (by rw [h, h]) (by rw [h, h]) ht ht'
    | zsetb => exact finish_setZ_sameZ h rfl (by rw [h]) ht ht'
    | _ => cases hz

/-! ### The W file, the N file and LIST -/

/-- The two states hold the same operands outside the Z file: W, N and LIST. -/
structure SameOperands (s s' : State) : Prop where
  getW : ∀ r, s.getW r = s'.getW r
  getN : ∀ r, s.getN r = s'.getN r
  list : s.list = s'.list

namespace SameOperands

theorem symm (h : SameOperands s s') : SameOperands s' s :=
  ⟨fun r => (h.getW r).symm, fun r => (h.getN r).symm, h.list.symm⟩

theorem trans (h : SameOperands s t) (h' : SameOperands t v) : SameOperands s v :=
  ⟨fun r => (h.getW r).trans (h'.getW r), fun r => (h.getN r).trans (h'.getN r), h.list.trans h'.list⟩

/-- LIST is its entries, those at LLEN and above being none. -/
theorem of_reads (hw : ∀ r, s.getW r = s'.getW r) (hn : ∀ r, s.getN r = s'.getN r) (hl : ∀ k, s.entry k = s'.entry k) :
    SameOperands s s' :=
  ⟨hw, hn, List.ext_getElem? hl⟩

/-! Writing equal values to both keeps them the same, and so do the flags, CMDCNT and the record. -/

theorem setW (h : SameOperands s s') (rd : WReg) {x x' : WideUint} (hx : x = x') :
    SameOperands (s.setW rd x) (s'.setW rd x') :=
  ⟨fun r => by rw [State.getW_setW, State.getW_setW, hx, h.getW r], h.getN, h.list⟩

theorem setN (h : SameOperands s s') (rd : NReg) {x x' : Subnet} (hx : x = x') :
    SameOperands (s.setN rd x) (s'.setN rd x') :=
  ⟨h.getW, fun r => by rw [State.getN_setN, State.getN_setN, hx, h.getN r], h.list⟩

theorem setList (h : SameOperands s s') {l l' : ListMem} (hl : l = l') : SameOperands (s.setList l) (s'.setList l') :=
  ⟨h.getW, h.getN, hl⟩

theorem appendEntries (h : SameOperands s s') {l l' : ListMem} (hl : l = l') :
    SameOperands (s.appendEntries l) (s'.appendEntries l') :=
  h.setList (by rw [h.list, hl])

theorem setPasses (h : SameOperands s s') (p p' : Word) : SameOperands (s.setPasses p) (s'.setPasses p') :=
  ⟨h.getW, h.getN, h.list⟩

theorem setT (h : SameOperands s s') (b b' : Bool) : SameOperands (s.setT b) (s'.setT b') := ⟨h.getW, h.getN, h.list⟩

theorem setC (h : SameOperands s s') (b b' : Bool) : SameOperands (s.setC b) (s'.setC b') := ⟨h.getW, h.getN, h.list⟩

theorem retire (h : SameOperands s s') : SameOperands s.retire s'.retire := ⟨h.getW, h.getN, h.list⟩

theorem takeException (h : SameOperands s s') (e : Exn) : SameOperands (s.takeException e) (s'.takeException e) :=
  ⟨fun r => by rw [State.takeException_getW, State.takeException_getW, h.getW r],
    fun r => by rw [State.takeException_getN, State.takeException_getN, h.getN r],
    by rw [State.takeException_list, State.takeException_list, h.list]⟩

/-! The checks that look at a state look at W, N and LIST alone. -/

theorem llen (h : SameOperands s s') : s.llen = s'.llen := congrArg List.length h.list

theorem checkFamily (h : SameOperands s s') (r : WReg) (fw : Nat) : checkFamily r fw s = checkFamily r fw s' := by
  rw [Machine.checkFamily, Machine.checkFamily, h.getW]

theorem checkSubnet (h : SameOperands s s') (r : NReg) : checkSubnet r s = checkSubnet r s' := by
  rw [Machine.checkSubnet, Machine.checkSubnet, h.getN]

theorem checkEntry (h : SameOperands s s') (idx : Nat) : checkEntry idx s = checkEntry idx s' := by
  rw [Machine.checkEntry, Machine.checkEntry, h.llen]

theorem checkCapacity (h : SameOperands s s') (k : Nat) : checkCapacity k s = checkCapacity k s' := by
  rw [Machine.checkCapacity, Machine.checkCapacity, State.llenWord, State.llenWord, h.llen]

theorem checkRange (h : SameOperands s s') (rs1 rs2 : WReg) (fw : Nat) : checkRange rs1 rs2 fw s = checkRange rs1 rs2 fw s' := by
  rw [Machine.checkRange, Machine.checkRange, h.checkFamily, h.checkFamily, h.getW, h.getW]

/-! Both runs of a command. -/

theorem of_complete (hv : SameOperands v v') (ht : complete v = .next t) (ht' : complete v' = .next t') :
    SameOperands t t' := by
  obtain rfl := complete_cases ht
  obtain rfl := complete_cases ht'
  exact hv.retire

theorem of_finish (h : SameOperands s s') (hc : c = c') (hv : SameOperands v v') (ht : finish c v s = .next t)
    (ht' : finish c' v' s' = .next t') : SameOperands t t' :=
  finish_related hc h.takeException hv.retire ht ht'

/-- A command outside the lists of writers leaves the three as they were. -/
theorem of_no_writer (hw : writesW i = false) (hn : writesN i = false) (hl : writesList i = false)
    (ht : exec i s = .next t) : SameOperands t s := by
  obtain ⟨hW, _, hN, hL, _⟩ := registerAndListWritersAreTheListed i s t ht
  exact of_reads (hW hw) (hN hn) (hL hl).1

theorem of_nwiden (h : SameOperands s s') {rd rs1 : NReg} (ht : exec (.nwiden rd rs1) s = .next t)
    (ht' : exec (.nwiden rd rs1) s' = .next t') : SameOperands t t' := by
  rw [exec_nwiden] at ht ht'
  refine h.of_finish (h.checkSubnet rs1) (.setT ?_ _ _) ht ht'
  rw [h.getN]
  split
  · exact h.setN rd rfl
  · exact h

theorem of_merge (h : SameOperands s s') (ht : exec .merge s = .next t) (ht' : exec .merge s' = .next t') :
    SameOperands t t' := by
  obtain ⟨m, p, hm, _⟩ := mergeList_isSome s.list
  rw [exec_merge hm] at ht
  rw [exec_merge (h.list ▸ hm)] at ht'
  exact of_complete ((h.setList rfl).setPasses _ _) ht ht'

theorem of_decomp (h : SameOperands s s') {rs1 rs2 : WReg} {fw : Nat} (ht : exec (.decomp rs1 rs2 fw) s = .next t)
    (ht' : exec (.decomp rs1 rs2 fw) s' = .next t') : SameOperands t t' := by
  rcases execDecomp_eq rs1 rs2 fw s with ⟨x, hx, he⟩ | ⟨hnone, l, hl, _, _, _, he⟩
  · have hx' := (h.checkRange rs1 rs2 fw).symm.trans hx
    obtain rfl := Host.Outcome.next.inj (he.symm.trans ht)
    obtain rfl := Host.Outcome.next.inj ((exec_decomp_of_checkRange_some hx').symm.trans ht')
    exact h.takeException x
  · rcases execDecomp_eq rs1 rs2 fw s' with ⟨x, hx, _⟩ | ⟨_, l', hl', _, _, _, he'⟩
    · cases hnone.symm.trans ((h.checkRange rs1 rs2 fw).trans hx)
    · rw [← h.getW, ← h.getW, hl] at hl'
      obtain rfl := Option.some.inj hl'
      exact h.of_finish (h.checkCapacity _) (h.appendEntries rfl) (he.symm.trans ht) (he'.symm.trans ht')

end SameOperands

/-- What a command leaves in W, N and LIST depends on W, N and LIST alone. -/
theorem exec_sameOperands (h : SameOperands s s') (ht : exec i s = .next t) (ht' : exec i s' = .next t') :
    SameOperands t t' := by
  cases i with
  | wcmp | wout | masks | zsub | zisz | zsetb | zout | nincl | nlt | nout | lout | csrout | clrerr =>
    exact ((SameOperands.of_no_writer rfl rfl rfl ht).trans h).trans (SameOperands.of_no_writer rfl rfl rfl ht').symm
  | wli rd | wli4 rd => exact .of_complete (h.setW rd rfl) ht ht'
  | wnot rd | wand rd | wrend rd | wcto rd => exact .of_complete (h.setW rd (by simp only [h.getW])) ht ht'
  | wshl rd | wnext rd | wjump rd => exact .of_complete ((h.setW rd (by simp only [h.getW])).setC _ _) ht ht'
  | maska rd => exact h.of_finish rfl (h.setW rd rfl) ht ht'
  | nbase rd rs1 | nmask rd rs1 => exact h.of_finish (h.checkSubnet rs1) (h.setW rd (by rw [h.getN])) ht ht'
  | nmake rd rs1 plen fw =>
    exact h.of_finish (by rw [h.checkFamily]) ((h.setN rd (by rw [h.getW])).setT _ _) ht ht'
  | nwiden => exact h.of_nwiden ht ht'
  | lclr => exact .of_complete (h.setList rfl) ht ht'
  | lpush rs1 =>
    exact h.of_finish (by rw [h.checkSubnet, h.checkCapacity]) (h.appendEntries (by rw [h.getN])) ht ht'
  | lget rd idx =>
    exact h.of_finish (h.checkEntry idx) (h.setN rd (by rw [State.entry, State.entry, h.list])) ht ht'
  | merge => exact h.of_merge ht ht'
  | decomp => exact h.of_decomp ht ht'

end TwoRuns

/-- Settles O54: two runs of one command from states with the same Z file (`exec_sameZ`), and from states with the same W, N
and LIST (`exec_sameOperands`). -/
theorem dataPathsAreSeparate : Obligations.DataPathsAreSeparate := by
  unfold Obligations.DataPathsAreSeparate
  intro i s s' t t' ht ht'
  refine ⟨fun hz => exec_sameZ hz ht ht', fun hw hn hl => ?_⟩
  have h := exec_sameOperands (.of_reads hw hn hl) ht ht'
  exact ⟨h.getW, h.getN, fun k => congrArg (·[k]?) h.list⟩

/-! ### The end of every run (R325, R332) -/

/-- A whole command has at least its head word. -/
theorem length_lt_of_decode_command {ws rest : List Word} {i : Instr} (h : decode ws = .command i rest) :
    rest.length < ws.length := by
  obtain ⟨_, rfl⟩ := encode_append_of_decode h
  simp [encode]

/-- An illegal head word is one word. -/
theorem length_lt_of_decode_illegal {ws rest : List Word} {w : Word} (h : decode ws = .illegal w rest) :
    rest.length < ws.length := by
  rcases decode_cases ws with ⟨_, hd⟩ | ⟨_, _, rfl, _, hd⟩ | ⟨_, _, _, _, _, _, hd⟩ | ⟨_, _, _, _, _, _, hd⟩
  · cases h.symm.trans hd
  · obtain ⟨rfl, rfl⟩ := Decoded.illegal.inj (h.symm.trans hd)
    exact Nat.lt_succ_self _
  · cases h.symm.trans hd
  · cases h.symm.trans hd

namespace State

/-- How many words are still to be run: those the decoder holds and those not yet taken. -/
def wordsLeft (s : State) : Nat := s.pending.length + s.cmd.length

theorem wordsLeft_takeWords (s : State) (rest : List Word) : (s.takeWords rest).wordsLeft = rest.length := Nat.zero_add _

theorem wordsLeft_of_samePort {s t : State} (h : s.samePort t) : t.wordsLeft = s.wordsLeft := by
  obtain ⟨hcmd, hpending⟩ := h
  rw [wordsLeft, wordsLeft, hcmd, hpending]

theorem length_fetched (s : State) : (s.pending ++ s.cmd).length = s.wordsLeft := List.length_append

/-- A run has ended exactly where the unit is halted or no word is left to take. -/
theorem runEnd_ne_none_iff (s : State) : s.runEnd ≠ none ↔ s.halted = true ∨ s.cmd = [] := by
  unfold runEnd
  cases s.halted <;> by_cases hc : s.cmd = [] <;> by_cases hp : s.pending = [] <;> simp [hc, hp]

end State

/-- Once the unit waits, its step changes nothing. -/
theorem step_holdWords {s : State} (hh : s.halted = false) (hf : s.fetch = .incomplete) :
    step s.holdWords = .next s.holdWords := by
  have h := step_present_holdWords hh []
  rwa [present_nil, present_nil, step_of_fetch_incomplete hh hf] at h

/-- A step of a unit that is not halted takes words for good, or the unit waits from then on. -/
theorem step_takes_or_waits {s : State} (hh : s.halted = false) :
    (∃ t, step s = .next t ∧ t.wordsLeft < s.wordsLeft) ∨ s.fetch = .incomplete := by
  rcases step_cases s with ⟨hhalt, _⟩ | ⟨_, i, rest, hf, h⟩ | ⟨_, w, rest, hf, h⟩ | ⟨_, hf, _⟩
  · cases hh.symm.trans hhalt
  · obtain ⟨t, ht⟩ := exec_answers i (s.takeWords rest)
    refine .inl ⟨t, h.trans ht, ?_⟩
    rw [State.wordsLeft_of_samePort (exec_samePort ht), State.wordsLeft_takeWords, ← s.length_fetched]
    exact length_lt_of_decode_command hf
  · refine .inl ⟨_, h, ?_⟩
    have hport : (s.takeWords rest).samePort ((s.takeWords rest).rejectHead w) :=
      ⟨State.takeException_cmd _ _, State.takeException_pending _ _⟩
    rw [State.wordsLeft_of_samePort hport, State.wordsLeft_takeWords, ← s.length_fetched]
    exact length_lt_of_decode_illegal hf
  · exact .inr hf

/-- A unit whose words end too early has ended its run: at once where every word is taken, otherwise by taking them. -/
theorem run_of_fetch_incomplete {s : State} (hh : s.halted = false) (hf : s.fetch = .incomplete) :
    ∃ k ≤ s.wordsLeft, core.run k s = .next s.holdWords := by
  have hstep := step_of_fetch_incomplete hh hf
  by_cases hc : s.cmd = []
  · have hself : s.holdWords = s := by
      rw [State.holdWords, hc, List.append_nil, ← hc]
    exact ⟨0, Nat.zero_le _, by rw [hself, run_zero]⟩
  · refine ⟨1, ?_, by rw [run_succ_of_next hstep, run_zero]⟩
    have := List.length_pos_iff.mpr hc
    unfold State.wordsLeft
    omega

/-- Every run ends within as many steps as words are left, by induction on that number. -/
theorem run_ends (s : State) : ∃ k t, k ≤ s.wordsLeft ∧ core.run k s = .next t ∧ t.runEnd ≠ none ∧ step t = .next t := by
  induction hn : s.wordsLeft using Nat.strong_induction_on generalizing s with
  | _ n ih =>
    subst hn
    cases hh : s.halted with
    | true => exact ⟨0, s, Nat.zero_le _, run_zero s, (s.runEnd_ne_none_iff).mpr (.inl hh), step_of_halted hh⟩
    | false =>
      rcases step_takes_or_waits hh with ⟨u, hstep, hlt⟩ | hf
      · obtain ⟨k, t, hk, hrun, hend⟩ := ih u.wordsLeft hlt u rfl
        exact ⟨k + 1, t, by omega, by rw [run_succ_of_next hstep, hrun], hend⟩
      · obtain ⟨k, hk, hrun⟩ := run_of_fetch_incomplete hh hf
        exact ⟨k, s.holdWords, hk, hrun, s.holdWords.runEnd_ne_none_iff.mpr (.inr rfl), step_holdWords hh hf⟩

/-- Settles O59: `run_ends`, with the number of words left written out. -/
theorem everyRunEnds : Obligations.EveryRunEnds := by
  unfold Obligations.EveryRunEnds
  exact run_ends

end Sys2Proof.Machine
end
